-- ==== Sys2Proof/Word.lean ====
section
/-! DEFINITION. The two value widths of the block (R5, R8): 8-bit data, 16-bit addresses and pairs. -/

namespace Sys2Proof

/-- `u8`, a value in 0..255 (R8). -/
abbrev Byte := BitVec 8

/-- `u16`, a value in 0..65535 (R8). -/
abbrev Word := BitVec 16

end Sys2Proof
end

