-- ==== Sys2Proof/Syntax.lean ====
section
/-! DEFINITION. The instruction set as syntax: one constructor of `Instr` per row of spec/opcode_table.json, in the
table's order, with operands already taken apart (R104 to R110, R116). -/

namespace Sys2Proof

/-- The 8-bit operand field, its value 6 (the byte at `HL`) apart (R104). -/
inductive Reg8 where
  | b | c | d | e | h | l | a
  deriving DecidableEq, Repr

/-- `r16`: the pairs and `SP` (R105). -/
inductive Reg16 where
  | bc | de | hl | sp
  deriving DecidableEq, Repr

/-- `r16stk`: the pairs that `PUSH` and `POP` move (R105). -/
inductive StackPair where
  | bc | de | hl | af
  deriving DecidableEq, Repr

/-- The conditions of `JR cc`, `JP cc`, `CALL cc`, `RET cc` (R106). -/
inductive Cond where
  | nz | z | nc | c
  deriving DecidableEq, Repr

/-- The instructions, one constructor per row of the opcode table. -/
inductive Instr where
  /-- `NOP` (R260). -/
  | nop
  /-- `LD rr,nn` (R160). -/
  | ldRrNn (p : Reg16) (nn : Word)
  /-- `LD (BC),A` (R137). -/
  | ldBcA
  /-- `LD (DE),A` (R138). -/
  | ldDeA
  /-- `LD (HL+),A` (R145). -/
  | ldHlIncA
  /-- `LD (HL-),A` (R147). -/
  | ldHlDecA
  /-- `INC rr` (R201). -/
  | incRr (p : Reg16)
  /-- `INC r` (R179). -/
  | incR (rd : Reg8)
  /-- `INC (HL)` (R179). -/
  | incHl
  /-- `DEC r` (R180). -/
  | decR (rd : Reg8)
  /-- `DEC (HL)` (R180). -/
  | decHl
  /-- `LD r,n` (R131). -/
  | ldRN (rd : Reg8) (n : Byte)
  /-- `LD (HL),n` (R134). -/
  | ldHlN (n : Byte)
  /-- `RLCA` (R210). -/
  | rlca
  /-- `LD (nn),SP` (R161). -/
  | ldNnSp (nn : Word)
  /-- `ADD HL,rr` (R200). -/
  | addHlRr (p : Reg16)
  /-- `LD A,(BC)` (R135). -/
  | ldABc
  /-- `LD A,(DE)` (R136). -/
  | ldADe
  /-- `LD A,(HL+)` (R146). -/
  | ldAHlInc
  /-- `LD A,(HL-)` (R148). -/
  | ldAHlDec
  /-- `DEC rr` (R202). -/
  | decRr (p : Reg16)
  /-- `RRCA` (R212). -/
  | rrca
  /-- `STOP`, with its second byte, any value (R262). -/
  | stop (pad : Byte)
  /-- `RLA` (R211). -/
  | rla
  /-- `JR e` (R243). -/
  | jrE (e : Byte)
  /-- `RRA` (R213). -/
  | rra
  /-- `JR cc,e` (R244). -/
  | jrCcE (cc : Cond) (e : Byte)
  /-- `DAA` (R181). -/
  | daa
  /-- `CPL` (R182). -/
  | cpl
  /-- `SCF` (R183). -/
  | scf
  /-- `CCF` (R184). -/
  | ccf
  /-- `LD r,r'` (R130). -/
  | ldRR (rd rs : Reg8)
  /-- `LD r,(HL)` (R132). -/
  | ldRHl (rd : Reg8)
  /-- `LD (HL),r` (R133). -/
  | ldHlR (rs : Reg8)
  /-- `HALT` (R261). -/
  | halt
  /-- `ADD A,r` (R171). -/
  | addAR (rs : Reg8)
  /-- `ADD A,(HL)` (R171). -/
  | addAHl
  /-- `ADD A,n` (R171). -/
  | addAN (n : Byte)
  /-- `ADC A,r` (R172). -/
  | adcAR (rs : Reg8)
  /-- `ADC A,(HL)` (R172). -/
  | adcAHl
  /-- `ADC A,n` (R172). -/
  | adcAN (n : Byte)
  /-- `SUB r` (R173). -/
  | subR (rs : Reg8)
  /-- `SUB (HL)` (R173). -/
  | subHl
  /-- `SUB n` (R173). -/
  | subN (n : Byte)
  /-- `SBC A,r` (R174). -/
  | sbcAR (rs : Reg8)
  /-- `SBC A,(HL)` (R174). -/
  | sbcAHl
  /-- `SBC A,n` (R174). -/
  | sbcAN (n : Byte)
  /-- `AND r` (R175). -/
  | andR (rs : Reg8)
  /-- `AND (HL)` (R175). -/
  | andHl
  /-- `AND n` (R175). -/
  | andN (n : Byte)
  /-- `XOR r` (R176). -/
  | xorR (rs : Reg8)
  /-- `XOR (HL)` (R176). -/
  | xorHl
  /-- `XOR n` (R176). -/
  | xorN (n : Byte)
  /-- `OR r` (R177). -/
  | orR (rs : Reg8)
  /-- `OR (HL)` (R177). -/
  | orHl
  /-- `OR n` (R177). -/
  | orN (n : Byte)
  /-- `CP r` (R178). -/
  | cpR (rs : Reg8)
  /-- `CP (HL)` (R178). -/
  | cpHl
  /-- `CP n` (R178). -/
  | cpN (n : Byte)
  /-- `RET cc` (R248). -/
  | retCc (cc : Cond)
  /-- `POP rr`, `AF` apart (R165). -/
  | popRr (p : StackPair)
  /-- `POP AF` (R166). -/
  | popAf
  /-- `JP cc,nn` (R241). -/
  | jpCcNn (cc : Cond) (nn : Word)
  /-- `JP nn` (R240). -/
  | jpNn (nn : Word)
  /-- `CALL cc,nn` (R246). -/
  | callCcNn (cc : Cond) (nn : Word)
  /-- `PUSH rr` (R164). -/
  | pushRr (p : StackPair)
  /-- `RST t`, target `8 * t` (R252). -/
  | rstT (t : BitVec 3)
  /-- `RET` (R247). -/
  | ret
  /-- `PREFIX CB` on its own: the extended-prefix code, the second byte still to be fetched (R265). -/
  | prefixCb
  /-- `CALL nn` (R245). -/
  | callNn (nn : Word)
  /-- `RETI` (R249). -/
  | reti
  /-- `LDH (n),A` (R142). -/
  | ldhNA (n : Byte)
  /-- `LDH (C),A` (R144). -/
  | ldhCA
  /-- `ADD SP,e` (R203). -/
  | addSpE (e : Byte)
  /-- `JP HL` (R242). -/
  | jpHl
  /-- `LD (nn),A` (R140). -/
  | ldNnA (nn : Word)
  /-- `LDH A,(n)` (R141). -/
  | ldhAN (n : Byte)
  /-- `LDH A,(C)` (R143). -/
  | ldhAC
  /-- `DI` (R263). -/
  | di
  /-- `LD HL,SP+e` (R163). -/
  | ldHlSpE (e : Byte)
  /-- `LD SP,HL` (R162). -/
  | ldSpHl
  /-- `LD A,(nn)` (R139). -/
  | ldANn (nn : Word)
  /-- `EI` (R264). -/
  | ei
  /-- invalid code `D3` (R267). -/
  | invalidD3
  /-- invalid code `DB` (R267). -/
  | invalidDB
  /-- invalid code `DD` (R267). -/
  | invalidDD
  /-- invalid code `E3` (R267). -/
  | invalidE3
  /-- invalid code `E4` (R267). -/
  | invalidE4
  /-- invalid code `EB` (R267). -/
  | invalidEB
  /-- invalid code `EC` (R267). -/
  | invalidEC
  /-- invalid code `ED` (R267). -/
  | invalidED
  /-- invalid code `F4` (R267). -/
  | invalidF4
  /-- invalid code `FC` (R267). -/
  | invalidFC
  /-- invalid code `FD` (R267). -/
  | invalidFD
  /-- `RLC r` (R214). -/
  | rlcR (rs : Reg8)
  /-- `RLC (HL)` (R214). -/
  | rlcHl
  /-- `RRC r` (R215). -/
  | rrcR (rs : Reg8)
  /-- `RRC (HL)` (R215). -/
  | rrcHl
  /-- `RL r` (R216). -/
  | rlR (rs : Reg8)
  /-- `RL (HL)` (R216). -/
  | rlHl
  /-- `RR r` (R217). -/
  | rrR (rs : Reg8)
  /-- `RR (HL)` (R217). -/
  | rrHl
  /-- `SLA r` (R218). -/
  | slaR (rs : Reg8)
  /-- `SLA (HL)` (R218). -/
  | slaHl
  /-- `SRA r` (R219). -/
  | sraR (rs : Reg8)
  /-- `SRA (HL)` (R219). -/
  | sraHl
  /-- `SWAP r` (R220). -/
  | swapR (rs : Reg8)
  /-- `SWAP (HL)` (R220). -/
  | swapHl
  /-- `SRL r` (R221). -/
  | srlR (rs : Reg8)
  /-- `SRL (HL)` (R221). -/
  | srlHl
  /-- `BIT b,r` (R222). -/
  | bitBR (b : BitVec 3) (rs : Reg8)
  /-- `BIT b,(HL)` (R222). -/
  | bitBHl (b : BitVec 3)
  /-- `RES b,r` (R223). -/
  | resBR (b : BitVec 3) (rs : Reg8)
  /-- `RES b,(HL)` (R223). -/
  | resBHl (b : BitVec 3)
  /-- `SET b,r` (R224). -/
  | setBR (b : BitVec 3) (rs : Reg8)
  /-- `SET b,(HL)` (R224). -/
  | setBHl (b : BitVec 3)
  deriving DecidableEq, Repr

end Sys2Proof
end

