-- ==== Sys2Proof/WellFormed.lean ====
section
/-! DEFINITION. The well-formed instructions: the operand types leave one term with no encoding of its own. -/

namespace Sys2Proof

/-- The one check the operand types do not make: `POP rr` excludes the pair `AF` (R165: "p ≠ 3"), whose pop is the row
`POP AF` (R166). -/
def Instr.wf : Instr → Bool
  | .popRr p => p != .af
  | _ => true

end Sys2Proof
end

