-- ==== Sys2Proof/Decode.lean ====
section
/-! DEFINITION. Decoding of bytes to instructions (R100 to R116), the encoder written from the same table, and the reading
of the host's table words. -/

namespace Sys2Proof

/-! ## Byte order and fields -/

/-- A 16-bit value from its high and its low byte (R8, R74). -/
def wordOf (hi lo : Byte) : Word := hi ++ lo

/-- Bits 7..0 of a 16-bit value. -/
def loByte (w : Word) : Byte := w.extractLsb' 0 8

/-- Bits 15..8 of a 16-bit value. -/
def hiByte (w : Word) : Byte := w.extractLsb' 8 8

/-- `x = op[7:6]` (R102). -/
def fieldX (op : Byte) : Nat := (op.extractLsb' 6 2).toNat
/-- `y = op[5:3]` (R102). -/
def fieldY (op : Byte) : Nat := (op.extractLsb' 3 3).toNat
/-- `z = op[2:0]` (R102). -/
def fieldZ (op : Byte) : Nat := (op.extractLsb' 0 3).toNat
/-- `p = op[5:4]` (R102). -/
def fieldP (op : Byte) : Nat := (op.extractLsb' 4 2).toNat
/-- `q = op[3]` (R102). -/
def fieldQ (op : Byte) : Nat := (op.extractLsb' 3 1).toNat

/-- The register an 8-bit operand field names, none for 6, the byte at `HL` (R104). -/
def reg8Of (f : Nat) : Option Reg8 :=
  match f with
  | 0 => some .b
  | 1 => some .c
  | 2 => some .d
  | 3 => some .e
  | 4 => some .h
  | 5 => some .l
  | 6 => none
  | _ => some .a

/-- The pair a 16-bit operand field names (R105). -/
def reg16Of (f : Nat) : Reg16 :=
  match f with
  | 0 => .bc
  | 1 => .de
  | 2 => .hl
  | _ => .sp

/-- The pair the field of `PUSH` and `POP` names (R105). -/
def stackPairOf (f : Nat) : StackPair :=
  match f with
  | 0 => .bc
  | 1 => .de
  | 2 => .hl
  | _ => .af

/-- The condition a condition field names (R106). -/
def condOf (f : Nat) : Cond :=
  match f with
  | 0 => .nz
  | 1 => .z
  | 2 => .nc
  | _ => .c

/-- A 3-bit field as the bit index or restart number it stands for (R110). -/
def bits3Of (f : Nat) : BitVec 3 := BitVec.ofNat 3 f

/-! ## The primary table (R111, R112) -/

/-- The ALU operation numbered `y` on `A` and the operand `z` (R110, R112 for `x = 2`). -/
def decodeAlu (y z : Nat) : Instr :=
  match y, reg8Of z with
  | 0, some r => .addAR r
  | 0, none => .addAHl
  | 1, some r => .adcAR r
  | 1, none => .adcAHl
  | 2, some r => .subR r
  | 2, none => .subHl
  | 3, some r => .sbcAR r
  | 3, none => .sbcAHl
  | 4, some r => .andR r
  | 4, none => .andHl
  | 5, some r => .xorR r
  | 5, none => .xorHl
  | 6, some r => .orR r
  | 6, none => .orHl
  | _, some r => .cpR r
  | _, none => .cpHl

/-- The ALU operation numbered `y` on `A` and an immediate (R112 for `x = 3`, `z = 6`). -/
def decodeAluImm (y : Nat) (n : Byte) : Instr :=
  match y with
  | 0 => .addAN n
  | 1 => .adcAN n
  | 2 => .subN n
  | 3 => .sbcAN n
  | 4 => .andN n
  | 5 => .xorN n
  | 6 => .orN n
  | _ => .cpN n

/-- The block `x = 0` of the primary table (R112); `n` and `nn` are the bytes after the opcode. -/
def decodeX0 (y z p q : Nat) (n : Byte) (nn : Word) : Instr :=
  match z with
  | 0 =>
    match y with
    | 0 => .nop
    | 1 => .ldNnSp nn
    | 2 => .stop n
    | 3 => .jrE n
    | y' => .jrCcE (condOf (y' - 4)) n
  | 1 => if q = 0 then .ldRrNn (reg16Of p) nn else .addHlRr (reg16Of p)
  | 2 =>
    match q, p with
    | 0, 0 => .ldBcA
    | 0, 1 => .ldDeA
    | 0, 2 => .ldHlIncA
    | 0, _ => .ldHlDecA
    | _, 0 => .ldABc
    | _, 1 => .ldADe
    | _, 2 => .ldAHlInc
    | _, _ => .ldAHlDec
  | 3 => if q = 0 then .incRr (reg16Of p) else .decRr (reg16Of p)
  | 4 =>
    match reg8Of y with
    | some r => .incR r
    | none => .incHl
  | 5 =>
    match reg8Of y with
    | some r => .decR r
    | none => .decHl
  | 6 =>
    match reg8Of y with
    | some r => .ldRN r n
    | none => .ldHlN n
  | _ =>
    match y with
    | 0 => .rlca
    | 1 => .rrca
    | 2 => .rla
    | 3 => .rra
    | 4 => .daa
    | 5 => .cpl
    | 6 => .scf
    | _ => .ccf

/-- The block `x = 1`: the register loads, with `HALT` in the place of `LD (HL),(HL)` (R112). -/
def decodeX1 (y z : Nat) : Instr :=
  match reg8Of y, reg8Of z with
  | some rd, some rs => .ldRR rd rs
  | some rd, none => .ldRHl rd
  | none, some r => .ldHlR r
  | none, none => .halt

/-- The block `x = 3` (R112). Its entry `z = 3`, `y = 1` is the prefix, which the fetch step never dispatches while
`PREFIX_CODE` is that code (R101). -/
def decodeX3 (y z p q : Nat) (n : Byte) (nn : Word) : Instr :=
  match z with
  | 0 =>
    match y with
    | 4 => .ldhNA n
    | 5 => .addSpE n
    | 6 => .ldhAN n
    | 7 => .ldHlSpE n
    | y' => .retCc (condOf y')
  | 1 =>
    match q, p with
    | 0, 3 => .popAf
    | 0, p' => .popRr (stackPairOf p')
    | _, 0 => .ret
    | _, 1 => .reti
    | _, 2 => .jpHl
    | _, _ => .ldSpHl
  | 2 =>
    match y with
    | 4 => .ldhCA
    | 5 => .ldNnA nn
    | 6 => .ldhAC
    | 7 => .ldANn nn
    | y' => .jpCcNn (condOf y') nn
  | 3 =>
    match y with
    | 0 => .jpNn nn
    | 1 => .prefixCb
    | 2 => .invalidD3
    | 3 => .invalidDB
    | 4 => .invalidE3
    | 5 => .invalidEB
    | 6 => .di
    | _ => .ei
  | 4 =>
    match y with
    | 4 => .invalidE4
    | 5 => .invalidEC
    | 6 => .invalidF4
    | 7 => .invalidFC
    | y' => .callCcNn (condOf y') nn
  | 5 =>
    match q, p with
    | 0, p' => .pushRr (stackPairOf p')
    | _, 0 => .callNn nn
    | _, 1 => .invalidDD
    | _, 2 => .invalidED
    | _, _ => .invalidFD
  | 6 => decodeAluImm y n
  | _ => .rstT (bits3Of y)

/-- The primary entry of an opcode byte, with the two bytes that follow it (R112): `n` is the first of them, `nn` has the
first as its low byte (R107, R108). -/
def decodePrimary (op b1 b2 : Byte) : Instr :=
  match fieldX op with
  | 0 => decodeX0 (fieldY op) (fieldZ op) (fieldP op) (fieldQ op) b1 (wordOf b2 b1)
  | 1 => decodeX1 (fieldY op) (fieldZ op)
  | 2 => decodeAlu (fieldY op) (fieldZ op)
  | _ => decodeX3 (fieldY op) (fieldZ op) (fieldP op) (fieldQ op) b1 (wordOf b2 b1)

/-! ## The extended table (R113) -/

/-- The rotate or shift operation numbered `y` on the operand `z` (R110, R113 for `x = 0`). -/
def decodeShift (y z : Nat) : Instr :=
  match y, reg8Of z with
  | 0, some r => .rlcR r
  | 0, none => .rlcHl
  | 1, some r => .rrcR r
  | 1, none => .rrcHl
  | 2, some r => .rlR r
  | 2, none => .rlHl
  | 3, some r => .rrR r
  | 3, none => .rrHl
  | 4, some r => .slaR r
  | 4, none => .slaHl
  | 5, some r => .sraR r
  | 5, none => .sraHl
  | 6, some r => .swapR r
  | 6, none => .swapHl
  | _, some r => .srlR r
  | _, none => .srlHl

/-- The extended entry of a second opcode byte (R113). -/
def decodeExtended (op2 : Byte) : Instr :=
  let b := bits3Of (fieldY op2)
  match fieldX op2, reg8Of (fieldZ op2) with
  | 0, _ => decodeShift (fieldY op2) (fieldZ op2)
  | 1, some r => .bitBR b r
  | 1, none => .bitBHl b
  | 2, some r => .resBR b r
  | 2, none => .resBHl b
  | _, some r => .setBR b r
  | _, none => .setBHl b

/-! ## Lengths (R100, R103) and the decoder -/

/-- The default of `PREFIX_CODE` (R6, R101): the code of the opcode table's row `PREFIX CB`. -/
def defaultPrefixCode : Byte := 0xCB

/-- How many bytes after its opcode byte or bytes an instruction reads for itself (R100, R107 to R109). -/
def Instr.operandBytes : Instr → Nat
  | .ldRN _ _ | .ldHlN _ | .stop _ | .jrE _ | .jrCcE _ _ | .addAN _ | .adcAN _ | .subN _ | .sbcAN _ | .andN _
  | .xorN _ | .orN _ | .cpN _ | .ldhNA _ | .ldhAN _ | .addSpE _ | .ldHlSpE _ => 1
  | .ldRrNn _ _ | .ldNnSp _ | .jpCcNn _ _ | .jpNn _ | .callCcNn _ _ | .callNn _ | .ldNnA _ | .ldANn _ => 2
  | _ => 0

/-- Why a list of bytes does not decode: every byte has an entry (R115), so only too few of them can be the reason. -/
inductive DecodeError where
  /-- There is no opcode byte. -/
  | noBytes
  /-- The list ends inside the instruction's operand bytes. -/
  | truncated
  deriving DecidableEq, Repr

/-- The instruction at the front of a list of bytes, and the bytes after it, where `pre` is `PREFIX_CODE`. The prefix byte
followed by a byte is the extended entry of that byte (R101); followed by nothing it is the table's row `PREFIX CB` where it
is that row's code. -/
def decodeWith (pre : Byte) (bs : List Byte) : Except DecodeError (Instr × List Byte) :=
  match bs with
  | [] => .error .noBytes
  | op :: rest =>
    if op = pre then
      match rest with
      | [] => if op = defaultPrefixCode then .ok (.prefixCb, []) else .error .truncated
      | op2 :: rest' => .ok (decodeExtended op2, rest')
    else
      match (decodePrimary op 0 0).operandBytes, rest with
      | 0, _ => .ok (decodePrimary op 0 0, rest)
      | 1, n :: rest' => .ok (decodePrimary op n 0, rest')
      | 2, lo :: hi :: rest' => .ok (decodePrimary op lo hi, rest')
      | _, _ => .error .truncated

/-- The decoder with `PREFIX_CODE` at its default, which is the opcode table's. -/
def decode (bs : List Byte) : Except DecodeError (Instr × List Byte) := decodeWith defaultPrefixCode bs

/-- The instruction the fetch step makes of an opcode byte and the two bytes after it, where `pre` is `PREFIX_CODE` (R101,
R305): no instruction is longer, so this never fails. -/
def decodeFetched (pre op b1 b2 : Byte) : Instr :=
  if op = pre then decodeExtended b1 else decodePrimary op b1 b2

/-! ## The encoder (the `encoding` column of the opcode table) -/

/-- The 3-bit code of a register (R104). -/
def Reg8.code : Reg8 → BitVec 3
  | .b => 0
  | .c => 1
  | .d => 2
  | .e => 3
  | .h => 4
  | .l => 5
  | .a => 7

/-- The 2-bit code of a pair (R105). -/
def Reg16.code : Reg16 → BitVec 2
  | .bc => 0
  | .de => 1
  | .hl => 2
  | .sp => 3

/-- The 2-bit code of a pair of `PUSH` and `POP` (R105). -/
def StackPair.code : StackPair → BitVec 2
  | .bc => 0
  | .de => 1
  | .hl => 2
  | .af => 3

/-- The 2-bit code of a condition (R106). -/
def Cond.code : Cond → BitVec 2
  | .nz => 0
  | .z => 1
  | .nc => 2
  | .c => 3

/-- The opcode byte of a primary instruction, or the second byte of an extended one, bit 7 first as the table's
`encoding` column has it. -/
def Instr.opcode : Instr → Byte
  | .nop => 0b00000000#8
  | .ldRrNn p _ => 0b00#2 ++ p.code ++ 0b0001#4
  | .ldBcA => 0b00000010#8
  | .ldDeA => 0b00010010#8
  | .ldHlIncA => 0b00100010#8
  | .ldHlDecA => 0b00110010#8
  | .incRr p => 0b00#2 ++ p.code ++ 0b0011#4
  | .incR rd => 0b00#2 ++ rd.code ++ 0b100#3
  | .incHl => 0b00110100#8
  | .decR rd => 0b00#2 ++ rd.code ++ 0b101#3
  | .decHl => 0b00110101#8
  | .ldRN rd _ => 0b00#2 ++ rd.code ++ 0b110#3
  | .ldHlN _ => 0b00110110#8
  | .rlca => 0b00000111#8
  | .ldNnSp _ => 0b00001000#8
  | .addHlRr p => 0b00#2 ++ p.code ++ 0b1001#4
  | .ldABc => 0b00001010#8
  | .ldADe => 0b00011010#8
  | .ldAHlInc => 0b00101010#8
  | .ldAHlDec => 0b00111010#8
  | .decRr p => 0b00#2 ++ p.code ++ 0b1011#4
  | .rrca => 0b00001111#8
  | .stop _ => 0b00010000#8
  | .rla => 0b00010111#8
  | .jrE _ => 0b00011000#8
  | .rra => 0b00011111#8
  | .jrCcE cc _ => 0b001#3 ++ cc.code ++ 0b000#3
  | .daa => 0b00100111#8
  | .cpl => 0b00101111#8
  | .scf => 0b00110111#8
  | .ccf => 0b00111111#8
  | .ldRR rd rs => 0b01#2 ++ rd.code ++ rs.code
  | .ldRHl rd => 0b01#2 ++ rd.code ++ 0b110#3
  | .ldHlR rs => 0b01110#5 ++ rs.code
  | .halt => 0b01110110#8
  | .addAR rs => 0b10000#5 ++ rs.code
  | .addAHl => 0b10000110#8
  | .addAN _ => 0b11000110#8
  | .adcAR rs => 0b10001#5 ++ rs.code
  | .adcAHl => 0b10001110#8
  | .adcAN _ => 0b11001110#8
  | .subR rs => 0b10010#5 ++ rs.code
  | .subHl => 0b10010110#8
  | .subN _ => 0b11010110#8
  | .sbcAR rs => 0b10011#5 ++ rs.code
  | .sbcAHl => 0b10011110#8
  | .sbcAN _ => 0b11011110#8
  | .andR rs => 0b10100#5 ++ rs.code
  | .andHl => 0b10100110#8
  | .andN _ => 0b11100110#8
  | .xorR rs => 0b10101#5 ++ rs.code
  | .xorHl => 0b10101110#8
  | .xorN _ => 0b11101110#8
  | .orR rs => 0b10110#5 ++ rs.code
  | .orHl => 0b10110110#8
  | .orN _ => 0b11110110#8
  | .cpR rs => 0b10111#5 ++ rs.code
  | .cpHl => 0b10111110#8
  | .cpN _ => 0b11111110#8
  | .retCc cc => 0b110#3 ++ cc.code ++ 0b000#3
  | .popRr p => 0b11#2 ++ p.code ++ 0b0001#4
  | .popAf => 0b11110001#8
  | .jpCcNn cc _ => 0b110#3 ++ cc.code ++ 0b010#3
  | .jpNn _ => 0b11000011#8
  | .callCcNn cc _ => 0b110#3 ++ cc.code ++ 0b100#3
  | .pushRr p => 0b11#2 ++ p.code ++ 0b0101#4
  | .rstT t => 0b11#2 ++ t ++ 0b111#3
  | .ret => 0b11001001#8
  | .prefixCb => 0b11001011#8
  | .callNn _ => 0b11001101#8
  | .reti => 0b11011001#8
  | .ldhNA _ => 0b11100000#8
  | .ldhCA => 0b11100010#8
  | .addSpE _ => 0b11101000#8
  | .jpHl => 0b11101001#8
  | .ldNnA _ => 0b11101010#8
  | .ldhAN _ => 0b11110000#8
  | .ldhAC => 0b11110010#8
  | .di => 0b11110011#8
  | .ldHlSpE _ => 0b11111000#8
  | .ldSpHl => 0b11111001#8
  | .ldANn _ => 0b11111010#8
  | .ei => 0b11111011#8
  | .invalidD3 => 0b11010011#8
  | .invalidDB => 0b11011011#8
  | .invalidDD => 0b11011101#8
  | .invalidE3 => 0b11100011#8
  | .invalidE4 => 0b11100100#8
  | .invalidEB => 0b11101011#8
  | .invalidEC => 0b11101100#8
  | .invalidED => 0b11101101#8
  | .invalidF4 => 0b11110100#8
  | .invalidFC => 0b11111100#8
  | .invalidFD => 0b11111101#8
  | .rlcR rs => 0b00000#5 ++ rs.code
  | .rlcHl => 0b00000110#8
  | .rrcR rs => 0b00001#5 ++ rs.code
  | .rrcHl => 0b00001110#8
  | .rlR rs => 0b00010#5 ++ rs.code
  | .rlHl => 0b00010110#8
  | .rrR rs => 0b00011#5 ++ rs.code
  | .rrHl => 0b00011110#8
  | .slaR rs => 0b00100#5 ++ rs.code
  | .slaHl => 0b00100110#8
  | .sraR rs => 0b00101#5 ++ rs.code
  | .sraHl => 0b00101110#8
  | .swapR rs => 0b00110#5 ++ rs.code
  | .swapHl => 0b00110110#8
  | .srlR rs => 0b00111#5 ++ rs.code
  | .srlHl => 0b00111110#8
  | .bitBR b rs => 0b01#2 ++ b ++ rs.code
  | .bitBHl b => 0b01#2 ++ b ++ 0b110#3
  | .resBR b rs => 0b10#2 ++ b ++ rs.code
  | .resBHl b => 0b10#2 ++ b ++ 0b110#3
  | .setBR b rs => 0b11#2 ++ b ++ rs.code
  | .setBHl b => 0b11#2 ++ b ++ 0b110#3

/-- Whether the instruction is an entry of the extended table (R113). -/
def Instr.isExtended : Instr → Bool
  | .rlcR _ | .rlcHl | .rrcR _ | .rrcHl | .rlR _ | .rlHl | .rrR _ | .rrHl
  | .slaR _ | .slaHl | .sraR _ | .sraHl | .swapR _ | .swapHl | .srlR _ | .srlHl
  | .bitBR _ _ | .bitBHl _ | .resBR _ _ | .resBHl _ | .setBR _ _ | .setBHl _ => true
  | _ => false

/-- The bytes an instruction reads for itself after its opcode, in the order they lie in memory (R100, R107 to R109). -/
def Instr.operands : Instr → List Byte
  | .ldRN _ n | .ldHlN n | .stop n | .jrE n | .jrCcE _ n | .addAN n | .adcAN n | .subN n | .sbcAN n | .andN n
  | .xorN n | .orN n | .cpN n | .ldhNA n | .ldhAN n | .addSpE n | .ldHlSpE n => [n]
  | .ldRrNn _ nn | .ldNnSp nn | .jpCcNn _ nn | .jpNn nn | .callCcNn _ nn | .callNn nn | .ldNnA nn | .ldANn nn =>
    [loByte nn, hiByte nn]
  | _ => []

/-- The bytes of an instruction where `pre` is `PREFIX_CODE`: the prefix byte first for an extended entry (R100, R101). -/
def encodeWith (pre : Byte) (i : Instr) : List Byte :=
  (if i.isExtended then [pre, i.opcode] else [i.opcode]) ++ i.operands

/-- The encoder with `PREFIX_CODE` at its default, which is the opcode table's. -/
def encode (i : Instr) : List Byte := encodeWith defaultPrefixCode i

/-! ## The host's table words -/

/-- Byte `k` of the bits `w`, bit 0 the least significant bit of the first byte, every bit above `nbits` being 0. -/
def tableByte (nbits w k : Nat) : Byte := BitVec.ofNat 8 (w % 2 ^ nbits / 256 ^ k)

/-- The instruction the decoder reads from a table word: its own bytes, and where these are too few, the operand bytes 0
after them. An extended entry's word has the prefix byte as its first byte. -/
def decodeTableWord (nbits w : Nat) : Option Instr :=
  match decode ((List.range (nbits / 8)).map (tableByte nbits w)) with
  | .ok (i, _) => some i
  | .error _ =>
    match decode [tableByte nbits w 0, tableByte nbits w 1, tableByte nbits w 2] with
    | .ok (i, _) => some i
    | .error _ => none

end Sys2Proof
end

