-- ==== Sys2Proof/Config.lean ====
section
/-! DEFINITION. The named parameters of the block (R6), as plain data the machine carries, the durations the source
fixes (R5), and the free values: constants with no body, so that nothing can evaluate them. -/

namespace Sys2Proof

/-- The four collaborators whose internals lie outside the block (R4, R366 to R368). -/
inductive DeviceId where
  | cart | timer | serial | joypad
  deriving DecidableEq, Repr

/-- The parameters of R6 that a step of the machine reads. Their defaults are `Machine.defaultParams`. -/
structure Params where
  /-- `TICKS_PRIMARY`, indexed by the opcode byte (R420). -/
  ticksPrimary : List Nat
  /-- `TICKS_EXTENDED`, indexed by the second opcode byte (R421). -/
  ticksExtended : List Nat
  /-- `TICKS_TAKEN_EXTRA`, indexed by the opcode byte of a conditional transfer (R6). -/
  ticksTakenExtra : List Nat
  /-- `INT_DISPATCH_TICKS` (R303). -/
  intDispatchTicks : Nat
  /-- `VECTOR(i)` for i in 0..4, in order (R302). -/
  vectors : List Word
  /-- `PREFIX_CODE` (R101). -/
  prefixCode : Byte
  /-- `INVALID_SET` (R114, R267). -/
  invalidSet : List Byte
  /-- `UNMAPPED_READ` (R70). -/
  unmappedRead : Byte
  /-- `IF_READ_HI` (R33). -/
  ifReadHi : BitVec 3
  /-- `IE_READ_HI` (R34). -/
  ieReadHi : BitVec 3
  deriving DecidableEq, Repr

/-- Ticks of mode 2 (R5, R340). -/
def Config.oamScanTicks : Nat := 80
/-- Ticks of mode 3 (R5, R340). -/
def Config.drawTicks : Nat := 172
/-- Ticks of mode 0 (R5, R340). -/
def Config.hblankTicks : Nat := 204
/-- Ticks of a line, and of each line of mode 1 (R5, R340). -/
def Config.lineTicks : Nat := 456
/-- Ticks of a frame (R5, R363). -/
def Config.frameTicks : Nat := 70224

/-- `INIT_MEM` (R405): what a byte of HRAM, work RAM, VRAM or OAM that nothing has written since reset reads as. Free. -/
opaque Config.initMem : Nat → Byte

/-- The shade a cell of `frame` holds before the renderer has written its row (R55, R405), by row and column. Free. -/
opaque Config.initFrame : Nat → Nat → BitVec 2

/-- The boot overlay's byte at an offset, where the launch names none (R369). Free. -/
opaque Config.bootImage : Nat → Byte

/-- The ROM-only cartridge's byte at an address, where the launch names none (R366). Free. -/
opaque Config.romImage : Nat → Byte

/-- What the renderer reads for an object row that lies outside video memory (R356 states no value). Free. -/
opaque Config.strayTileByte : Int → Byte

/-- `read(a)` of an attached collaborator in a device state (R366 to R368): pure and total, nothing more is known. Free. -/
opaque Config.deviceRead : DeviceId → Nat → Nat → Byte

/-- The device state after `write(a, v)` of an attached collaborator (R366 to R368). Free. -/
opaque Config.deviceWrite : DeviceId → Nat → Nat → Byte → Nat

/-- The timer's state after `Timer_step` (R367). Free. -/
opaque Config.timerNext : Nat → Nat

/-- Whether `Timer_step` requests interrupt 2, from the timer's own state (R362, R367). Free. -/
opaque Config.timerRequests : Nat → Bool

end Sys2Proof
end

