-- ==== Sys2Proof/Machine/Defaults.lean ====
section
/-! DEFINITION. The spec's default values of the parameters of R6. -/

namespace Sys2Proof.Machine

/-- `TICKS_PRIMARY`, rows 0x to 3x of R420 (the entry of a conditional transfer is its cost when not taken). -/
def ticksPrimary0 : List Nat :=
  [ 4, 12,  8,  8,  4,  4,  8,  4, 20,  8,  8,  8,  4,  4,  8,  4] ++
  [ 4, 12,  8,  8,  4,  4,  8,  4, 12,  8,  8,  8,  4,  4,  8,  4] ++
  [ 8, 12,  8,  8,  4,  4,  8,  4,  8,  8,  8,  8,  4,  4,  8,  4] ++
  [ 8, 12,  8,  8, 12, 12, 12,  4,  8,  8,  8,  8,  4,  4,  8,  4]

/-- `TICKS_PRIMARY`, rows 4x to 7x of R420. -/
def ticksPrimary4 : List Nat :=
  [ 4,  4,  4,  4,  4,  4,  8,  4,  4,  4,  4,  4,  4,  4,  8,  4] ++
  [ 4,  4,  4,  4,  4,  4,  8,  4,  4,  4,  4,  4,  4,  4,  8,  4] ++
  [ 4,  4,  4,  4,  4,  4,  8,  4,  4,  4,  4,  4,  4,  4,  8,  4] ++
  [ 8,  8,  8,  8,  8,  8,  4,  8,  4,  4,  4,  4,  4,  4,  8,  4]

/-- `TICKS_PRIMARY`, each of the rows 8x to Bx of R420. -/
def ticksPrimary8 : List Nat := [4, 4, 4, 4, 4, 4, 8, 4, 4, 4, 4, 4, 4, 4, 8, 4]

/-- `TICKS_PRIMARY`, rows Cx to Fx of R420; 0 marks the invalid entries and the prefix. -/
def ticksPrimaryC : List Nat :=
  [ 8, 12, 12, 16, 12, 16,  8, 16,  8, 16, 12,  0, 12, 24,  8, 16] ++
  [ 8, 12, 12,  0, 12, 16,  8, 16,  8, 16, 12,  0, 12,  0,  8, 16] ++
  [12, 12,  8,  0,  0, 16,  8, 16, 16,  4, 16,  0,  0,  0,  8, 16] ++
  [12, 12,  8,  4,  0, 16,  8, 16, 12,  8, 16,  4,  0,  0,  8, 16]

/-- The default of `TICKS_PRIMARY` (R420). -/
def defaultTicksPrimary : List Nat :=
  ticksPrimary0 ++ ticksPrimary4 ++
  (ticksPrimary8 ++ ticksPrimary8 ++ ticksPrimary8 ++ ticksPrimary8) ++ ticksPrimaryC

/-- The default of `TICKS_EXTENDED` (R421): 8 for a register, 16 for `(HL)`, 12 for `BIT b,(HL)`. -/
def defaultTicksExtended : List Nat :=
  (List.range 256).map fun op =>
    if op % 8 = 6 then (if 0x40 ≤ op ∧ op < 0x80 then 12 else 16) else 8

/-- The default of `TICKS_TAKEN_EXTRA` (R6): 4 for `JR cc` and `JP cc`, 12 for `CALL cc` and `RET cc`, by opcode byte. -/
def defaultTicksTakenExtra : List Nat :=
  (List.range 256).map fun op =>
    if op = 0x20 ∨ op = 0x28 ∨ op = 0x30 ∨ op = 0x38 then 4
    else if op = 0xC2 ∨ op = 0xCA ∨ op = 0xD2 ∨ op = 0xDA then 4
    else if op = 0xC4 ∨ op = 0xCC ∨ op = 0xD4 ∨ op = 0xDC then 12
    else if op = 0xC0 ∨ op = 0xC8 ∨ op = 0xD0 ∨ op = 0xD8 then 12
    else 0

/-- The default of `INVALID_SET` (R6, R114, R267). -/
def defaultInvalidSet : List Byte := [0xD3, 0xDB, 0xDD, 0xE3, 0xE4, 0xEB, 0xEC, 0xED, 0xF4, 0xFC, 0xFD]

/-- The parameters at the spec's defaults (R6, R101, R114, R302, R420, R421). -/
def defaultParams : Params where
  ticksPrimary := defaultTicksPrimary
  ticksExtended := defaultTicksExtended
  ticksTakenExtra := defaultTicksTakenExtra
  intDispatchTicks := 20
  vectors := [0x0040, 0x0048, 0x0050, 0x0058, 0x0060]
  prefixCode := defaultPrefixCode
  invalidSet := defaultInvalidSet
  unmappedRead := 0xFF
  ifReadHi := 0b111
  ieReadHi := 0b000

end Sys2Proof.Machine
end

