-- ==== Sys2Proof/Machine/State.lean ====
section
/-! DEFINITION. The state of the block (10_state.md) as plain data, the reasons a step can stop, and the state at launch
(R55, R400). Everything a bus access can read or change stands in `Bus`, so that the type of a bus operation already says
it touches no CPU register. -/

namespace Sys2Proof.Machine

/-- Written bytes by bus address, in strictly rising order of address; an address not listed holds no written byte. -/
abbrev Memory := List Host.Cell

/-- The four flags, `F[7]` to `F[4]`; `F[3:0]` is always zero and is not stored (R21, R25). -/
structure Flags where
  z : Bool
  n : Bool
  h : Bool
  c : Bool
  deriving DecidableEq, Repr

/-- The register file (R20 to R24). -/
structure Regs where
  a : Byte
  flags : Flags
  b : Byte
  c : Byte
  d : Byte
  e : Byte
  h : Byte
  l : Byte
  sp : Word
  pc : Word
  deriving DecidableEq, Repr

/-- The state of the display engine's four-state machine (R44). -/
inductive Mode where
  | hblank | vblank | oamScan | draw
  deriving DecidableEq, Repr

/-- The display registers and the display engine's hidden state (R35 to R48); `VRAM` and `OAM` are in `Bus.mem`. -/
structure Ppu where
  /-- R36. -/
  lcdc : Byte
  /-- `STAT[6:3]`, bit 0 of this field being `STAT[3]` (R37). -/
  statSelect : BitVec 4
  /-- `STAT[2]` (R37, R347). -/
  lycEqual : Bool
  /-- R44. -/
  mode : Mode
  /-- R44. -/
  modeTicks : Nat
  scy : Byte
  scx : Byte
  ly : Byte
  lyc : Byte
  dma : Byte
  bgp : Byte
  obp0 : Byte
  obp1 : Byte
  wy : Byte
  wx : Byte
  /-- R47. -/
  lineObjs : List Nat
  /-- The rows the renderer has written, by line in strictly rising order, each of 160 shades (R48). -/
  frame : List (Nat × List (BitVec 2))
  deriving DecidableEq, Repr

/-- A collaborator: the null device of R367 and R368, or an attached one in a state of its own, whose behaviour is free. -/
inductive Device where
  | null
  | attached (st : Nat)
  deriving DecidableEq, Repr

/-- The cartridge: the ROM-only one with its image, or one with a bank controller in a state of its own (R366). -/
inductive Cart where
  | romOnly (rom : Memory)
  | banked (st : Nat)
  deriving DecidableEq, Repr

/-- Everything a bus access reads or changes. -/
structure Bus where
  /-- The written bytes of VRAM, work RAM, OAM and HRAM, at their bus addresses (R32, R45, R46, R51). -/
  mem : Memory
  /-- `IF[4:0]` (R33). -/
  ifReg : BitVec 5
  /-- `IE[4:0]` (R34). -/
  ieReg : BitVec 5
  ppu : Ppu
  /-- R50. -/
  bootMapped : Bool
  /-- The boot overlay's image (R369). -/
  boot : Memory
  cart : Cart
  timer : Device
  serial : Device
  joypad : Device
  deriving DecidableEq, Repr

/-- The state of the block. -/
structure State where
  regs : Regs
  /-- R27. -/
  ticksRemaining : Nat
  /-- R28. -/
  ime : Bool
  /-- R29. -/
  imePending : Bool
  /-- R30. -/
  halted : Bool
  /-- R31. -/
  haltBug : Bool
  bus : Bus
  /-- R49. -/
  frameTick : Nat
  /-- `ext_irq(T)` of this tick and the ticks after it, 0 where the list ends (R362). -/
  extIrq : List (BitVec 5)
  /-- The parameters of R6; no step changes them. -/
  params : Params
  deriving DecidableEq, Repr

/-- The reasons a step ends in a fault: NONE. "No recoverable errors exist in the steady-state tick loop by design: every
address and every opcode (including hardware-undefined ones) has a defined effect." (R320) -/
inductive Fault where
  deriving DecidableEq, Repr

/-- The reasons a step is refused. -/
inductive Refusal where
  /-- An instruction this model gives no meaning (R115, R266: a refusal, never the invalid no-op). Raised by `exec`'s
  refused arms, of which there are none. Safe: it claims nothing about the instruction. -/
  | notModelled (mnemonic : String)
  deriving DecidableEq, Repr

/-- `RESET_PROFILE` (R6, R55). -/
inductive ResetProfile where
  | powerOn | postBoot
  deriving DecidableEq, Repr

/-- The register file at reset (R55). -/
def resetRegs : ResetProfile → Regs
  | .powerOn =>
    { a := 0x00, flags := ⟨false, false, false, false⟩, b := 0x00, c := 0x00, d := 0x00, e := 0x00, h := 0x00, l := 0x00
      sp := 0x0000, pc := 0x0000 }
  | .postBoot =>
    { a := 0x01, flags := ⟨true, false, true, true⟩, b := 0x00, c := 0x13, d := 0x00, e := 0xD8, h := 0x01, l := 0x4D
      sp := 0xFFFE, pc := 0x0100 }

/-- The display engine at reset (R55, R403). -/
def resetPpu : ResetProfile → Ppu
  | .powerOn =>
    { lcdc := 0x00, statSelect := 0, lycEqual := true, mode := .hblank, modeTicks := 0, scy := 0, scx := 0, ly := 0
      lyc := 0, dma := 0x00, bgp := 0x00, obp0 := 0x00, obp1 := 0x00, wy := 0, wx := 0, lineObjs := [], frame := [] }
  | .postBoot =>
    { lcdc := 0x91, statSelect := 0, lycEqual := true, mode := .oamScan, modeTicks := 0, scy := 0, scx := 0, ly := 0
      lyc := 0, dma := 0xFF, bgp := 0xFC, obp0 := 0xFF, obp1 := 0xFF, wy := 0, wx := 0, lineObjs := [], frame := [] }

/-- `IF` at reset (R55, R402). -/
def resetIf : ResetProfile → BitVec 5
  | .powerOn => 0b00000
  | .postBoot => 0b00001

/-- The state at launch (R400): the profile's register values, the parameters, the memory contents, the images, the
collaborators and the request inputs as the launch gives them. -/
def State.launch (profile : ResetProfile) (params : Params) (mem boot : Memory) (cart : Cart)
    (timer serial joypad : Device) (extIrq : List (BitVec 5)) : State where
  regs := resetRegs profile
  ticksRemaining := 0
  ime := false
  imePending := false
  halted := false
  haltBug := false
  bus :=
    { mem := mem, ifReg := resetIf profile, ieReg := 0b00000, ppu := resetPpu profile
      bootMapped := profile == .powerOn, boot := boot, cart := cart, timer := timer, serial := serial, joypad := joypad }
  frameTick := 0
  extIrq := extIrq
  params := params

/-- The machine right after reset: profile `power_on`, every parameter and collaborator at its default (R6), no byte of
memory written, no image byte named, no request from outside. -/
def State.reset : State :=
  State.launch .powerOn defaultParams [] [] (.romOnly []) .null .null .null []

end Sys2Proof.Machine
end

