-- ==== Sys2Proof/Machine/Mem.lean ====
section
/-! DEFINITION. Plain storage: the written bytes of a memory or an image, in one canonical form. -/

namespace Sys2Proof.Machine

/-- The byte written at an address, if one is. -/
def readCell : Memory → Nat → Option Byte
  | [], _ => none
  | (k, v) :: m, a => if a = k then some v else readCell m a

/-- The memory with byte `v` written at `a`, its addresses kept in rising order. -/
def writeCell : Memory → Nat → Byte → Memory
  | [], a, v => [(a, v)]
  | (k, w) :: m, a, v =>
    if a < k then (a, v) :: (k, w) :: m
    else if a = k then (a, v) :: m
    else (k, w) :: writeCell m a v

/-- The addresses rise strictly, from `lo` on. -/
def risingFrom : Nat → Memory → Bool
  | _, [] => true
  | lo, (k, _) :: m => decide (lo ≤ k) && risingFrom (k + 1) m

/-- The canonical form: addresses strictly rising and inside the 16-bit space. An unlisted address holds no written byte,
which no entry can say, so no entry repeats what its absence means. -/
def Memory.wf (m : Memory) : Bool :=
  risingFrom 0 m && m.all fun cell => decide (cell.1 < 65536)

/-- What a byte of HRAM, work RAM, VRAM or OAM reads as: the last byte written there, or its initial content (R32, R45, R46,
R51, R405). The one definition of what an unlisted address reads as. -/
def storedByte (m : Memory) (a : Nat) : Byte := (readCell m a).getD (Config.initMem a)

/-- A byte of the boot overlay (R369). -/
def bootByte (m : Memory) (a : Nat) : Byte := (readCell m a).getD (Config.bootImage a)

/-- A byte of the ROM-only cartridge's image (R366). -/
def romByte (m : Memory) (a : Nat) : Byte := (readCell m a).getD (Config.romImage a)

end Sys2Proof.Machine
end

