-- ==== Sys2Proof/Machine/Bus.lean ====
section
/-! DEFINITION. The address-bus dispatcher (20_memory.md): the map, the read and the write of one byte, the gates of video
memory, the display registers as the bus sees them, and the DMA copy. -/

namespace Sys2Proof.Machine

/-! ## The map (R62) -/

/-- The owners of the address ranges of R62. -/
inductive Owner where
  /-- 0000–00FF, the boot overlay or the cartridge. -/
  | overlay
  /-- 0100–7FFF and A000–BFFF. -/
  | cart
  /-- 8000–9FFF. -/
  | vram
  /-- C000–DFFF. -/
  | wram
  /-- FE00–FE9F. -/
  | oam
  /-- FF00. -/
  | joypad
  /-- FF01–FF02. -/
  | serial
  /-- FF04–FF07. -/
  | timer
  /-- FF0F. -/
  | ifReg
  /-- FF40–FF4B. -/
  | display
  /-- FF50. -/
  | bootUnmap
  /-- FF80–FFFE. -/
  | hram
  /-- FFFF. -/
  | ieReg
  /-- In no row of the map (R70). -/
  | unmapped
  deriving DecidableEq, Repr

/-- The owner of an address of the page FF00 to FFFF. -/
def ownerOfHighPage (a : Nat) : Owner :=
  if a = 0xFF00 then .joypad
  else if a = 0xFF01 ∨ a = 0xFF02 then .serial
  else if 0xFF04 ≤ a ∧ a ≤ 0xFF07 then .timer
  else if a = 0xFF0F then .ifReg
  else if 0xFF40 ≤ a ∧ a ≤ 0xFF4B then .display
  else if a = 0xFF50 then .bootUnmap
  else if 0xFF80 ≤ a ∧ a ≤ 0xFFFE then .hram
  else if a = 0xFFFF then .ieReg
  else .unmapped

/-- The owner of an address (R62). -/
def ownerOf (a : Nat) : Owner :=
  if a < 0x0100 then .overlay
  else if a < 0x8000 then .cart
  else if a < 0xA000 then .vram
  else if a < 0xC000 then .cart
  else if a < 0xE000 then .wram
  else if a < 0xFE00 then .unmapped
  else if a < 0xFEA0 then .oam
  else if a < 0xFF00 then .unmapped
  else ownerOfHighPage a

/-! ## Display registers (R35 to R43) -/

/-- `LCDC[7]`, display enable (R36). -/
def Ppu.enabled (p : Ppu) : Bool := p.lcdc.getLsbD 7

/-- `STAT[1:0]` of a mode (R37, R44). -/
def Mode.bits : Mode → BitVec 2
  | .hblank => 0
  | .vblank => 1
  | .oamScan => 2
  | .draw => 3

/-- A bus read of `STAT` (R37): `{1, STAT[6:3], lyc_equal, mode}`. -/
def Ppu.stat (p : Ppu) : Byte := 1#1 ++ p.statSelect ++ BitVec.ofBool p.lycEqual ++ p.mode.bits

/-- A bus read of the display register at an address of FF40 to FF4B (R35, R69). -/
def Ppu.readReg (p : Ppu) (a : Nat) : Byte :=
  if a = 0xFF40 then p.lcdc
  else if a = 0xFF41 then p.stat
  else if a = 0xFF42 then p.scy
  else if a = 0xFF43 then p.scx
  else if a = 0xFF44 then p.ly
  else if a = 0xFF45 then p.lyc
  else if a = 0xFF46 then p.dma
  else if a = 0xFF47 then p.bgp
  else if a = 0xFF48 then p.obp0
  else if a = 0xFF49 then p.obp1
  else if a = 0xFF4A then p.wy
  else p.wx

/-- A bus write of the display register at an address of FF40 to FF4B, the DMA copy apart (R35, R69): `STAT` takes bits 6..3
only, `LY` ignores the write. -/
def Ppu.writeReg (p : Ppu) (a : Nat) (v : Byte) : Ppu :=
  if a = 0xFF40 then { p with lcdc := v }
  else if a = 0xFF41 then { p with statSelect := v.extractLsb' 3 4 }
  else if a = 0xFF42 then { p with scy := v }
  else if a = 0xFF43 then { p with scx := v }
  else if a = 0xFF44 then p
  else if a = 0xFF45 then { p with lyc := v }
  else if a = 0xFF46 then { p with dma := v }
  else if a = 0xFF47 then { p with bgp := v }
  else if a = 0xFF48 then { p with obp0 := v }
  else if a = 0xFF49 then { p with obp1 := v }
  else if a = 0xFF4A then { p with wy := v }
  else { p with wx := v }

/-! ## Gates (R71, R72) -/

/-- VRAM is closed to the bus: display enabled and mode 3 (R71). -/
def Ppu.vramBlocked (p : Ppu) : Bool := p.enabled && (p.mode == .draw)

/-- OAM is closed to the bus: display enabled and mode 2 or 3 (R72). -/
def Ppu.oamBlocked (p : Ppu) : Bool := p.enabled && (p.mode == .oamScan || p.mode == .draw)

/-! ## Collaborators (R366 to R368) -/

/-- `read(a)` of a timer, serial or joypad device; the null device answers 0xFF. -/
def Device.read (id : DeviceId) (dev : Device) (a : Nat) : Byte :=
  match dev with
  | .null => 0xFF
  | .attached st => Config.deviceRead id st a

/-- `write(a, v)` of a timer, serial or joypad device; the null device ignores it. -/
def Device.write (id : DeviceId) (dev : Device) (a : Nat) (v : Byte) : Device :=
  match dev with
  | .null => .null
  | .attached st => .attached (Config.deviceWrite id st a v)

/-- `Cart.read(a)`: the ROM-only cartridge answers its image up to 7FFF and 0xFF above (R366). -/
def Cart.read (cart : Cart) (a : Nat) : Byte :=
  match cart with
  | .romOnly rom => if a < 0x8000 then romByte rom a else 0xFF
  | .banked st => Config.deviceRead .cart st a

/-- `Cart.write(a, v)`: the ROM-only cartridge does nothing (R366). -/
def Cart.write (cart : Cart) (a : Nat) (v : Byte) : Cart :=
  match cart with
  | .romOnly rom => .romOnly rom
  | .banked st => .banked (Config.deviceWrite .cart st a v)

/-! ## One byte over the bus (R60, R61) -/

/-- `MemRead(a, 1)` (R60). It changes nothing (R77). -/
def Bus.read (params : Params) (b : Bus) (addr : Word) : Byte :=
  let a := addr.toNat
  match ownerOf a with
  | .overlay => if b.bootMapped then bootByte b.boot a else b.cart.read a
  | .cart => b.cart.read a
  | .vram => if b.ppu.vramBlocked then 0xFF else storedByte b.mem a
  | .wram => storedByte b.mem a
  | .oam => if b.ppu.oamBlocked then 0xFF else storedByte b.mem a
  | .joypad => b.joypad.read .joypad a
  | .serial => b.serial.read .serial a
  | .timer => b.timer.read .timer a
  | .ifReg => params.ifReadHi ++ b.ifReg
  | .display => b.ppu.readReg a
  | .bootUnmap => 0xFF
  | .hram => storedByte b.mem a
  | .ieReg => params.ieReadHi ++ b.ieReg
  | .unmapped => params.unmappedRead

/-- Byte `v` stored in plain storage at `a`, past any gate. -/
def Bus.store (b : Bus) (a : Nat) (v : Byte) : Bus := { b with mem := writeCell b.mem a v }

/-- One store of the DMA copy: `OAM[k] <- MemRead(v*0x100 + k, 1)` (R73). -/
def Bus.dmaStep (params : Params) (v : Byte) (b : Bus) (k : Nat) : Bus :=
  b.store (0xFE00 + k) (b.read params (BitVec.ofNat 16 (v.toNat * 0x100 + k)))

/-- The DMA copy of R73, after `DMA <- v`: 160 source reads through the dispatcher, 160 stores straight into OAM. -/
def Bus.dmaCopy (params : Params) (v : Byte) (b : Bus) : Bus :=
  (List.range 160).foldl (Bus.dmaStep params v) b

/-- A bus write to FF40 to FF4B (R69): the register, and for `DMA` the copy. -/
def Bus.writeDisplay (params : Params) (b : Bus) (a : Nat) (v : Byte) : Bus :=
  let b1 := { b with ppu := b.ppu.writeReg a v }
  if a = 0xFF46 then b1.dmaCopy params v else b1

/-- `MemWrite(a, 1, v)` (R61). -/
def Bus.write (params : Params) (b : Bus) (addr : Word) (v : Byte) : Bus :=
  let a := addr.toNat
  match ownerOf a with
  | .overlay => if b.bootMapped then b else { b with cart := b.cart.write a v }
  | .cart => { b with cart := b.cart.write a v }
  | .vram => if b.ppu.vramBlocked then b else b.store a v
  | .wram => b.store a v
  | .oam => if b.ppu.oamBlocked then b else b.store a v
  | .joypad => { b with joypad := b.joypad.write .joypad a v }
  | .serial => { b with serial := b.serial.write .serial a v }
  | .timer => { b with timer := b.timer.write .timer a v }
  | .ifReg => { b with ifReg := v.extractLsb' 0 5 }
  | .display => b.writeDisplay params a v
  | .bootUnmap => { b with bootMapped := false }
  | .hram => b.store a v
  | .ieReg => { b with ieReg := v.extractLsb' 0 5 }
  | .unmapped => b

/-- A request bit of `IF` set (R310): setting a set bit changes nothing. -/
def Bus.request (b : Bus) (i : Nat) : Bus := { b with ifReg := b.ifReg ||| BitVec.twoPow 5 i }

end Sys2Proof.Machine
end

