-- ==== Sys2Proof/Machine/Flags.lean ====
section
/-! DEFINITION. The results and flags of the arithmetic, logic, rotate, shift and bit operations (R25, R170 to R185,
R200 to R204, R210 to R225), each as the result with the four flags. -/

namespace Sys2Proof.Machine

/-- A byte result with the flags it leaves. -/
abbrev ByteResult := Byte × Flags

/-- `F` as a byte: Z N Hf Cy in bits 7..4, zero below (R21). -/
def Flags.toByte (f : Flags) : Byte :=
  BitVec.ofBool f.z ++ BitVec.ofBool f.n ++ BitVec.ofBool f.h ++ BitVec.ofBool f.c ++ 0#4

/-- The flags of a byte loaded into `F`; its low nibble is discarded (R166). -/
def Flags.ofByte (v : Byte) : Flags := ⟨v.getLsbD 7, v.getLsbD 6, v.getLsbD 5, v.getLsbD 4⟩

/-- `v[3:0]` as a number. -/
def loNibble (v : Byte) : Nat := v.toNat % 16

/-! ## 8-bit arithmetic and logic -/

/-- `A + x + c` (R171, R172). -/
def add8 (a x : Byte) (c : Bool) : ByteResult :=
  let r := a.toNat + x.toNat + c.toNat
  (BitVec.ofNat 8 r,
   { z := r % 256 == 0, n := false
     h := decide (loNibble a + loNibble x + c.toNat > 0xF), c := decide (r > 0xFF) })

/-- `A - x - c` (R173, R174, R178). -/
def sub8 (a x : Byte) (c : Bool) : ByteResult :=
  let r : Int := (a.toNat : Int) - x.toNat - c.toNat
  (BitVec.ofInt 8 r,
   { z := r % 256 == 0, n := true
     h := decide (loNibble a < loNibble x + c.toNat), c := decide (a.toNat < x.toNat + c.toNat) })

/-- `A & x` (R175). -/
def and8 (a x : Byte) : ByteResult := (a &&& x, ⟨a &&& x == 0, false, true, false⟩)

/-- `A ^ x` (R176). -/
def xor8 (a x : Byte) : ByteResult := (a ^^^ x, ⟨a ^^^ x == 0, false, false, false⟩)

/-- `A | x` (R177). -/
def or8 (a x : Byte) : ByteResult := (a ||| x, ⟨a ||| x == 0, false, false, false⟩)

/-- `v + 1`, `Cy` kept (R179). -/
def inc8 (v : Byte) (f : Flags) : ByteResult :=
  (v + 1, { z := v + 1 == 0, n := false, h := loNibble v == 0xF, c := f.c })

/-- `v - 1`, `Cy` kept (R180). -/
def dec8 (v : Byte) (f : Flags) : ByteResult :=
  (v - 1, { z := v - 1 == 0, n := true, h := loNibble v == 0x0, c := f.c })

/-- The value and the carry of `DAA` after an addition: the `N = 0` branch of R181. -/
def daaAfterAdd (a : Nat) (h c : Bool) : Int × Bool :=
  let first := c || decide (a > 0x99)
  let a1 := if first then a + 0x60 else a
  let a2 := if h || decide (a1 % 16 > 9) then a1 + 0x06 else a1
  (a2, c || first)

/-- The value and the carry of `DAA` after a subtraction: the `N = 1` branch of R181. -/
def daaAfterSub (a : Nat) (h c : Bool) : Int × Bool :=
  let a1 : Int := if c then (a : Int) - 0x60 else a
  let a2 : Int := if h then a1 - 0x06 else a1
  (a2, c)

/-- `DAA` (R181). -/
def daa8 (a : Byte) (f : Flags) : ByteResult :=
  let r := if f.n then daaAfterSub a.toNat f.h f.c else daaAfterAdd a.toNat f.h f.c
  let v := BitVec.ofInt 8 r.1
  (v, { z := v == 0, n := f.n, h := false, c := r.2 })

/-- `A ^ 0xFF`; `Z` and `Cy` kept (R182). -/
def cpl8 (a : Byte) (f : Flags) : ByteResult := (a ^^^ 0xFF, { f with n := true, h := true })

/-- `SCF`: `Z` kept (R183). -/
def scfFlags (f : Flags) : Flags := { z := f.z, n := false, h := false, c := true }

/-- `CCF`: `Z` kept, `Cy` inverted (R184). -/
def ccfFlags (f : Flags) : Flags := { z := f.z, n := false, h := false, c := !f.c }

/-! ## 16-bit arithmetic -/

/-- `HL + b`: `Z` kept, half-carry from bit 11, carry from bit 15 (R200). -/
def add16 (hl b : Word) (f : Flags) : Word × Flags :=
  let r := hl.toNat + b.toNat
  (BitVec.ofNat 16 r,
   { z := f.z, n := false
     h := decide (hl.toNat % 0x1000 + b.toNat % 0x1000 > 0xFFF), c := decide (r > 0xFFFF) })

/-- `sext_16`, the one sign extension (R109, R204): `b` when `b[7] = 0`, else `b + 0xFF00`. -/
def sext16 (e : Byte) : Word := if e.toNat < 128 then e.setWidth 16 else e.setWidth 16 + 0xFF00

/-- `SP + e`, the flags from the unsigned sum of the low byte (R163, R203). -/
def addSigned (sp : Word) (e : Byte) : Word × Flags :=
  (sp + sext16 e,
   { z := false, n := false
     h := decide (sp.toNat % 16 + loNibble e > 0xF), c := decide (sp.toNat % 256 + e.toNat > 0xFF) })

/-! ## Rotates, shifts, bits -/

/-- `{v[6:0], low}`. -/
def shiftIn0 (v : Byte) (low : Bool) : Byte := v.extractLsb' 0 7 ++ BitVec.ofBool low

/-- `{high, v[7:1]}`. -/
def shiftIn7 (v : Byte) (high : Bool) : Byte := BitVec.ofBool high ++ v.extractLsb' 1 7

/-- A rotated or shifted byte with `flags <- (r = 0, 0, 0, c)` (R214 to R221). -/
def shiftResult (r : Byte) (c : Bool) : ByteResult := (r, ⟨r == 0, false, false, c⟩)

/-- The same for the rotates of the primary table, which clear `Z` (R210 to R213). -/
def accResult (res : ByteResult) : ByteResult := (res.1, { res.2 with z := false })

/-- R214, and R210 for `A`. -/
def rlc8 (v : Byte) : ByteResult := shiftResult (shiftIn0 v (v.getLsbD 7)) (v.getLsbD 7)
/-- R215, and R212 for `A`. -/
def rrc8 (v : Byte) : ByteResult := shiftResult (shiftIn7 v (v.getLsbD 0)) (v.getLsbD 0)
/-- R216, and R211 for `A`. -/
def rl8 (v : Byte) (cy : Bool) : ByteResult := shiftResult (shiftIn0 v cy) (v.getLsbD 7)
/-- R217, and R213 for `A`. -/
def rr8 (v : Byte) (cy : Bool) : ByteResult := shiftResult (shiftIn7 v cy) (v.getLsbD 0)
/-- R218. -/
def sla8 (v : Byte) : ByteResult := shiftResult (shiftIn0 v false) (v.getLsbD 7)
/-- R219. -/
def sra8 (v : Byte) : ByteResult := shiftResult (shiftIn7 v (v.getLsbD 7)) (v.getLsbD 0)
/-- R220: no bit is shifted out. -/
def swap8 (v : Byte) : ByteResult := shiftResult (v.extractLsb' 0 4 ++ v.extractLsb' 4 4) false
/-- R221. -/
def srl8 (v : Byte) : ByteResult := shiftResult (shiftIn7 v false) (v.getLsbD 0)

/-- The flags of `BIT b`: `(v[b] = 0, 0, 1, -)` (R222). -/
def bitFlags (b : BitVec 3) (v : Byte) (f : Flags) : Flags :=
  { z := !v.getLsbD b.toNat, n := false, h := true, c := f.c }

/-- `v & ~(1 << b)` (R223). -/
def resBit (b : BitVec 3) (v : Byte) : Byte := v &&& ~~~(1#8 <<< b.toNat)

/-- `v | (1 << b)` (R224). -/
def setBit (b : BitVec 3) (v : Byte) : Byte := v ||| (1#8 <<< b.toNat)

end Sys2Proof.Machine
end

