-- ==== Sys2Proof/Machine/Operands.lean ====
section
/-! DEFINITION. The operand forms (R9, R104 to R110): registers, pairs, conditions, the bytes of memory they address. -/

namespace Sys2Proof.Machine

/-! ## Registers of the file (R20 to R24) -/

/-- `BC = {B, C}` (R22). -/
def Regs.bc (r : Regs) : Word := wordOf r.b r.c
/-- `DE = {D, E}` (R22). -/
def Regs.de (r : Regs) : Word := wordOf r.d r.e
/-- `HL = {H, L}` (R22). -/
def Regs.hl (r : Regs) : Word := wordOf r.h r.l
/-- `F` as a byte (R21). -/
def Regs.f (r : Regs) : Byte := r.flags.toByte
/-- `AF = {A, F}` (R21). -/
def Regs.af (r : Regs) : Word := wordOf r.a r.f

/-- `r8[i]` for a register (R9). -/
def Regs.get8 (r : Regs) : Reg8 → Byte
  | .b => r.b
  | .c => r.c
  | .d => r.d
  | .e => r.e
  | .h => r.h
  | .l => r.l
  | .a => r.a

/-- `r8[i] <- v` for a register: only that half of its pair changes (R22). -/
def Regs.set8 (r : Regs) (i : Reg8) (v : Byte) : Regs :=
  match i with
  | .b => { r with b := v }
  | .c => { r with c := v }
  | .d => { r with d := v }
  | .e => { r with e := v }
  | .h => { r with h := v }
  | .l => { r with l := v }
  | .a => { r with a := v }

/-- `r16[i]` (R9). -/
def Regs.get16 (r : Regs) : Reg16 → Word
  | .bc => r.bc
  | .de => r.de
  | .hl => r.hl
  | .sp => r.sp

/-- `r16[i] <- v`: both halves of the pair change (R22). -/
def Regs.set16 (r : Regs) (i : Reg16) (v : Word) : Regs :=
  match i with
  | .bc => { r with b := hiByte v, c := loByte v }
  | .de => { r with d := hiByte v, e := loByte v }
  | .hl => { r with h := hiByte v, l := loByte v }
  | .sp => { r with sp := v }

/-- `r16stk[i]` (R9). -/
def Regs.getStack (r : Regs) : StackPair → Word
  | .bc => r.bc
  | .de => r.de
  | .hl => r.hl
  | .af => r.af

/-- `r16stk[i] <- v`; a byte loaded into `F` loses its low nibble (R165, R166). -/
def Regs.setStack (r : Regs) (i : StackPair) (v : Word) : Regs :=
  match i with
  | .bc => r.set16 .bc v
  | .de => r.set16 .de v
  | .hl => r.set16 .hl v
  | .af => { r with a := hiByte v, flags := Flags.ofByte (loByte v) }

/-- `cond(cc)` (R106). -/
def Flags.holds (f : Flags) : Cond → Bool
  | .nz => !f.z
  | .z => f.z
  | .nc => !f.c
  | .c => f.c

/-! ## The same on the state -/

/-- `r8[i]` for a register. -/
def State.get8 (s : State) (i : Reg8) : Byte := s.regs.get8 i
/-- `r8[i] <- v` for a register. -/
def State.set8 (s : State) (i : Reg8) (v : Byte) : State := { s with regs := s.regs.set8 i v }
/-- `r16[i]`. -/
def State.get16 (s : State) (i : Reg16) : Word := s.regs.get16 i
/-- `r16[i] <- v`. -/
def State.set16 (s : State) (i : Reg16) (v : Word) : State := { s with regs := s.regs.set16 i v }
/-- `r16stk[i] <- v`. -/
def State.setStack (s : State) (i : StackPair) (v : Word) : State := { s with regs := s.regs.setStack i v }
/-- `PC <- v`. -/
def State.setPc (s : State) (v : Word) : State := { s with regs := { s.regs with pc := v } }
/-- `SP <- v`. -/
def State.setSp (s : State) (v : Word) : State := { s with regs := { s.regs with sp := v } }
/-- `flags <- f`. -/
def State.setFlags (s : State) (f : Flags) : State := { s with regs := { s.regs with flags := f } }
/-- `A` and the flags from one result. -/
def State.setAcc (s : State) (res : ByteResult) : State :=
  { s with regs := { s.regs with a := res.1, flags := res.2 } }
/-- A register and the flags from one result. -/
def State.set8F (s : State) (i : Reg8) (res : ByteResult) : State := (s.set8 i res.1).setFlags res.2

/-- The address `0xFF00 + n` of the `LDH` forms (R141 to R144). -/
def highPage (n : Byte) : Word := wordOf 0xFF n

/-- `MemRead(a, 1)` in a state (R60). -/
def State.read (s : State) (a : Word) : Byte := s.bus.read s.params a

/-- `MemWrite(a, 1, v)` in a state (R61). -/
def State.write (s : State) (a : Word) (v : Byte) : State := { s with bus := s.bus.write s.params a v }

/-- `r8[6]`, the byte at `HL` (R104). -/
def State.readHl (s : State) : Byte := s.read s.regs.hl

/-- `r8[6] <- v` (R104). -/
def State.writeHl (s : State) (v : Byte) : State := s.write s.regs.hl v

/-- The byte at `HL` and the flags from one result: the write-back of a read-modify-write instruction. -/
def State.writeHlF (s : State) (res : ByteResult) : State := (s.writeHl res.1).setFlags res.2

end Sys2Proof.Machine
end

