-- ==== Sys2Proof/Machine/Ops.lean ====
section
/-! DEFINITION. The operations the instructions share: operand bytes, 16-bit accesses, the stack, the charge of ticks, and
taking an interrupt with the return from it. -/

namespace Sys2Proof.Machine

/-- The answer of an instruction. -/
abbrev Result := Host.Outcome State Fault Refusal

/-! ## Operand bytes -/

/-- `imm8()` (R107): the byte itself is the decoded instruction's, `PC` moves past it. -/
def State.imm8 (s : State) : State := s.setPc (s.regs.pc + 1)

/-- `imm16()` (R108): two `imm8()`. -/
def State.imm16 (s : State) : State := s.imm8.imm8

/-! ## 16-bit accesses and the stack -/

/-- `MemWrite(a, 2, v)`: the low byte at `a`, then the high byte at `a + 1` (R75). -/
def State.write16 (s : State) (a v : Word) : State := (s.write a (loByte v)).write (a + 1) (hiByte v)

/-- `push16(v)` (R164): the high byte at `SP - 1`, then the low byte at `SP - 2`. -/
def State.push16 (s : State) (v : Word) : State :=
  let s1 := s.setSp (s.regs.sp - 1)
  let s2 := s1.write s1.regs.sp (hiByte v)
  let s3 := s2.setSp (s2.regs.sp - 1)
  s3.write s3.regs.sp (loByte v)

/-- The value `pop16()` gives (R165): the low byte at `SP`, the high byte at `SP + 1`. -/
def State.popValue (s : State) : Word := wordOf (s.read (s.regs.sp + 1)) (s.read s.regs.sp)

/-- The state `pop16()` leaves (R165). -/
def State.popped (s : State) : State := s.setSp (s.regs.sp + 1 + 1)

/-! ## Ticks (R27, R305) -/

/-- The table cost of an instruction: `TICKS_EXTENDED` of its second byte or `TICKS_PRIMARY` of its opcode byte. -/
def baseTicks (p : Params) (i : Instr) : Nat :=
  if i.isExtended then p.ticksExtended.getD i.opcode.toNat 0 else p.ticksPrimary.getD i.opcode.toNat 0

/-- What a taken conditional transfer adds (`extra`, R6). -/
def takenExtra (p : Params) (i : Instr) : Nat := p.ticksTakenExtra.getD i.opcode.toNat 0

/-- Step (e) of R305: `ticks_remaining <- max(cost, 1) - 1`. -/
def State.charge (s : State) (cost : Nat) : State := { s with ticksRemaining := max cost 1 - 1 }

/-- An instruction's end: its effects are all applied, its table cost is charged. -/
def done (i : Instr) (s : State) : Result := .next (s.charge (baseTicks s.params i))

/-- The end of a conditional transfer that was taken: the table cost and the extra are charged. -/
def doneTaken (i : Instr) (s : State) : Result :=
  .next (s.charge (baseTicks s.params i + takenExtra s.params i))

/-! ## Interrupts -/

/-- `pending = IE & IF & 0x1F` (R300). -/
def State.pending (s : State) : BitVec 5 := s.bus.ieReg &&& s.bus.ifReg

/-- The least source with its bit set: VBlank before STAT before Timer before Serial before Joypad (R303, R311). -/
def lowestSource (p : BitVec 5) : Option Nat :=
  if p.getLsbD 0 then some 0
  else if p.getLsbD 1 then some 1
  else if p.getLsbD 2 then some 2
  else if p.getLsbD 3 then some 3
  else if p.getLsbD 4 then some 4
  else none

/-- `VECTOR(i)` (R302). -/
def vectorOf (p : Params) (i : Nat) : Word := p.vectors.getD i 0

/-- Interrupt dispatch of source `i`, the one exception entry of the block (R303, R312): the request bit, `IME`,
`ime_pending` and `halted` are cleared, `PC` is pushed through the bus, `PC` goes to the vector, the dispatch cost is
charged. `halt_bug` and every other register stay. -/
def State.dispatch (s : State) (i : Nat) : State :=
  let s1 : State :=
    { s with
      ime := false, imePending := false, halted := false
      bus := { s.bus with ifReg := s.bus.ifReg &&& ~~~BitVec.twoPow 5 i } }
  let s2 := s1.push16 s1.regs.pc
  { s2.setPc (vectorOf s2.params i) with ticksRemaining := s2.params.intDispatchTicks - 1 }

/-- The return of `RETI` (R249, R313): `PC` popped, `IME` set at once; nothing else is restored. -/
def State.returnFromInterrupt (s : State) : State :=
  { s.popped.setPc s.popValue with ime := true }

end Sys2Proof.Machine
end

