-- ==== Sys2Proof/Machine/Alu16.lean ====
section
/-! DEFINITION. The 16-bit arithmetic instructions (43_alu16.md). -/

namespace Sys2Proof.Machine

/-- `ADD HL,rr` (R200). -/
def execAddHlRr (p : Reg16) (s : State) : Result :=
  let r := add16 s.regs.hl (s.get16 p) s.regs.flags
  done (.addHlRr p) ((s.set16 .hl r.1).setFlags r.2)

/-- `INC rr` (R201): no flag changes. -/
def execIncRr (p : Reg16) (s : State) : Result :=
  done (.incRr p) (s.set16 p (s.get16 p + 1))

/-- `DEC rr` (R202): no flag changes. -/
def execDecRr (p : Reg16) (s : State) : Result :=
  done (.decRr p) (s.set16 p (s.get16 p - 1))

/-- `ADD SP,e` (R203). -/
def execAddSpE (e : Byte) (s : State) : Result :=
  let r := addSigned s.regs.sp e
  done (.addSpE e) ((s.imm8.setSp r.1).setFlags r.2)

end Sys2Proof.Machine
end

