-- ==== Sys2Proof/Machine/Alu8.lean ====
section
/-! DEFINITION. The 8-bit arithmetic and logic instructions (42_alu8.md), the second operand a register, the byte at `HL` or an
immediate (R170). -/

namespace Sys2Proof.Machine

/-- `ADD A,r` (R171). -/
def execAddAR (rs : Reg8) (s : State) : Result :=
  done (.addAR rs) (s.setAcc (add8 s.regs.a (s.get8 rs) false))

/-- `ADD A,(HL)` (R171). -/
def execAddAHl (s : State) : Result :=
  done .addAHl (s.setAcc (add8 s.regs.a s.readHl false))

/-- `ADD A,n` (R171). -/
def execAddAN (n : Byte) (s : State) : Result :=
  done (.addAN n) (s.imm8.setAcc (add8 s.regs.a n false))

/-- `ADC A,r` (R172). -/
def execAdcAR (rs : Reg8) (s : State) : Result :=
  done (.adcAR rs) (s.setAcc (add8 s.regs.a (s.get8 rs) s.regs.flags.c))

/-- `ADC A,(HL)` (R172). -/
def execAdcAHl (s : State) : Result :=
  done .adcAHl (s.setAcc (add8 s.regs.a s.readHl s.regs.flags.c))

/-- `ADC A,n` (R172). -/
def execAdcAN (n : Byte) (s : State) : Result :=
  done (.adcAN n) (s.imm8.setAcc (add8 s.regs.a n s.regs.flags.c))

/-- `SUB r` (R173). -/
def execSubR (rs : Reg8) (s : State) : Result :=
  done (.subR rs) (s.setAcc (sub8 s.regs.a (s.get8 rs) false))

/-- `SUB (HL)` (R173). -/
def execSubHl (s : State) : Result :=
  done .subHl (s.setAcc (sub8 s.regs.a s.readHl false))

/-- `SUB n` (R173). -/
def execSubN (n : Byte) (s : State) : Result :=
  done (.subN n) (s.imm8.setAcc (sub8 s.regs.a n false))

/-- `SBC A,r` (R174). -/
def execSbcAR (rs : Reg8) (s : State) : Result :=
  done (.sbcAR rs) (s.setAcc (sub8 s.regs.a (s.get8 rs) s.regs.flags.c))

/-- `SBC A,(HL)` (R174). -/
def execSbcAHl (s : State) : Result :=
  done .sbcAHl (s.setAcc (sub8 s.regs.a s.readHl s.regs.flags.c))

/-- `SBC A,n` (R174). -/
def execSbcAN (n : Byte) (s : State) : Result :=
  done (.sbcAN n) (s.imm8.setAcc (sub8 s.regs.a n s.regs.flags.c))

/-- `AND r` (R175). -/
def execAndR (rs : Reg8) (s : State) : Result :=
  done (.andR rs) (s.setAcc (and8 s.regs.a (s.get8 rs)))

/-- `AND (HL)` (R175). -/
def execAndHl (s : State) : Result :=
  done .andHl (s.setAcc (and8 s.regs.a s.readHl))

/-- `AND n` (R175). -/
def execAndN (n : Byte) (s : State) : Result :=
  done (.andN n) (s.imm8.setAcc (and8 s.regs.a n))

/-- `XOR r` (R176). -/
def execXorR (rs : Reg8) (s : State) : Result :=
  done (.xorR rs) (s.setAcc (xor8 s.regs.a (s.get8 rs)))

/-- `XOR (HL)` (R176). -/
def execXorHl (s : State) : Result :=
  done .xorHl (s.setAcc (xor8 s.regs.a s.readHl))

/-- `XOR n` (R176). -/
def execXorN (n : Byte) (s : State) : Result :=
  done (.xorN n) (s.imm8.setAcc (xor8 s.regs.a n))

/-- `OR r` (R177). -/
def execOrR (rs : Reg8) (s : State) : Result :=
  done (.orR rs) (s.setAcc (or8 s.regs.a (s.get8 rs)))

/-- `OR (HL)` (R177). -/
def execOrHl (s : State) : Result :=
  done .orHl (s.setAcc (or8 s.regs.a s.readHl))

/-- `OR n` (R177). -/
def execOrN (n : Byte) (s : State) : Result :=
  done (.orN n) (s.imm8.setAcc (or8 s.regs.a n))

/-- `CP r` (R178). -/
def execCpR (rs : Reg8) (s : State) : Result :=
  done (.cpR rs) (s.setFlags (sub8 s.regs.a (s.get8 rs) false).2)

/-- `CP (HL)` (R178). -/
def execCpHl (s : State) : Result :=
  done .cpHl (s.setFlags (sub8 s.regs.a s.readHl false).2)

/-- `CP n` (R178). -/
def execCpN (n : Byte) (s : State) : Result :=
  done (.cpN n) (s.imm8.setFlags (sub8 s.regs.a n false).2)

/-- `INC r` (R179). -/
def execIncR (rd : Reg8) (s : State) : Result :=
  done (.incR rd) (s.set8F rd (inc8 (s.get8 rd) s.regs.flags))

/-- `INC (HL)` (R179): one read, then one write. -/
def execIncHl (s : State) : Result :=
  done .incHl (s.writeHlF (inc8 s.readHl s.regs.flags))

/-- `DEC r` (R180). -/
def execDecR (rd : Reg8) (s : State) : Result :=
  done (.decR rd) (s.set8F rd (dec8 (s.get8 rd) s.regs.flags))

/-- `DEC (HL)` (R180): one read, then one write. -/
def execDecHl (s : State) : Result :=
  done .decHl (s.writeHlF (dec8 s.readHl s.regs.flags))

/-- `DAA` (R181). -/
def execDaa (s : State) : Result :=
  done .daa (s.setAcc (daa8 s.regs.a s.regs.flags))

/-- `CPL` (R182). -/
def execCpl (s : State) : Result :=
  done .cpl (s.setAcc (cpl8 s.regs.a s.regs.flags))

/-- `SCF` (R183). -/
def execScf (s : State) : Result :=
  done .scf (s.setFlags (scfFlags s.regs.flags))

/-- `CCF` (R184). -/
def execCcf (s : State) : Result :=
  done .ccf (s.setFlags (ccfFlags s.regs.flags))

end Sys2Proof.Machine
end

