-- ==== Sys2Proof/Machine/Control.lean ====
section
/-! DEFINITION. Jumps, calls, returns and restarts (45_control_transfer.md). No flag changes. -/

namespace Sys2Proof.Machine

/-- `JP nn` (R240). -/
def execJpNn (nn : Word) (s : State) : Result :=
  done (.jpNn nn) (s.imm16.setPc nn)

/-- `JP cc,nn` (R241). -/
def execJpCcNn (cc : Cond) (nn : Word) (s : State) : Result :=
  if s.regs.flags.holds cc then doneTaken (.jpCcNn cc nn) (s.imm16.setPc nn)
  else done (.jpCcNn cc nn) s.imm16

/-- `JP HL` (R242): no memory is read. -/
def execJpHl (s : State) : Result :=
  done .jpHl (s.setPc s.regs.hl)

/-- `JR e` (R243): the base is `PC` after the immediate byte. -/
def execJrE (e : Byte) (s : State) : Result :=
  done (.jrE e) (s.imm8.setPc (s.imm8.regs.pc + sext16 e))

/-- `JR cc,e` (R244). -/
def execJrCcE (cc : Cond) (e : Byte) (s : State) : Result :=
  if s.regs.flags.holds cc then doneTaken (.jrCcE cc e) (s.imm8.setPc (s.imm8.regs.pc + sext16 e))
  else done (.jrCcE cc e) s.imm8

/-- `CALL nn` (R245): the address after the instruction is pushed. -/
def execCallNn (nn : Word) (s : State) : Result :=
  done (.callNn nn) ((s.imm16.push16 s.imm16.regs.pc).setPc nn)

/-- `CALL cc,nn` (R246). -/
def execCallCcNn (cc : Cond) (nn : Word) (s : State) : Result :=
  if s.regs.flags.holds cc then
    doneTaken (.callCcNn cc nn) ((s.imm16.push16 s.imm16.regs.pc).setPc nn)
  else done (.callCcNn cc nn) s.imm16

/-- `RET` (R247). -/
def execRet (s : State) : Result :=
  done .ret (s.popped.setPc s.popValue)

/-- `RET cc` (R248): not taken, nothing is read from the stack. -/
def execRetCc (cc : Cond) (s : State) : Result :=
  if s.regs.flags.holds cc then doneTaken (.retCc cc) (s.popped.setPc s.popValue)
  else done (.retCc cc) s

/-- `RETI` (R249). -/
def execReti (s : State) : Result :=
  done .reti s.returnFromInterrupt

/-- `RST t` (R252): the target is `8 * t`. -/
def execRstT (t : BitVec 3) (s : State) : Result :=
  done (.rstT t) ((s.push16 s.regs.pc).setPc (BitVec.ofNat 16 (8 * t.toNat)))

end Sys2Proof.Machine
end

