-- ==== Sys2Proof/Machine/Load16.lean ====
section
/-! DEFINITION. The 16-bit loads and the stack instructions (41_load16_stack.md). -/

namespace Sys2Proof.Machine

/-- `LD rr,nn` (R160). -/
def execLdRrNn (p : Reg16) (nn : Word) (s : State) : Result :=
  done (.ldRrNn p nn) (s.imm16.set16 p nn)

/-- `LD (nn),SP` (R161). -/
def execLdNnSp (nn : Word) (s : State) : Result :=
  done (.ldNnSp nn) (s.imm16.write16 nn s.regs.sp)

/-- `LD SP,HL` (R162). -/
def execLdSpHl (s : State) : Result :=
  done .ldSpHl (s.setSp s.regs.hl)

/-- `LD HL,SP+e` (R163). -/
def execLdHlSpE (e : Byte) (s : State) : Result :=
  let r := addSigned s.regs.sp e
  done (.ldHlSpE e) ((s.imm8.set16 .hl r.1).setFlags r.2)

/-- `PUSH rr` (R164). -/
def execPushRr (p : StackPair) (s : State) : Result :=
  done (.pushRr p) (s.push16 (s.regs.getStack p))

/-- `POP rr` (R165). -/
def execPopRr (p : StackPair) (s : State) : Result :=
  done (.popRr p) (s.popped.setStack p s.popValue)

/-- `POP AF` (R166): the low nibble of the byte popped into `F` is discarded. -/
def execPopAf (s : State) : Result :=
  done .popAf (s.popped.setStack .af s.popValue)

end Sys2Proof.Machine
end

