-- ==== Sys2Proof/Machine/Load8.lean ====
section
/-! DEFINITION. The 8-bit load instructions (40_load8.md). No flag changes (R149). -/

namespace Sys2Proof.Machine

/-- `LD r,r'` (R130). -/
def execLdRR (rd rs : Reg8) (s : State) : Result :=
  done (.ldRR rd rs) (s.set8 rd (s.get8 rs))

/-- `LD r,n` (R131). -/
def execLdRN (rd : Reg8) (n : Byte) (s : State) : Result :=
  done (.ldRN rd n) (s.imm8.set8 rd n)

/-- `LD r,(HL)` (R132): the address is formed before the register is overwritten. -/
def execLdRHl (rd : Reg8) (s : State) : Result :=
  done (.ldRHl rd) (s.set8 rd s.readHl)

/-- `LD (HL),r` (R133). -/
def execLdHlR (rs : Reg8) (s : State) : Result :=
  done (.ldHlR rs) (s.writeHl (s.get8 rs))

/-- `LD (HL),n` (R134). -/
def execLdHlN (n : Byte) (s : State) : Result :=
  done (.ldHlN n) (s.imm8.writeHl n)

/-- `LD A,(BC)` (R135). -/
def execLdABc (s : State) : Result :=
  done .ldABc (s.set8 .a (s.read s.regs.bc))

/-- `LD A,(DE)` (R136). -/
def execLdADe (s : State) : Result :=
  done .ldADe (s.set8 .a (s.read s.regs.de))

/-- `LD (BC),A` (R137). -/
def execLdBcA (s : State) : Result :=
  done .ldBcA (s.write s.regs.bc s.regs.a)

/-- `LD (DE),A` (R138). -/
def execLdDeA (s : State) : Result :=
  done .ldDeA (s.write s.regs.de s.regs.a)

/-- `LD A,(nn)` (R139). -/
def execLdANn (nn : Word) (s : State) : Result :=
  done (.ldANn nn) (s.imm16.set8 .a (s.read nn))

/-- `LD (nn),A` (R140). -/
def execLdNnA (nn : Word) (s : State) : Result :=
  done (.ldNnA nn) (s.imm16.write nn s.regs.a)

/-- `LDH A,(n)` (R141). -/
def execLdhAN (n : Byte) (s : State) : Result :=
  done (.ldhAN n) (s.imm8.set8 .a (s.read (highPage n)))

/-- `LDH (n),A` (R142). -/
def execLdhNA (n : Byte) (s : State) : Result :=
  done (.ldhNA n) (s.imm8.write (highPage n) s.regs.a)

/-- `LDH A,(C)` (R143). -/
def execLdhAC (s : State) : Result :=
  done .ldhAC (s.set8 .a (s.read (highPage s.regs.c)))

/-- `LDH (C),A` (R144). -/
def execLdhCA (s : State) : Result :=
  done .ldhCA (s.write (highPage s.regs.c) s.regs.a)

/-- `LD (HL+),A` (R145): the increment after the access. -/
def execLdHlIncA (s : State) : Result :=
  done .ldHlIncA ((s.writeHl s.regs.a).set16 .hl (s.regs.hl + 1))

/-- `LD A,(HL+)` (R146). -/
def execLdAHlInc (s : State) : Result :=
  done .ldAHlInc ((s.set8 .a s.readHl).set16 .hl (s.regs.hl + 1))

/-- `LD (HL-),A` (R147). -/
def execLdHlDecA (s : State) : Result :=
  done .ldHlDecA ((s.writeHl s.regs.a).set16 .hl (s.regs.hl - 1))

/-- `LD A,(HL-)` (R148). -/
def execLdAHlDec (s : State) : Result :=
  done .ldAHlDec ((s.set8 .a s.readHl).set16 .hl (s.regs.hl - 1))

end Sys2Proof.Machine
end

