-- ==== Sys2Proof/Machine/Rotate.lean ====
section
/-! DEFINITION. The rotate, shift and bit instructions (44_rotate_shift_bit.md). An extended instruction starts with `PC` past both
its opcode bytes (R10, R225). -/

namespace Sys2Proof.Machine

/-- `RLCA` (R210): `Z = 0`. -/
def execRlca (s : State) : Result :=
  done .rlca (s.setAcc (accResult (rlc8 s.regs.a)))

/-- `RLA` (R211): `Z = 0`. -/
def execRla (s : State) : Result :=
  done .rla (s.setAcc (accResult (rl8 s.regs.a s.regs.flags.c)))

/-- `RRCA` (R212): `Z = 0`. -/
def execRrca (s : State) : Result :=
  done .rrca (s.setAcc (accResult (rrc8 s.regs.a)))

/-- `RRA` (R213): `Z = 0`. -/
def execRra (s : State) : Result :=
  done .rra (s.setAcc (accResult (rr8 s.regs.a s.regs.flags.c)))

/-- `RLC r` (R214). -/
def execRlcR (rs : Reg8) (s : State) : Result :=
  done (.rlcR rs) (s.set8F rs (rlc8 (s.get8 rs)))

/-- `RLC (HL)` (R214). -/
def execRlcHl (s : State) : Result :=
  done .rlcHl (s.writeHlF (rlc8 s.readHl))

/-- `RRC r` (R215). -/
def execRrcR (rs : Reg8) (s : State) : Result :=
  done (.rrcR rs) (s.set8F rs (rrc8 (s.get8 rs)))

/-- `RRC (HL)` (R215). -/
def execRrcHl (s : State) : Result :=
  done .rrcHl (s.writeHlF (rrc8 s.readHl))

/-- `RL r` (R216). -/
def execRlR (rs : Reg8) (s : State) : Result :=
  done (.rlR rs) (s.set8F rs (rl8 (s.get8 rs) s.regs.flags.c))

/-- `RL (HL)` (R216). -/
def execRlHl (s : State) : Result :=
  done .rlHl (s.writeHlF (rl8 s.readHl s.regs.flags.c))

/-- `RR r` (R217). -/
def execRrR (rs : Reg8) (s : State) : Result :=
  done (.rrR rs) (s.set8F rs (rr8 (s.get8 rs) s.regs.flags.c))

/-- `RR (HL)` (R217). -/
def execRrHl (s : State) : Result :=
  done .rrHl (s.writeHlF (rr8 s.readHl s.regs.flags.c))

/-- `SLA r` (R218). -/
def execSlaR (rs : Reg8) (s : State) : Result :=
  done (.slaR rs) (s.set8F rs (sla8 (s.get8 rs)))

/-- `SLA (HL)` (R218). -/
def execSlaHl (s : State) : Result :=
  done .slaHl (s.writeHlF (sla8 s.readHl))

/-- `SRA r` (R219). -/
def execSraR (rs : Reg8) (s : State) : Result :=
  done (.sraR rs) (s.set8F rs (sra8 (s.get8 rs)))

/-- `SRA (HL)` (R219). -/
def execSraHl (s : State) : Result :=
  done .sraHl (s.writeHlF (sra8 s.readHl))

/-- `SWAP r` (R220). -/
def execSwapR (rs : Reg8) (s : State) : Result :=
  done (.swapR rs) (s.set8F rs (swap8 (s.get8 rs)))

/-- `SWAP (HL)` (R220). -/
def execSwapHl (s : State) : Result :=
  done .swapHl (s.writeHlF (swap8 s.readHl))

/-- `SRL r` (R221). -/
def execSrlR (rs : Reg8) (s : State) : Result :=
  done (.srlR rs) (s.set8F rs (srl8 (s.get8 rs)))

/-- `SRL (HL)` (R221). -/
def execSrlHl (s : State) : Result :=
  done .srlHl (s.writeHlF (srl8 s.readHl))

/-- `BIT b,r` (R222): nothing is written but the flags. -/
def execBitBR (b : BitVec 3) (rs : Reg8) (s : State) : Result :=
  done (.bitBR b rs) (s.setFlags (bitFlags b (s.get8 rs) s.regs.flags))

/-- `BIT b,(HL)` (R222). -/
def execBitBHl (b : BitVec 3) (s : State) : Result :=
  done (.bitBHl b) (s.setFlags (bitFlags b s.readHl s.regs.flags))

/-- `RES b,r` (R223). -/
def execResBR (b : BitVec 3) (rs : Reg8) (s : State) : Result :=
  done (.resBR b rs) (s.set8 rs (resBit b (s.get8 rs)))

/-- `RES b,(HL)` (R223): the write happens even when the bit was already 0. -/
def execResBHl (b : BitVec 3) (s : State) : Result :=
  done (.resBHl b) (s.writeHl (resBit b s.readHl))

/-- `SET b,r` (R224). -/
def execSetBR (b : BitVec 3) (rs : Reg8) (s : State) : Result :=
  done (.setBR b rs) (s.set8 rs (setBit b (s.get8 rs)))

/-- `SET b,(HL)` (R224). -/
def execSetBHl (b : BitVec 3) (s : State) : Result :=
  done (.setBHl b) (s.writeHl (setBit b s.readHl))

end Sys2Proof.Machine
end

