-- ==== Sys2Proof/Machine/System.lean ====
section
/-! DEFINITION. The system instructions, the prefix and the invalid codes (46_system.md). -/

namespace Sys2Proof.Machine

/-- `NOP` (R260). -/
def execNop (s : State) : Result :=
  done .nop s

/-- `HALT` (R261): with `IME = 0` and something pending it sets the halt bug. -/
def execHalt (s : State) : Result :=
  done .halt
    { s with halted := true, haltBug := if s.ime = false ∧ s.pending ≠ 0 then true else s.haltBug }

/-- `STOP` (R262): its second byte is read and discarded; nothing stops. -/
def execStop (pad : Byte) (s : State) : Result :=
  done (.stop pad) s.imm8

/-- `DI` (R263). -/
def execDi (s : State) : Result :=
  done .di { s with ime := false, imePending := false }

/-- `EI` (R264): only the delayed enable is noted. -/
def execEi (s : State) : Result :=
  done .ei { s with imePending := true }

/-- `INVALID` (R114, R267), the handler of an opcode byte `op` of `INVALID_SET`: nothing is done, no operand byte is consumed,
and the byte's table cost is charged (R305). -/
def invalidEntry (op : Byte) (s : State) : Result :=
  .next (s.charge (s.params.ticksPrimary.getD op.toNat 0))

/-- The table's invalid entry `D3` (R267). -/
def execInvalidD3 (s : State) : Result :=
  invalidEntry 0xD3 s

/-- The table's invalid entry `DB` (R267). -/
def execInvalidDB (s : State) : Result :=
  invalidEntry 0xDB s

/-- The table's invalid entry `DD` (R267). -/
def execInvalidDD (s : State) : Result :=
  invalidEntry 0xDD s

/-- The table's invalid entry `E3` (R267). -/
def execInvalidE3 (s : State) : Result :=
  invalidEntry 0xE3 s

/-- The table's invalid entry `E4` (R267). -/
def execInvalidE4 (s : State) : Result :=
  invalidEntry 0xE4 s

/-- The table's invalid entry `EB` (R267). -/
def execInvalidEB (s : State) : Result :=
  invalidEntry 0xEB s

/-- The table's invalid entry `EC` (R267). -/
def execInvalidEC (s : State) : Result :=
  invalidEntry 0xEC s

/-- The table's invalid entry `ED` (R267). -/
def execInvalidED (s : State) : Result :=
  invalidEntry 0xED s

/-- The table's invalid entry `F4` (R267). -/
def execInvalidF4 (s : State) : Result :=
  invalidEntry 0xF4 s

/-- The table's invalid entry `FC` (R267). -/
def execInvalidFC (s : State) : Result :=
  invalidEntry 0xFC s

/-- The table's invalid entry `FD` (R267). -/
def execInvalidFD (s : State) : Result :=
  invalidEntry 0xFD s

/-- The extended entry of a second opcode byte `op2` (R113): the field `x` selects shift, `BIT`, `RES` or `SET`, `y` the
operation or the bit, `z` the operand. The state has `PC` past `op2`. -/
def execExtendedEntry (op2 : Byte) (s : State) : Result :=
  let b := bits3Of (fieldY op2)
  match fieldX op2, reg8Of (fieldZ op2) with
  | 0, some r =>
    match fieldY op2 with
    | 0 => execRlcR r s
    | 1 => execRrcR r s
    | 2 => execRlR r s
    | 3 => execRrR r s
    | 4 => execSlaR r s
    | 5 => execSraR r s
    | 6 => execSwapR r s
    | _ => execSrlR r s
  | 0, none =>
    match fieldY op2 with
    | 0 => execRlcHl s
    | 1 => execRrcHl s
    | 2 => execRlHl s
    | 3 => execRrHl s
    | 4 => execSlaHl s
    | 5 => execSraHl s
    | 6 => execSwapHl s
    | _ => execSrlHl s
  | 1, some r => execBitBR b r s
  | 1, none => execBitBHl b s
  | 2, some r => execResBR b r s
  | 2, none => execResBHl b s
  | _, some r => execSetBR b r s
  | _, none => execSetBHl b s

/-- `PREFIX CB` (R265): one more byte is read with `imm8()` and the entry of the extended table it selects is executed; the
cost charged is that entry's alone. While `PREFIX_CODE` is `0xCB`
the decoder gives this instruction only for that byte with nothing after it: the fetch step reads both bytes itself (R101,
R305). -/
def execPrefixCb (s : State) : Result :=
  execExtendedEntry (s.read s.regs.pc) s.imm8

end Sys2Proof.Machine
end

