-- ==== Sys2Proof/Machine/CpuStep.lean ====
section
/-! DEFINITION. The CPU's step (60_exceptions.md section 1). -/

namespace Sys2Proof.Machine

/-- Step (a) of R305: a pending enable is committed just before the fetch (R306). -/
def State.commitIme (s : State) : State :=
  if s.imePending then { s with ime := true, imePending := false } else s

/-- Step (c) of R305: `PC` moves past the opcode byte, except that a halt-bug fetch leaves it and clears the flag (R307). -/
def State.passOpcode (s : State) : State :=
  if s.haltBug then { s with haltBug := false } else s.setPc (s.regs.pc + 1)

/-- Step (b) of R305: the opcode byte at `PC`. -/
def State.opcodeAt (s : State) : Byte := s.read s.regs.pc

/-- The opcode byte at `PC` is a primary one of `INVALID_SET` (R114, R267): step (d) of R305 asks for the prefix first. -/
def State.invalidAt (s : State) : Bool :=
  s.opcodeAt != s.params.prefixCode && s.params.invalidSet.contains s.opcodeAt

/-- The instruction the tables give for the bytes at `PC`: the opcode byte, and the bytes that follow where `PC` stands once
it is passed. Reads change nothing (R77), so the operand bytes may be read ahead of the instruction. -/
def State.fetched (s : State) : Instr :=
  let s1 := s.passOpcode
  decodeFetched s.params.prefixCode s.opcodeAt (s1.read s1.regs.pc) (s1.read (s1.regs.pc + 1))

/-- `PC` past the opcode byte, and past an extended instruction's second byte (R10, R305). -/
def State.passOpcodes (s : State) (i : Instr) : State :=
  if i.isExtended then s.passOpcode.imm8 else s.passOpcode

/-- Fetch, execute and charge (R305), on the state with the enable committed: the invalid handler for an opcode byte of
`INVALID_SET`, otherwise the instruction of the tables. -/
def State.runFetched (s : State) : Result :=
  if s.invalidAt then invalidEntry s.opcodeAt s.passOpcode else exec s.fetched (s.passOpcodes s.fetched)

/-- `CPU_step` (R300): count down, dispatch, idle, or execute (clearing `halted` first, R304), the first that applies. -/
def cpuStep (s : State) : Result :=
  if s.ticksRemaining ≠ 0 then .next { s with ticksRemaining := s.ticksRemaining - 1 }
  else
    match s.ime, lowestSource s.pending with
    | true, some i => .next (s.dispatch i)
    | _, _ =>
      if s.halted = true ∧ s.pending = 0 then .next s
      else State.runFetched (State.commitIme { s with halted := false })

end Sys2Proof.Machine
end

