-- ==== Sys2Proof/Machine/Render.lean ====
section
/-! DEFINITION. The object scan and the line renderer (60_exceptions.md section 6). Both read VRAM and OAM directly, past the
gates (R79). The columns of a line do not depend on one another, so a line is given column by column. -/

namespace Sys2Proof.Machine

/-- `VRAM[off]`, read directly (R45). -/
def Bus.vramByte (b : Bus) (off : Nat) : Byte := storedByte b.mem (0x8000 + off)

/-- `OAM[k]`, read directly (R46). -/
def Bus.oamByte (b : Bus) (k : Nat) : Byte := storedByte b.mem (0xFE00 + k)

/-! ## Object scan (R350) -/

/-- `h`, the object height: 16 if `LCDC[2] = 1`, else 8. -/
def Ppu.objHeight (p : Ppu) : Nat := if p.lcdc.getLsbD 2 then 16 else 8

/-- Object `k` covers the line `LY`, on unbounded integers (R350). -/
def Bus.objCovers (b : Bus) (k : Nat) : Bool :=
  let top : Int := ((b.oamByte (4 * k)).toNat : Int) - 16
  decide (top ≤ (b.ppu.ly.toNat : Int) ∧ (b.ppu.ly.toNat : Int) < top + b.ppu.objHeight)

/-- The first ten objects in table order that cover the line (R350). -/
def Bus.scannedObjs (b : Bus) : List Nat :=
  (List.range 40).foldl (fun objs k => if objs.length < 10 ∧ b.objCovers k then objs ++ [k] else objs) []

/-- The object scan on entry to mode 2 (R350). -/
def Bus.objectScan (b : Bus) : Bus := { b with ppu := { b.ppu with lineObjs := b.scannedObjs } }

/-! ## Background and window (R353 to R355) -/

/-- `{hi[k], lo[k]}`, a colour index from its two bit planes (R354). -/
def planeIndex (lo hi : Byte) (k : Nat) : BitVec 2 := BitVec.ofBool (hi.getLsbD k) ++ BitVec.ofBool (lo.getLsbD k)

/-- The shade of a colour index: bits `2k+1..2k` of the palette (R42). -/
def shadeOf (palette : Byte) (idx : BitVec 2) : BitVec 2 := palette.extractLsb' (2 * idx.toNat) 2

/-- Column `x` shows the window (R353). -/
def Ppu.inWindow (p : Ppu) (x : Nat) : Bool :=
  p.lcdc.getLsbD 5 && decide (p.wy.toNat ≤ p.ly.toNat) && decide (p.wx.toNat ≤ x + 7)

/-- The offset in VRAM of a tile map: 9C00 if the select bit is 1, else 9800 (R353). -/
def mapOffset (select : Bool) : Nat := if select then 0x1C00 else 0x1800

/-- The source column, source row and tile map of column `x` (R353). -/
def Ppu.source (p : Ppu) (x : Nat) : Nat × Nat × Nat :=
  if p.inWindow x then (x + 7 - p.wx.toNat, p.ly.toNat - p.wy.toNat, mapOffset (p.lcdc.getLsbD 6))
  else ((x + p.scx.toNat) % 256, (p.ly.toNat + p.scy.toNat) % 256, mapOffset (p.lcdc.getLsbD 3))

/-- The offset in VRAM of the data of background tile `t`: unsigned from 8000 if `LCDC[4] = 1`, else signed from 9000 (R354). -/
def Ppu.tileOffset (p : Ppu) (t : Byte) : Nat :=
  if p.lcdc.getLsbD 4 then 16 * t.toNat else (0x1000 + 16 * t.toInt).toNat

/-- The colour index of the background or window in column `x` (R353, R354). -/
def Bus.tileIndex (b : Bus) (x : Nat) : BitVec 2 :=
  let (px, py, map) := b.ppu.source x
  let t := b.vramByte (map + 32 * (py / 8) + px / 8)
  let base := b.ppu.tileOffset t
  planeIndex (b.vramByte (base + 2 * (py % 8))) (b.vramByte (base + 2 * (py % 8) + 1)) (7 - px % 8)

/-- `bgidx[x]`: 0 when `LCDC[0] = 0` (R355). -/
def Bus.bgIndex (b : Bus) (x : Nat) : BitVec 2 := if b.ppu.lcdc.getLsbD 0 then b.tileIndex x else 0

/-- The background shade of column `x`: 0 when `LCDC[0] = 0` (R355). -/
def Bus.bgShade (b : Bus) (x : Nat) : BitVec 2 :=
  if b.ppu.lcdc.getLsbD 0 then shadeOf b.ppu.bgp (b.tileIndex x) else 0

/-! ## Objects (R356, R357) -/

/-- `VRAM[off]` for an offset that may lie outside video memory, where the byte is free (R356 states none). -/
def Bus.objTileByte (b : Bus) (off : Int) : Byte :=
  if 0 ≤ off ∧ off < 0x2000 then b.vramByte off.toNat else Config.strayTileByte off

/-- The row of object `k` on the line `LY`, after the Y flip of `at[6]` (R356). -/
def Bus.objRow (b : Bus) (k : Nat) : Int :=
  let row : Int := (b.ppu.ly.toNat : Int) - (((b.oamByte (4 * k)).toNat : Int) - 16)
  if (b.oamByte (4 * k + 3)).getLsbD 6 then (b.ppu.objHeight : Int) - 1 - row else row

/-- The tile number of object `k`: even for 16-line objects (R356). -/
def Bus.objTile (b : Bus) (k : Nat) : Nat :=
  let t := b.oamByte (4 * k + 2)
  if b.ppu.objHeight = 16 then (t &&& 0xFE).toNat else t.toNat

/-- The colour index object `k` has in column `x`, 0 (transparent) where it does not reach (R356). -/
def Bus.objIndex (b : Bus) (k x : Nat) : BitVec 2 :=
  let c : Int := (x : Int) - ((b.oamByte (4 * k + 1)).toNat : Int) + 8
  if 0 ≤ c ∧ c ≤ 7 then
    let off : Int := 16 * (b.objTile k : Int) + 2 * b.objRow k
    let k' := if (b.oamByte (4 * k + 3)).getLsbD 5 then c.toNat else 7 - c.toNat
    planeIndex (b.objTileByte off) (b.objTileByte (off + 1)) k'
  else 0

/-- One object's part in column `x`, on `(taken[x], frame[LY][x])`: skipped if transparent or taken; else the column is
taken, and drawn unless the object is behind a non-zero background (R356). -/
def Bus.drawObj (b : Bus) (x : Nat) (cell : Bool × BitVec 2) (k : Nat) : Bool × BitVec 2 :=
  let idx := b.objIndex k x
  let attr := b.oamByte (4 * k + 3)
  if idx = 0 ∨ cell.1 = true then cell
  else if attr.getLsbD 7 = true ∧ b.bgIndex x ≠ 0 then (true, cell.2)
  else (true, shadeOf (if attr.getLsbD 4 then b.ppu.obp1 else b.ppu.obp0) idx)

/-- `frame[LY][x]` (R355, R356): objects in list order over the background, none when `LCDC[1] = 0`. -/
def Bus.pixel (b : Bus) (x : Nat) : BitVec 2 :=
  if b.ppu.lcdc.getLsbD 1 then (b.ppu.lineObjs.foldl (b.drawObj x) (false, b.bgShade x)).2 else b.bgShade x

/-- The frame with row `y` written, its rows kept in rising order. -/
def writeRow : List (Nat × List (BitVec 2)) → Nat → List (BitVec 2) → List (Nat × List (BitVec 2))
  | [], y, row => [(y, row)]
  | (k, r) :: rows, y, row =>
    if y < k then (y, row) :: (k, r) :: rows
    else if y = k then (y, row) :: rows
    else (k, r) :: writeRow rows y row

/-- The whole line `LY` drawn at once, on entry to mode 3 (R352). -/
def Bus.renderLine (b : Bus) : Bus :=
  { b with ppu := { b.ppu with frame := writeRow b.ppu.frame b.ppu.ly.toNat ((List.range 160).map b.pixel) } }

/-- The row of the frame, if it has been drawn since launch. -/
def readRow : List (Nat × List (BitVec 2)) → Nat → Option (List (BitVec 2))
  | [], _ => none
  | (k, r) :: rows, y => if y = k then some r else readRow rows y

/-- The cell the host reads at the handover (R359): its initial shade while its row has not been drawn (R405). -/
def Ppu.framePixel (p : Ppu) (y x : Nat) : BitVec 2 :=
  match readRow p.frame y with
  | some row => row.getD x 0
  | none => Config.initFrame y x

end Sys2Proof.Machine
end

