-- ==== Sys2Proof/Machine/PpuStep.lean ====
section
/-! DEFINITION. The display engine's step (60_exceptions.md section 5): the mode machine, then the LYC comparison. -/

namespace Sys2Proof.Machine

/-- The `STAT` select bit of an entered mode is set (R346): `STAT[3]`, `STAT[4]`, `STAT[5]` for modes 0, 1, 2; mode 3 has
none. -/
def Ppu.selects (p : Ppu) : Mode → Bool
  | .hblank => p.statSelect.getLsbD 0
  | .vblank => p.statSelect.getLsbD 1
  | .oamScan => p.statSelect.getLsbD 2
  | .draw => false

/-- The entry effect of a mode (R346). -/
def Bus.entryEffect (b : Bus) : Mode → Bus
  | .hblank => b
  | .vblank => b.request 0
  | .oamScan => b.objectScan
  | .draw => b.renderLine

/-- `enter(m)` (R346): the mode and its counter, the entry effect, then the STAT request. -/
def Bus.enterMode (b : Bus) (m : Mode) : Bus :=
  let b1 := { b with ppu := { b.ppu with mode := m, modeTicks := 0 } }
  let b2 := b1.entryEffect m
  if b2.ppu.selects m then b2.request 1 else b2

/-- `LY <- v`. -/
def Bus.setLy (b : Bus) (v : Byte) : Bus := { b with ppu := { b.ppu with ly := v } }

/-- The transitions of the enabled display, the counter already advanced (R342 to R345). -/
def Bus.transition (b : Bus) : Bus :=
  match b.ppu.mode with
  | .oamScan => if b.ppu.modeTicks = Config.oamScanTicks then b.enterMode .draw else b
  | .draw => if b.ppu.modeTicks = Config.drawTicks then b.enterMode .hblank else b
  | .hblank =>
    if b.ppu.modeTicks = Config.hblankTicks then
      let b1 := b.setLy (b.ppu.ly + 1)
      if b1.ppu.ly = 144 then b1.enterMode .vblank else b1.enterMode .oamScan
    else b
  | .vblank =>
    if b.ppu.modeTicks = Config.lineTicks then
      if b.ppu.ly = 153 then (b.setLy 0).enterMode .oamScan
      else { b with ppu := { b.ppu with ly := b.ppu.ly + 1, modeTicks := 0 } }
    else b

/-- The mode machine of one tick (R340): the forcing of a disabled display (R341), or the count and a transition. -/
def Bus.modeMachine (b : Bus) : Bus :=
  if b.ppu.enabled then
    Bus.transition { b with ppu := { b.ppu with modeTicks := b.ppu.modeTicks + 1 } }
  else { b with ppu := { b.ppu with ly := 0, mode := .hblank, modeTicks := 0 } }

/-- The LYC comparison (R347): STAT is requested on the false-to-true edge if `STAT[6] = 1`. -/
def Bus.compareLyc (b : Bus) : Bus :=
  let eq : Bool := b.ppu.ly == b.ppu.lyc
  let b1 := if eq && !b.ppu.lycEqual && b.ppu.statSelect.getLsbD 3 then b.request 1 else b
  { b1 with ppu := { b1.ppu with lycEqual := eq } }

/-- `PPU_step` (R340). -/
def Bus.ppuStep (b : Bus) : Bus := b.modeMachine.compareLyc

end Sys2Proof.Machine
end

