-- ==== Sys2Proof/Machine/Tick.lean ====
section
/-! DEFINITION. The master clock's tick (60_exceptions.md section 7). -/

namespace Sys2Proof.Machine

/-- `Timer_step` (R367): the null timer does nothing. -/
def Device.timerStep : Device → Device
  | .null => .null
  | .attached st => .attached (Config.timerNext st)

/-- The request `Timer_step` makes, as bit 2 of the request input (R362). -/
def Device.timerRequest : Device → BitVec 5
  | .null => 0
  | .attached st => if Config.timerRequests st then 0b00100 else 0

/-- `ext_irq(T)` (R362): the outside's input for this tick with the timer's own decision in bit 2. -/
def State.extRequests (s : State) : BitVec 5 := s.extIrq.headD 0 ||| s.bus.timer.timerRequest

/-- Phase (3) of the tick: the timer steps and the requests of bits 4..2 enter `IF` (R362). -/
def State.peripheralStep (s : State) : State :=
  { s with
    bus := { s.bus with ifReg := s.bus.ifReg ||| (s.extRequests &&& 0b11100), timer := s.bus.timer.timerStep }
    extIrq := s.extIrq.tail }

/-- Phase (4): `frame_tick <- (frame_tick + 1) mod 70224` (R363). -/
def State.countFrame (s : State) : State := { s with frameTick := (s.frameTick + 1) % Config.frameTicks }

/-- The phases of a tick after the CPU's: display engine, timer and requests, frame count (R360). -/
def State.afterCpu (s : State) : State := State.countFrame (State.peripheralStep { s with bus := s.bus.ppuStep })

/-- `Tick` (R360). -/
def tick (s : State) : Result :=
  match cpuStep s with
  | .next t => .next t.afterCpu
  | .fault r => .fault r
  | .refused r => .refused r

end Sys2Proof.Machine
end

