-- ==== Sys2Proof/Machine/Step.lean ====
section
/-! DEFINITION. The machine's step, which is one `Tick` of the block, and the placing of an instruction where the next step
fetches it. -/

namespace Sys2Proof.Machine

/-- One step: one tick of the master clock (R360). -/
def step (s : State) : Host.Outcome State Fault Refusal := tick s

/-- The address belongs to storage the launch or the program can fill and a fetch can read: the mapped overlay, a ROM-only
cartridge's image, work RAM, HRAM, or ungated video memory. -/
def Bus.placeable (b : Bus) (a : Nat) : Bool :=
  match ownerOf a with
  | .overlay => b.bootMapped || (match b.cart with | .romOnly _ => true | .banked _ => false)
  | .cart => decide (a < 0x8000) && (match b.cart with | .romOnly _ => true | .banked _ => false)
  | .vram => !b.ppu.vramBlocked
  | .oam => !b.ppu.oamBlocked
  | .wram | .hram => true
  | _ => false

/-- A byte put into a ROM-only cartridge's image. -/
def Cart.place (cart : Cart) (a : Nat) (v : Byte) : Cart :=
  match cart with
  | .romOnly rom => .romOnly (writeCell rom a v)
  | .banked st => .banked st

/-- A byte put into the storage a fetch of the address reads. -/
def Bus.place (b : Bus) (a : Nat) (v : Byte) : Bus :=
  match ownerOf a with
  | .overlay =>
    if b.bootMapped then { b with boot := writeCell b.boot a v } else { b with cart := b.cart.place a v }
  | .cart => { b with cart := b.cart.place a v }
  | _ => b.store a v

/-- A table word's instruction stored where the next step fetches it: the tick is a boundary that neither dispatches nor
idles nor carries the halt bug, the word's three bytes stand from `PC` on (from the start of work RAM, with `PC` there,
where `PC` points at no storage), and nothing else changes. -/
def State.withFetchWord (s : State) (nbits w : Nat) : State :=
  let pc := s.regs.pc
  let at' : Word :=
    if s.bus.placeable pc.toNat && s.bus.placeable (pc + 1).toNat && s.bus.placeable (pc + 2).toNat then pc
    else 0xC000
  let b := { s.bus with ifReg := if s.ime then s.bus.ifReg &&& ~~~s.bus.ieReg else s.bus.ifReg }
  let b1 := b.place at'.toNat (tableByte nbits w 0)
  let b2 := b1.place (at' + 1).toNat (tableByte nbits w 1)
  let b3 := b2.place (at' + 2).toNat (tableByte nbits w 2)
  { s with
    regs := { s.regs with pc := at' }
    ticksRemaining := 0, halted := false, haltBug := false
    bus := b3 }

end Sys2Proof.Machine
end

