-- ==== Sys2Proof/Safety.lean ====
section
/-! DEFINITION. What the statements are written in: the invariant of the block, what a store may make a later read answer
differently, and the shapes of an instruction's effect. Nothing here is called by the machine. -/

namespace Sys2Proof.Machine

/-! ## The invariant of a tick -/

/-- Every entry of a memory stands in plain storage: VRAM, work RAM, OAM or HRAM (R45, R51, R46, R32). -/
def Memory.inStorage (m : Memory) : Bool :=
  m.all fun cell =>
    ownerOf cell.1 == .vram || ownerOf cell.1 == .wram || ownerOf cell.1 == .oam || ownerOf cell.1 == .hram

/-- The ranges of `LY` and `mode_ticks` by mode (R39, R340). -/
def Ppu.rangesOk (p : Ppu) : Prop :=
  match p.mode with
  | .oamScan => p.ly.toNat ≤ 143 ∧ p.modeTicks < 80
  | .draw => p.ly.toNat ≤ 143 ∧ p.modeTicks < 172
  | .hblank => p.ly.toNat ≤ 143 ∧ p.modeTicks < 204
  | .vblank => 144 ≤ p.ly.toNat ∧ p.ly.toNat ≤ 153 ∧ p.modeTicks < 456

/-- A disabled display stands at line 0 in mode 0 (R341). -/
def Ppu.disabledOk (p : Ppu) : Prop := p.enabled = false → p.ly = 0 ∧ p.mode = .hblank ∧ p.modeTicks = 0

/-- At most ten object numbers below 40, in ascending order (R47). -/
def Ppu.lineObjsOk (p : Ppu) : Prop :=
  p.lineObjs.length ≤ 10 ∧ p.lineObjs.Pairwise (· < ·) ∧ ∀ k ∈ p.lineObjs, k < 40

/-- The rows of the frame: lines 0 to 143 in rising order, 160 shades each (R48). -/
def Ppu.frameOk (p : Ppu) : Prop :=
  p.frame.Pairwise (·.1 < ·.1) ∧ ∀ row ∈ p.frame, row.1 < 144 ∧ row.2.length = 160

/-- The display engine's part of the invariant that a CPU step cannot break. -/
structure Ppu.Ok (p : Ppu) : Prop where
  ranges : p.rangesOk
  objs : p.lineObjsOk
  frame : p.frameOk

/-- `halt_bug` is 1 only from the `HALT` that set it to the next opcode fetch, with what that `HALT` found still true (R31,
R307). -/
def State.haltBugOk (s : State) : Prop :=
  s.haltBug = true → s.halted = true ∧ s.ime = false ∧ s.imePending = false ∧ s.pending ≠ 0

/-- The invariant every tick keeps. -/
structure State.Inv (s : State) : Prop where
  /-- The memory is in its canonical form and lists plain storage only. -/
  memWf : Memory.wf s.bus.mem = true
  memStorage : Memory.inStorage s.bus.mem = true
  /-- The display engine (R39, R47, R48). -/
  ppu : s.bus.ppu.Ok
  /-- The display engine after its step (R341, R347). -/
  disabled : s.bus.ppu.disabledOk
  lycEqual : s.bus.ppu.lycEqual = (s.bus.ppu.ly == s.bus.ppu.lyc)
  /-- The halt bug (R31). -/
  haltBug : s.haltBugOk
  /-- The frame count (R49). -/
  frameTick : s.frameTick < 70224

/-- A safe state: the next tick runs to its end (R320: no fault, and no instruction is refused). -/
def State.Safe (s : State) : Prop := ∃ t, step s = .next t

/-! ## What a store changes for later reads -/

/-- Addresses whose read may differ after a bus write to `a`: the address itself where it is storage or a register; for
`LCDC` also VRAM and OAM, whose gates it moves; for `DMA` also OAM; for `FF50` the overlay's range; for a cartridge or a device
the addresses of that collaborator; none where no row of the map holds `a` (R62, R66, R70 to R73). -/
def mayChange (a x : Word) : Bool :=
  match ownerOf a.toNat with
  | .vram | .wram | .oam | .hram | .ifReg | .ieReg => x == a
  | .display =>
    x == a || (a == 0xFF40 && (ownerOf x.toNat == .vram || ownerOf x.toNat == .oam))
      || (a == 0xFF46 && ownerOf x.toNat == .oam)
  | .bootUnmap => ownerOf x.toNat == .overlay
  | .overlay | .cart => ownerOf x.toNat == .overlay || ownerOf x.toNat == .cart
  | .joypad => ownerOf x.toNat == .joypad
  | .serial => ownerOf x.toNat == .serial
  | .timer => ownerOf x.toNat == .timer
  | .unmapped => false

/-! ## Shapes of an instruction's effect

Each says that `exec` answers a next state, which one, and so what stays: everything the record update does not name. -/

/-- The tick count an instruction leaves (R305, step e). -/
def chargeOf (s : State) (i : Instr) : Nat := max (baseTicks s.params i) 1 - 1

/-- The tick count a taken conditional transfer leaves (R305, step e). -/
def chargeTaken (s : State) (i : Instr) : Nat := max (baseTicks s.params i + takenExtra s.params i) 1 - 1

/-- The state with another register file and tick count, and nothing else changed. -/
def State.withRegs (s : State) (r : Regs) (ticks : Nat) : State := { s with regs := r, ticksRemaining := ticks }

/-- `i` completes in `s`, changes the register file to `r`, stores nothing: every address reads as before. -/
def LeavesRegs (i : Instr) (s : State) (r : Regs) : Prop :=
  exec i s = .next (s.withRegs r (chargeOf s i)) ∧ ∀ x, (s.withRegs r (chargeOf s i)).read x = s.read x

/-- The same for a conditional transfer that is taken. -/
def LeavesRegsTaken (i : Instr) (s : State) (r : Regs) : Prop :=
  exec i s = .next (s.withRegs r (chargeTaken s i)) ∧ ∀ x, (s.withRegs r (chargeTaken s i)).read x = s.read x

/-- The state with another register file and tick count and the bus after a list of byte stores, in their order. -/
def State.withStores (s : State) (r : Regs) (ticks : Nat) (stores : List (Word × Byte)) : State :=
  { s with
    regs := r, ticksRemaining := ticks
    bus := stores.foldl (fun b st => b.write s.params st.1 st.2) s.bus }

/-- `i` completes in `s`, leaves the register file `r` and makes exactly the byte stores listed: every address that none of
them may change reads as before. -/
def LeavesStores (i : Instr) (s : State) (r : Regs) (stores : List (Word × Byte)) : Prop :=
  exec i s = .next (s.withStores r (chargeOf s i) stores) ∧
    ∀ x, (∀ st ∈ stores, mayChange st.1 x = false) → (s.withStores r (chargeOf s i) stores).read x = s.read x

/-- The same for a conditional transfer that is taken. -/
def LeavesStoresTaken (i : Instr) (s : State) (r : Regs) (stores : List (Word × Byte)) : Prop :=
  exec i s = .next (s.withStores r (chargeTaken s i) stores) ∧
    ∀ x, (∀ st ∈ stores, mayChange st.1 x = false) → (s.withStores r (chargeTaken s i) stores).read x = s.read x

/-- Between the register files `r` and `r'`: `rd` holds `v`, the flags are `f`, `PC` is `pc`, every other register is the
same. -/
structure WritesReg (rd : Reg8) (v : Byte) (f : Flags) (pc : Word) (r r' : Regs) : Prop where
  value : r'.get8 rd = v
  others : ∀ q, q ≠ rd → r'.get8 q = r.get8 q
  flags : r'.flags = f
  sp : r'.sp = r.sp
  pc : r'.pc = pc

/-- Between the register files `r` and `r'`: the pair (or `SP`) `p` holds `v`, the flags are `f`, `PC` is `pc`, every register
outside the pair is the same. -/
structure WritesPair (p : Reg16) (v : Word) (f : Flags) (pc : Word) (r r' : Regs) : Prop where
  value : r'.get16 p = v
  others : ∀ q, q ≠ p → r'.get16 q = r.get16 q
  acc : r'.a = r.a
  flags : r'.flags = f
  pc : r'.pc = pc

/-- `i` completes in `s`, writes `v` to the register `rd` and the flags `f`, `PC` is `pc`, and nothing else changes. -/
def LeavesReg (i : Instr) (s : State) (rd : Reg8) (v : Byte) (f : Flags) (pc : Word) : Prop :=
  ∃ r, WritesReg rd v f pc s.regs r ∧ LeavesRegs i s r

/-- `i` completes in `s`, writes `v` to the pair or `SP` `p` and the flags `f`, `PC` is `pc`, and nothing else changes. -/
def LeavesPair (i : Instr) (s : State) (p : Reg16) (v : Word) (f : Flags) (pc : Word) : Prop :=
  ∃ r, WritesPair p v f pc s.regs r ∧ LeavesRegs i s r

/-! ## Arithmetic shapes (R185) -/

/-- `i` adds `x` and the carry `c` to `A`: the 9-bit number of carry and result is the sum, the half-carry is bit 4 of
`A ^ x ^ A'`; nothing else changes. -/
def AddsToA (i : Instr) (s : State) (x : Byte) (c : Bool) (pc : Word) : Prop :=
  ∃ a f, LeavesReg i s .a a f pc ∧ a.toNat + 256 * f.c.toNat = s.regs.a.toNat + x.toNat + c.toNat ∧
    f.z = (a == 0) ∧ f.n = false ∧ f.h = (s.regs.a ^^^ x ^^^ a).getLsbD 4

/-- `i` subtracts `x` and the borrow `c` from `A`: the result and the borrow out of bit 7 make up the difference, the half-carry
is bit 4 of `A ^ x ^ A'`; nothing else changes. -/
def SubtractsFromA (i : Instr) (s : State) (x : Byte) (c : Bool) (pc : Word) : Prop :=
  ∃ a f, LeavesReg i s .a a f pc ∧ a.toNat + x.toNat + c.toNat = s.regs.a.toNat + 256 * f.c.toNat ∧
    f.z = (a == 0) ∧ f.n = true ∧ f.h = (s.regs.a ^^^ x ^^^ a).getLsbD 4

/-- `i` compares `A` with `x`: the flags are those of the subtraction, `A` and everything else stay. -/
def ComparesA (i : Instr) (s : State) (x : Byte) (pc : Word) : Prop :=
  ∃ f, LeavesRegs i s { s.regs with flags := f, pc := pc } ∧ f.z = (s.regs.a == x) ∧ f.n = true ∧
    f.h = decide (s.regs.a.toNat % 16 < x.toNat % 16) ∧ f.c = decide (s.regs.a.toNat < x.toNat)

/-- `i` combines `A` with `x` bit by bit by `op`; `Z` is the result's, `N` and `Cy` are cleared, `Hf` is `h`. -/
def CombinesA (i : Instr) (s : State) (op : Bool → Bool → Bool) (x : Byte) (h : Bool) (pc : Word) : Prop :=
  ∃ a, LeavesReg i s .a a ⟨a == 0, false, h, false⟩ pc ∧
    ∀ k < 8, a.getLsbD k = op (s.regs.a.getLsbD k) (x.getLsbD k)

/-- The register form `ir` and the memory form `im` of a rotate or shift: the byte becomes `v`, the flags
`(v = 0, 0, 0, c)`; the register form writes the register, the memory form the byte at `HL`. -/
def Shifts (ir : Reg8 → Instr) (im : Instr) (s : State) (v : Byte → Byte) (c : Byte → Bool) : Prop :=
  (∀ r, LeavesReg (ir r) s r (v (s.get8 r)) ⟨v (s.get8 r) == 0, false, false, c (s.get8 r)⟩ s.regs.pc) ∧
    LeavesStores im s
      { s.regs with flags := ⟨v (s.read s.regs.hl) == 0, false, false, c (s.read s.regs.hl)⟩ }
      [(s.regs.hl, v (s.read s.regs.hl))]

/-! ## Tables of the spec -/

/-- The lengths of R103, by first byte. -/
def lengthTable : List Nat :=
  [1, 3, 1, 1, 1, 1, 2, 1, 3, 1, 1, 1, 1, 1, 2, 1] ++ [2, 3, 1, 1, 1, 1, 2, 1, 2, 1, 1, 1, 1, 1, 2, 1] ++
  [2, 3, 1, 1, 1, 1, 2, 1, 2, 1, 1, 1, 1, 1, 2, 1] ++ [2, 3, 1, 1, 1, 1, 2, 1, 2, 1, 1, 1, 1, 1, 2, 1] ++
  List.replicate 128 1 ++
  [1, 1, 3, 3, 3, 1, 2, 1, 1, 1, 3, 2, 3, 3, 2, 1] ++ [1, 1, 3, 1, 3, 1, 2, 1, 1, 1, 3, 1, 3, 1, 2, 1] ++
  [2, 1, 1, 1, 1, 1, 2, 1, 2, 1, 3, 1, 1, 1, 2, 1] ++ [2, 1, 1, 1, 1, 1, 2, 1, 2, 1, 3, 1, 1, 1, 2, 1]

/-- The invalid codes (R267). -/
def invalidCodes : List Byte := [0xD3, 0xDB, 0xDD, 0xE3, 0xE4, 0xEB, 0xEC, 0xED, 0xF4, 0xFC, 0xFD]

/-- The instructions of the invalid codes. -/
def invalidInstrs : List Instr :=
  [.invalidD3, .invalidDB, .invalidDD, .invalidE3, .invalidE4, .invalidEB, .invalidEC, .invalidED, .invalidF4,
    .invalidFC, .invalidFD]

/-- The cost the `Ticks:` line of an instruction's own rule gives it, a conditional transfer's when it is not taken. -/
def ruleTicks : Instr → Nat
  | .ldRR _ _ | .addAR _ | .adcAR _ | .subR _ | .sbcAR _ | .andR _ | .xorR _ | .orR _ | .cpR _ | .incR _ | .decR _
  | .daa | .cpl | .scf | .ccf | .rlca | .rla | .rrca | .rra | .jpHl | .nop | .halt | .stop _ | .di | .ei => 4
  | .ldRN _ _ | .ldRHl _ | .ldHlR _ | .ldABc | .ldADe | .ldBcA | .ldDeA | .ldhAC | .ldhCA | .ldHlIncA | .ldAHlInc
  | .ldHlDecA | .ldAHlDec | .ldSpHl | .addAHl | .addAN _ | .adcAHl | .adcAN _ | .subHl | .subN _ | .sbcAHl | .sbcAN _
  | .andHl | .andN _ | .xorHl | .xorN _ | .orHl | .orN _ | .cpHl | .cpN _ | .addHlRr _ | .incRr _ | .decRr _
  | .jrCcE _ _ | .retCc _ => 8
  | .rlcR _ | .rrcR _ | .rlR _ | .rrR _ | .slaR _ | .sraR _ | .swapR _ | .srlR _ | .bitBR _ _ | .resBR _ _
  | .setBR _ _ => 8
  | .ldHlN _ | .ldhAN _ | .ldhNA _ | .ldRrNn _ _ | .ldHlSpE _ | .popRr _ | .popAf | .incHl | .decHl | .jpCcNn _ _
  | .jrE _ | .callCcNn _ _ | .bitBHl _ => 12
  | .ldANn _ | .ldNnA _ | .pushRr _ | .addSpE _ | .jpNn _ | .ret | .reti | .rstT _ => 16
  | .rlcHl | .rrcHl | .rlHl | .rrHl | .slaHl | .sraHl | .swapHl | .srlHl | .resBHl _ | .setBHl _ => 16
  | .ldNnSp _ => 20
  | .callNn _ => 24
  | .invalidD3 | .invalidDB | .invalidDD | .invalidE3 | .invalidE4 | .invalidEB | .invalidEC | .invalidED | .invalidF4
  | .invalidFC | .invalidFD | .prefixCb => 0

/-- What the `Ticks:` line of a conditional transfer's rule adds when it is taken. -/
def ruleExtra : Instr → Nat
  | .jpCcNn _ _ | .jrCcE _ _ => 4
  | .callCcNn _ _ | .retCc _ => 12
  | _ => 0

/-! ## Other vocabulary -/

/-- Work RAM or high RAM: plain storage no gate closes (R63, R68). -/
def inRam (a : Word) : Prop := (0xC000 ≤ a.toNat ∧ a.toNat < 0xE000) ∨ (0xFF80 ≤ a.toNat ∧ a.toNat ≤ 0xFFFE)

/-- The instruction that pops a pair (R165, R166). -/
def popOf : StackPair → Instr
  | .af => .popAf
  | p => .popRr p

/-- The display engine's step repeated. -/
def Bus.ppuRun : Nat → Bus → Bus
  | 0, b => b
  | n + 1, b => (b.ppuRun n).ppuStep

/-- The state with other rows in the frame. -/
def State.withFrame (s : State) (rows : List (Nat × List (BitVec 2))) : State :=
  { s with bus := { s.bus with ppu := { s.bus.ppu with frame := rows } } }

/-- The tick is an instruction boundary at which an instruction is fetched: no dispatch and no idling (R300, R305). -/
def State.fetches (s : State) : Prop :=
  s.ticksRemaining = 0 ∧ (s.ime = false ∨ s.pending = 0) ∧ (s.halted = false ∨ s.pending ≠ 0)

/-- The state in which the fetched instruction executes (R304, R305): awake, a pending enable committed, `PC` moved on by
`n` bytes, the halt bug spent. -/
def State.atExecute (s : State) (n : Word) : State :=
  { s with
    regs := { s.regs with pc := s.regs.pc + n }, halted := false, ime := s.ime || s.imePending, imePending := false
    haltBug := false }

end Sys2Proof.Machine
end

