-- ==== Sys2Proof/Certificates/Slice0/Obligations.lean ====
section
/-! DEFINITION. The statements about the block, from the numbered rules of spec/. `LeavesReg`, `LeavesRegs`, `LeavesPair`,
`LeavesStores` (Safety.lean) say that `exec` answers a next state and which: everything they do not name is unchanged. -/

section
open Sys2Proof Sys2Proof.Machine

/-! ## Encoding -/

/-- R100 to R113: every well-formed instruction decodes back from its own bytes; whatever bytes follow are left over (`PREFIX CB`
stands alone: a byte after it is its second opcode byte, R101, and that it decodes alone is the model's reading, log 12). The same
with any `PREFIX_CODE` (R6), for every instruction but the primary one whose code that prefix takes (that `CB` is then the row
`PREFIX CB` is the model's choice, log 2). -/
def Obligations.DecodeOfEncodeIsTheInstruction : Prop :=
  ∀ i : Instr, i.wf = true →
    decode (encode i) = .ok (i, []) ∧
      (i ≠ .prefixCb → ∀ rest, decode (encode i ++ rest) = .ok (i, rest)) ∧
      (∀ pre rest, i.isExtended = true ∨ i.opcode ≠ pre → decodeWith pre (encodeWith pre i ++ rest) = .ok (i, rest))

/-- R116: a byte string that decodes is the encoding of what it decodes to, followed by the bytes left over, whatever the
`PREFIX_CODE` (R6), by default `0xCB` (what `CB` decodes to under another one is the model's choice, log 2). -/
def Obligations.EncodeOfDecodeIsTheBytes : Prop :=
  (∀ (pre : Byte) (bs : List Byte) (i : Instr) (rest : List Byte), decodeWith pre bs = .ok (i, rest) →
    encodeWith pre i ++ rest = bs ∧ i.wf = true) ∧
  ∀ (bs : List Byte) (i : Instr), decode bs = decodeWith 0xCB bs ∧ encode i = encodeWith 0xCB i

/-- R103: the first byte decides the length, by the table of R103 (2 for the prefix, which is at its default). -/
def Obligations.FirstByteDecidesLength : Prop :=
  ∀ op b1 b2 : Byte, (encode (decodeFetched 0xCB op b1 b2)).length = lengthTable.getD op.toNat 0

/-- Words written out bit by bit from the encodings of the instruction rules decode to the instructions they stand for. -/
def Obligations.WrittenOutWordsDecode : Prop :=
  decode [0b01000111] = .ok (.ldRR .b .a, []) ∧                       -- 01 ddd sss, R130
  decode [0b00100001, 0x34, 0x12] = .ok (.ldRrNn .hl 0x1234, []) ∧    -- 00 pp 0001 lo hi, R160
  decode [0b10010110] = .ok (.subHl, []) ∧                            -- 10 010 110, R173
  decode [0b00111001] = .ok (.addHlRr .sp, []) ∧                      -- 00 pp 1001, R200
  decode [0b11001011, 0b01101110] = .ok (.bitBHl 5, []) ∧             -- CB, 01 bbb 110, R222
  decode [0b00110000, 0xFE] = .ok (.jrCcE .nc 0xFE, []) ∧             -- 001 cc 000 e, R244
  decode [0b11110011] = .ok (.di, [])                                 -- 1111 0011, R263

/-- R267, R114, R6: the default `INVALID_SET` is the eleven codes, which, and no other first byte, decode to the invalid
instructions; each does nothing (`PC` stays past its one byte) and at the default tick table occupies one tick. Last clause: whatever
the parameters, a tick that fetches an opcode byte of `INVALID_SET` does nothing but wake the CPU, pass that byte (a halt-bug fetch
does not pass it and spends the flag, R307), commit a pending enable and charge the byte's `TICKS_PRIMARY` entry; then come the
tick's other phases. That this entry is the cost for every set and every table is the model's choice, DEDUCED from R305 (log 2): R267
and D15 call an invalid code zero-cost, which agrees with that entry only where it is 0, as the default table has it for the eleven. -/
def Obligations.InvalidCodesDoNothing : Prop :=
  (∀ op b1 b2 : Byte, decodeFetched 0xCB op b1 b2 ∈ invalidInstrs ↔ op ∈ invalidCodes) ∧
  (∀ i ∈ invalidInstrs, ∀ s : State, LeavesRegs i s s.regs) ∧
  (∀ i ∈ invalidInstrs, ∀ s : State, s.params = defaultParams → chargeOf s i = 0) ∧
  defaultParams.prefixCode = 0xCB ∧ (∀ op, op ∈ defaultParams.invalidSet ↔ op ∈ invalidCodes) ∧
  (∀ op ∈ invalidCodes, defaultParams.ticksPrimary.getD op.toNat 0 = 0) ∧
  ∀ s : State, s.fetches →
    let op := s.read s.regs.pc
    op ∈ s.params.invalidSet → op ≠ s.params.prefixCode →
      step s =
        .next
          (State.afterCpu
            { s.atExecute (if s.haltBug then 0 else 1) with
              ticksRemaining := max (s.params.ticksPrimary.getD op.toNat 0) 1 - 1 })

/-! ## 8-bit loads -/

/-- R130 to R132, R135, R136, R139, R141, R143: the loads into a register. The register holds the byte moved, no other
register, no flag and no memory changes; the address is formed from the registers as they were. -/
def Obligations.LoadsIntoARegister : Prop :=
  ∀ s : State,
    (∀ rd rs, LeavesReg (.ldRR rd rs) s rd (s.get8 rs) s.regs.flags s.regs.pc) ∧
    (∀ rd n, LeavesReg (.ldRN rd n) s rd n s.regs.flags (s.regs.pc + 1)) ∧
    (∀ rd, LeavesReg (.ldRHl rd) s rd (s.read s.regs.hl) s.regs.flags s.regs.pc) ∧
    LeavesReg .ldABc s .a (s.read s.regs.bc) s.regs.flags s.regs.pc ∧
    LeavesReg .ldADe s .a (s.read s.regs.de) s.regs.flags s.regs.pc ∧
    (∀ nn, LeavesReg (.ldANn nn) s .a (s.read nn) s.regs.flags (s.regs.pc + 2)) ∧
    (∀ n, LeavesReg (.ldhAN n) s .a (s.read (0xFF00 + n.setWidth 16)) s.regs.flags (s.regs.pc + 1)) ∧
    LeavesReg .ldhAC s .a (s.read (0xFF00 + s.regs.c.setWidth 16)) s.regs.flags s.regs.pc

/-- R133, R134, R137, R138, R140, R142, R144: the stores of one byte. One byte store at the address, no register but `PC` and
no flag changes; every address the store does not reach reads as before. -/
def Obligations.StoresOfAByte : Prop :=
  ∀ s : State,
    (∀ rs, LeavesStores (.ldHlR rs) s s.regs [(s.regs.hl, s.get8 rs)]) ∧
    (∀ n, LeavesStores (.ldHlN n) s { s.regs with pc := s.regs.pc + 1 } [(s.regs.hl, n)]) ∧
    LeavesStores .ldBcA s s.regs [(s.regs.bc, s.regs.a)] ∧
    LeavesStores .ldDeA s s.regs [(s.regs.de, s.regs.a)] ∧
    (∀ nn, LeavesStores (.ldNnA nn) s { s.regs with pc := s.regs.pc + 2 } [(nn, s.regs.a)]) ∧
    (∀ n, LeavesStores (.ldhNA n) s { s.regs with pc := s.regs.pc + 1 } [(0xFF00 + n.setWidth 16, s.regs.a)]) ∧
    LeavesStores .ldhCA s s.regs [(0xFF00 + s.regs.c.setWidth 16, s.regs.a)]

/-- R145 to R148: the loads and stores that step `HL`. The access is at the old `HL`, then `HL` moves by one, modulo 2^16. -/
def Obligations.LoadsAndStoresThatStepHl : Prop :=
  ∀ s : State,
    (∃ r, WritesPair .hl (s.regs.hl + 1) s.regs.flags s.regs.pc s.regs r ∧
      LeavesStores .ldHlIncA s r [(s.regs.hl, s.regs.a)]) ∧
    (∃ r, WritesPair .hl (s.regs.hl - 1) s.regs.flags s.regs.pc s.regs r ∧
      LeavesStores .ldHlDecA s r [(s.regs.hl, s.regs.a)]) ∧
    (∃ r, WritesPair .hl (s.regs.hl + 1) s.regs.flags s.regs.pc { s.regs with a := s.read s.regs.hl } r ∧
      LeavesRegs .ldAHlInc s r) ∧
    (∃ r, WritesPair .hl (s.regs.hl - 1) s.regs.flags s.regs.pc { s.regs with a := s.read s.regs.hl } r ∧
      LeavesRegs .ldAHlDec s r)

/-! ## 16-bit loads and the stack -/

/-- R160 to R162: `LD rr,nn`, `LD SP,HL`, and `LD (nn),SP`, which stores the low byte at `nn` and the high byte at `nn + 1`. -/
def Obligations.LoadsOf16Bits : Prop :=
  ∀ s : State,
    (∀ p nn, LeavesPair (.ldRrNn p nn) s p nn s.regs.flags (s.regs.pc + 2)) ∧
    LeavesPair .ldSpHl s .sp s.regs.hl s.regs.flags s.regs.pc ∧
    (∀ nn, LeavesStores (.ldNnSp nn) s { s.regs with pc := s.regs.pc + 2 }
      [(nn, s.regs.sp.setWidth 8), (nn + 1, (s.regs.sp >>> 8).setWidth 8)])

/-- R164, R21: `PUSH` stores the high half at `SP - 1`, then the low half at `SP - 2`, and `SP` is 2 lower; the pushed `F` has
its low nibble 0 and the flags above it. -/
def Obligations.PushStoresHighThenLow : Prop :=
  ∀ s : State,
    let r := { s.regs with sp := s.regs.sp - 2 }
    LeavesStores (.pushRr .bc) s r [(s.regs.sp - 1, s.regs.b), (s.regs.sp - 2, s.regs.c)] ∧
    LeavesStores (.pushRr .de) s r [(s.regs.sp - 1, s.regs.d), (s.regs.sp - 2, s.regs.e)] ∧
    LeavesStores (.pushRr .hl) s r [(s.regs.sp - 1, s.regs.h), (s.regs.sp - 2, s.regs.l)] ∧
    LeavesStores (.pushRr .af) s r [(s.regs.sp - 1, s.regs.a), (s.regs.sp - 2, s.regs.f)] ∧
    s.regs.f &&& 0x0F = 0 ∧ s.regs.f.getLsbD 7 = s.regs.flags.z ∧ s.regs.f.getLsbD 6 = s.regs.flags.n ∧
    s.regs.f.getLsbD 5 = s.regs.flags.h ∧ s.regs.f.getLsbD 4 = s.regs.flags.c

/-- R165, R166: `POP` takes the low half from `SP` and the high half from `SP + 1`, and `SP` is 2 higher; `POP AF` takes the
flags from bits 7 to 4 of the low byte and discards the rest. -/
def Obligations.PopReadsLowThenHigh : Prop :=
  ∀ s : State,
    let hi := s.read (s.regs.sp + 1)
    let lo := s.read s.regs.sp
    LeavesRegs (.popRr .bc) s { s.regs with b := hi, c := lo, sp := s.regs.sp + 2 } ∧
    LeavesRegs (.popRr .de) s { s.regs with d := hi, e := lo, sp := s.regs.sp + 2 } ∧
    LeavesRegs (.popRr .hl) s { s.regs with h := hi, l := lo, sp := s.regs.sp + 2 } ∧
    LeavesRegs .popAf s
      { s.regs with
        a := hi, flags := ⟨lo.getLsbD 7, lo.getLsbD 6, lo.getLsbD 5, lo.getLsbD 4⟩, sp := s.regs.sp + 2 }

/-- R165, R166: a push and the pop of the same pair, the two stack bytes lying in work or high RAM, restore every register. -/
def Obligations.PushThenPopRestoresTheRegisters : Prop :=
  ∀ (s : State) (p : StackPair), inRam (s.regs.sp - 1) → inRam (s.regs.sp - 2) →
    ∃ t u, exec (.pushRr p) s = .next t ∧ exec (popOf p) t = .next u ∧ u.regs = s.regs

/-! ## 8-bit arithmetic and logic -/

/-- R170 to R172, R185: `ADD` and `ADC` in their register, memory and immediate forms. -/
def Obligations.AddAndAdcMakeTheSum : Prop :=
  ∀ s : State,
    (∀ r, AddsToA (.addAR r) s (s.get8 r) false s.regs.pc) ∧
    AddsToA .addAHl s (s.read s.regs.hl) false s.regs.pc ∧
    (∀ n, AddsToA (.addAN n) s n false (s.regs.pc + 1)) ∧
    (∀ r, AddsToA (.adcAR r) s (s.get8 r) s.regs.flags.c s.regs.pc) ∧
    AddsToA .adcAHl s (s.read s.regs.hl) s.regs.flags.c s.regs.pc ∧
    (∀ n, AddsToA (.adcAN n) s n s.regs.flags.c (s.regs.pc + 1))

/-- R170, R173, R174, R178, R185: `SUB`, `SBC` and `CP` in their register, memory and immediate forms. -/
def Obligations.SubSbcAndCpMakeTheDifference : Prop :=
  ∀ s : State,
    (∀ r, SubtractsFromA (.subR r) s (s.get8 r) false s.regs.pc) ∧
    SubtractsFromA .subHl s (s.read s.regs.hl) false s.regs.pc ∧
    (∀ n, SubtractsFromA (.subN n) s n false (s.regs.pc + 1)) ∧
    (∀ r, SubtractsFromA (.sbcAR r) s (s.get8 r) s.regs.flags.c s.regs.pc) ∧
    SubtractsFromA .sbcAHl s (s.read s.regs.hl) s.regs.flags.c s.regs.pc ∧
    (∀ n, SubtractsFromA (.sbcAN n) s n s.regs.flags.c (s.regs.pc + 1)) ∧
    (∀ r, ComparesA (.cpR r) s (s.get8 r) s.regs.pc) ∧
    ComparesA .cpHl s (s.read s.regs.hl) s.regs.pc ∧
    (∀ n, ComparesA (.cpN n) s n (s.regs.pc + 1))

/-- R170, R175 to R177: `AND`, `XOR` and `OR` in their register, memory and immediate forms; `AND` sets `Hf`. -/
def Obligations.LogicWorksBitByBit : Prop :=
  ∀ s : State,
    (∀ r, CombinesA (.andR r) s (· && ·) (s.get8 r) true s.regs.pc) ∧
    CombinesA .andHl s (· && ·) (s.read s.regs.hl) true s.regs.pc ∧
    (∀ n, CombinesA (.andN n) s (· && ·) n true (s.regs.pc + 1)) ∧
    (∀ r, CombinesA (.xorR r) s (· ^^ ·) (s.get8 r) false s.regs.pc) ∧
    CombinesA .xorHl s (· ^^ ·) (s.read s.regs.hl) false s.regs.pc ∧
    (∀ n, CombinesA (.xorN n) s (· ^^ ·) n false (s.regs.pc + 1)) ∧
    (∀ r, CombinesA (.orR r) s (· || ·) (s.get8 r) false s.regs.pc) ∧
    CombinesA .orHl s (· || ·) (s.read s.regs.hl) false s.regs.pc ∧
    (∀ n, CombinesA (.orN n) s (· || ·) n false (s.regs.pc + 1))

/-- R179, R180: `INC` and `DEC` of a register and of the byte at `HL`, modulo 256; `Cy` stays. -/
def Obligations.IncAndDecOfAByte : Prop :=
  ∀ s : State,
    (∀ r, ∃ v, v.toNat = ((s.get8 r).toNat + 1) % 256 ∧
      LeavesReg (.incR r) s r v ⟨s.get8 r == 0xFF, false, (s.get8 r).toNat % 16 == 15, s.regs.flags.c⟩ s.regs.pc) ∧
    (∀ r, ∃ v, v.toNat = ((s.get8 r).toNat + 255) % 256 ∧
      LeavesReg (.decR r) s r v ⟨s.get8 r == 0x01, true, (s.get8 r).toNat % 16 == 0, s.regs.flags.c⟩ s.regs.pc) ∧
    (∃ v, v.toNat = ((s.read s.regs.hl).toNat + 1) % 256 ∧
      LeavesStores .incHl s
        { s.regs with
          flags := ⟨s.read s.regs.hl == 0xFF, false, (s.read s.regs.hl).toNat % 16 == 15, s.regs.flags.c⟩ }
        [(s.regs.hl, v)]) ∧
    (∃ v, v.toNat = ((s.read s.regs.hl).toNat + 255) % 256 ∧
      LeavesStores .decHl s
        { s.regs with
          flags := ⟨s.read s.regs.hl == 0x01, true, (s.read s.regs.hl).toNat % 16 == 0, s.regs.flags.c⟩ }
        [(s.regs.hl, v)])

/-- R181: `DAA` adds (after an addition) or subtracts (after a subtraction) a correction made of `0x60` and `0x06`, modulo 256;
`Z` from the result, `N` kept, `Hf` cleared, `Cy` set by a `0x60` correction after an addition and otherwise kept. -/
def Obligations.DaaAppliesTheCorrection : Prop :=
  ∀ s : State,
    let a := s.regs.a.toNat
    let f := s.regs.flags
    let high := f.c || (!f.n && decide (a > 0x99))
    let low := f.h || (!f.n && decide (a % 16 > 9))
    let corr := (if high then 0x60 else 0) + (if low then 0x06 else 0)
    ∃ v : Byte, v.toNat = (if f.n then a + 256 - corr else a + corr) % 256 ∧
      LeavesReg .daa s .a v ⟨v == 0, f.n, false, high⟩ s.regs.pc

/-- R181: after `ADC A,r` of packed decimal bytes, and after `SBC A,r`, `r` any register, `DAA` leaves the packed decimal sum or
difference modulo 100, with `Cy` the decimal carry or borrow. -/
def Obligations.DaaMakesPackedDecimal : Prop :=
  ∀ (s : State) (r : Reg8) (x y : Nat), x < 100 → y < 100 →
    s.regs.a = BitVec.ofNat 8 (16 * (x / 10) + x % 10) → s.get8 r = BitVec.ofNat 8 (16 * (y / 10) + y % 10) →
    (∃ t u, exec (.adcAR r) s = .next t ∧ exec .daa t = .next u ∧
      u.regs.a.toNat = 16 * ((x + y + s.regs.flags.c.toNat) / 10 % 10) + (x + y + s.regs.flags.c.toNat) % 10 ∧
      u.regs.flags.c = decide (x + y + s.regs.flags.c.toNat ≥ 100)) ∧
    (∃ t u, exec (.sbcAR r) s = .next t ∧ exec .daa t = .next u ∧
      u.regs.a.toNat = 16 * ((x + 100 - y - s.regs.flags.c.toNat) / 10 % 10) + (x + 100 - y - s.regs.flags.c.toNat) % 10 ∧
      u.regs.flags.c = decide (x < y + s.regs.flags.c.toNat))

/-- R182 to R184: `CPL`, `SCF`, `CCF`. -/
def Obligations.ComplementAndCarryFlags : Prop :=
  ∀ s : State,
    let f := s.regs.flags
    LeavesRegs .cpl s { s.regs with a := ~~~s.regs.a, flags := ⟨f.z, true, true, f.c⟩ } ∧
    LeavesRegs .scf s { s.regs with flags := ⟨f.z, false, false, true⟩ } ∧
    LeavesRegs .ccf s { s.regs with flags := ⟨f.z, false, false, !f.c⟩ }

/-! ## 16-bit arithmetic -/

/-- R200 to R202, R204: `ADD HL,rr` with its carries out of bits 11 and 15 and `Z` kept; `INC rr` and `DEC rr` touch no flag. -/
def Obligations.ArithmeticOnPairs : Prop :=
  ∀ (s : State) (p : Reg16),
    (∃ v c h, v.toNat + 0x10000 * c.toNat = s.regs.hl.toNat + (s.get16 p).toNat ∧
      h = (s.regs.hl ^^^ s.get16 p ^^^ v).getLsbD 12 ∧
      LeavesPair (.addHlRr p) s .hl v ⟨s.regs.flags.z, false, h, c⟩ s.regs.pc) ∧
    LeavesPair (.incRr p) s p (s.get16 p + 1) s.regs.flags s.regs.pc ∧
    LeavesPair (.decRr p) s p (s.get16 p - 1) s.regs.flags s.regs.pc

/-- R163, R203, R204: `ADD SP,e` and `LD HL,SP+e` add the offset read as a signed byte, modulo 2^16; the flags are those of the
unsigned addition of the low byte, `Z` and `N` cleared. -/
def Obligations.SignedOffsetsFromSp : Prop :=
  ∀ (s : State) (e : Byte),
    ∃ v f, (v.toNat : Int) = ((s.regs.sp.toNat : Int) + e.toInt) % 65536 ∧
      f = (⟨false, false, decide (s.regs.sp.toNat % 16 + e.toNat % 16 > 15),
        decide (s.regs.sp.toNat % 256 + e.toNat > 255)⟩ : Flags) ∧
      LeavesPair (.addSpE e) s .sp v f (s.regs.pc + 1) ∧ LeavesPair (.ldHlSpE e) s .hl v f (s.regs.pc + 1)

/-! ## Rotates, shifts, bits -/

/-- R210 to R213: the four rotates of `A`, which clear `Z`. `RLA` and `RRA` rotate the nine bits of `Cy` and `A`. -/
def Obligations.AccumulatorRotates : Prop :=
  ∀ s : State,
    let a := s.regs.a
    LeavesReg .rlca s .a (a.rotateLeft 1) ⟨false, false, false, a.getLsbD 7⟩ s.regs.pc ∧
    LeavesReg .rrca s .a (a.rotateRight 1) ⟨false, false, false, a.getLsbD 0⟩ s.regs.pc ∧
    (∃ v c, v.toNat + 256 * c.toNat = 2 * a.toNat + s.regs.flags.c.toNat ∧
      LeavesReg .rla s .a v ⟨false, false, false, c⟩ s.regs.pc) ∧
    (∃ v c, 2 * v.toNat + c.toNat = a.toNat + 256 * s.regs.flags.c.toNat ∧
      LeavesReg .rra s .a v ⟨false, false, false, c⟩ s.regs.pc)

/-- R214 to R221: the extended rotates and shifts, of a register and of the byte at `HL`; `Z` from the result, `Cy` the bit
shifted out. -/
def Obligations.ExtendedRotatesAndShifts : Prop :=
  ∀ s : State,
    let cy := s.regs.flags.c
    Shifts .rlcR .rlcHl s (fun v => v.rotateLeft 1) (fun v => v.getLsbD 7) ∧
    Shifts .rrcR .rrcHl s (fun v => v.rotateRight 1) (fun v => v.getLsbD 0) ∧
    Shifts .rlR .rlHl s (fun v => BitVec.ofNat 8 (2 * v.toNat + cy.toNat)) (fun v => decide (v.toNat ≥ 128)) ∧
    Shifts .rrR .rrHl s (fun v => BitVec.ofNat 8 ((v.toNat + 256 * cy.toNat) / 2)) (fun v => v.toNat % 2 == 1) ∧
    Shifts .slaR .slaHl s (fun v => v <<< 1) (fun v => decide (v.toNat ≥ 128)) ∧
    Shifts .sraR .sraHl s (fun v => v.sshiftRight 1) (fun v => v.toNat % 2 == 1) ∧
    Shifts .swapR .swapHl s (fun v => v.rotateLeft 4) (fun _ => false) ∧
    Shifts .srlR .srlHl s (fun v => v >>> 1) (fun v => v.toNat % 2 == 1)

/-- R222 to R224: `BIT b` writes the flags `(bit = 0, 0, 1, -)` and nothing else; `RES b` and `SET b` clear and set the one bit,
of a register and of the byte at `HL` (which is written even when the bit already has its value), and no flag changes. -/
def Obligations.BitResAndSetWorkOnOneBit : Prop :=
  ∀ (s : State) (b : BitVec 3),
    (∀ r, LeavesRegs (.bitBR b r) s
      { s.regs with flags := ⟨!(s.get8 r).getLsbD b.toNat, false, true, s.regs.flags.c⟩ }) ∧
    LeavesRegs (.bitBHl b) s
      { s.regs with flags := ⟨!(s.read s.regs.hl).getLsbD b.toNat, false, true, s.regs.flags.c⟩ } ∧
    (∀ r, ∃ v, (∀ k < 8, v.getLsbD k = ((s.get8 r).getLsbD k && k != b.toNat)) ∧
      LeavesReg (.resBR b r) s r v s.regs.flags s.regs.pc) ∧
    (∀ r, ∃ v, (∀ k < 8, v.getLsbD k = ((s.get8 r).getLsbD k || k == b.toNat)) ∧
      LeavesReg (.setBR b r) s r v s.regs.flags s.regs.pc) ∧
    (∃ v, (∀ k < 8, v.getLsbD k = ((s.read s.regs.hl).getLsbD k && k != b.toNat)) ∧
      LeavesStores (.resBHl b) s s.regs [(s.regs.hl, v)]) ∧
    (∃ v, (∀ k < 8, v.getLsbD k = ((s.read s.regs.hl).getLsbD k || k == b.toNat)) ∧
      LeavesStores (.setBHl b) s s.regs [(s.regs.hl, v)])

/-! ## Control transfer -/

/-- R240, R242, R243: the unconditional jumps; the base of `JR` is `PC` after its operand byte. -/
def Obligations.UnconditionalJumps : Prop :=
  ∀ s : State,
    (∀ nn, LeavesRegs (.jpNn nn) s { s.regs with pc := nn }) ∧
    LeavesRegs .jpHl s { s.regs with pc := s.regs.hl } ∧
    (∀ e, ∃ v : Word, (v.toNat : Int) = ((s.regs.pc.toNat : Int) + 1 + e.toInt) % 65536 ∧
      LeavesRegs (.jrE e) s { s.regs with pc := v })

/-- R106, R241, R244: `JP cc` and `JR cc`, taken and not taken, at their two costs. -/
def Obligations.ConditionalJumps : Prop :=
  (∀ f : Flags, f.holds .nz = !f.z ∧ f.holds .z = f.z ∧ f.holds .nc = !f.c ∧ f.holds .c = f.c) ∧
  ∀ (s : State) (cc : Cond),
    (s.regs.flags.holds cc = true →
      (∀ nn, LeavesRegsTaken (.jpCcNn cc nn) s { s.regs with pc := nn }) ∧
      (∀ e, ∃ v : Word, (v.toNat : Int) = ((s.regs.pc.toNat : Int) + 1 + e.toInt) % 65536 ∧
        LeavesRegsTaken (.jrCcE cc e) s { s.regs with pc := v })) ∧
    (s.regs.flags.holds cc = false →
      (∀ nn, LeavesRegs (.jpCcNn cc nn) s { s.regs with pc := s.regs.pc + 2 }) ∧
      (∀ e, LeavesRegs (.jrCcE cc e) s { s.regs with pc := s.regs.pc + 1 }))

/-- R245, R252: `CALL nn` and `RST t` push the address after the instruction, high byte first, and jump. -/
def Obligations.CallsPushTheReturnAddress : Prop :=
  ∀ s : State,
    (∀ nn, LeavesStores (.callNn nn) s { s.regs with sp := s.regs.sp - 2, pc := nn }
      [(s.regs.sp - 1, ((s.regs.pc + 2) >>> 8).setWidth 8), (s.regs.sp - 2, (s.regs.pc + 2).setWidth 8)]) ∧
    (∀ t : BitVec 3, LeavesStores (.rstT t) s { s.regs with sp := s.regs.sp - 2, pc := 8 * t.setWidth 16 }
      [(s.regs.sp - 1, (s.regs.pc >>> 8).setWidth 8), (s.regs.sp - 2, s.regs.pc.setWidth 8)])

/-- R247, R249: `RET` and `RETI` pop `PC`; `RETI` also sets `IME` at once. -/
def Obligations.ReturnsPopThePc : Prop :=
  ∀ s : State,
    let r := { s.regs with pc := s.read (s.regs.sp + 1) ++ s.read s.regs.sp, sp := s.regs.sp + 2 }
    LeavesRegs .ret s r ∧ exec .reti s = .next { s.withRegs r (chargeOf s .reti) with ime := true }

/-- R246, R248: `CALL cc` and `RET cc`, taken and not taken, at their two costs; not taken, the stack is untouched. -/
def Obligations.ConditionalCallsAndReturns : Prop :=
  ∀ (s : State) (cc : Cond),
    (s.regs.flags.holds cc = true →
      (∀ nn, LeavesStoresTaken (.callCcNn cc nn) s { s.regs with sp := s.regs.sp - 2, pc := nn }
        [(s.regs.sp - 1, ((s.regs.pc + 2) >>> 8).setWidth 8), (s.regs.sp - 2, (s.regs.pc + 2).setWidth 8)]) ∧
      LeavesRegsTaken (.retCc cc) s
        { s.regs with pc := s.read (s.regs.sp + 1) ++ s.read s.regs.sp, sp := s.regs.sp + 2 }) ∧
    (s.regs.flags.holds cc = false →
      (∀ nn, LeavesRegs (.callCcNn cc nn) s { s.regs with pc := s.regs.pc + 2 }) ∧
      LeavesRegs (.retCc cc) s s.regs)

/-- R245, R247, R250: with the two stack bytes in work or high RAM, `RET` comes back from `CALL nn` to the address after the
call, and from `RST t`, with every other register as it was. -/
def Obligations.ReturnComesBackFromTheCall : Prop :=
  ∀ s : State, inRam (s.regs.sp - 1) → inRam (s.regs.sp - 2) →
    (∀ nn, ∃ t u, exec (.callNn nn) s = .next t ∧ exec .ret t = .next u ∧
      u.regs = { s.regs with pc := s.regs.pc + 2 }) ∧
    (∀ n, ∃ t u, exec (.rstT n) s = .next t ∧ exec .ret t = .next u ∧ u.regs = s.regs)

/-! ## System instructions -/

/-- R260 to R264: `NOP` and `STOP` (which skips its second byte) do nothing; `DI` clears `IME` and a pending enable; `EI` only
notes the enable; `HALT` halts, and sets `halt_bug` when `IME = 0` and an enabled request is pending. -/
def Obligations.SystemInstructions : Prop :=
  ∀ s : State,
    LeavesRegs .nop s s.regs ∧
    (∀ n, LeavesRegs (.stop n) s { s.regs with pc := s.regs.pc + 1 }) ∧
    exec .di s = .next { s with ime := false, imePending := false, ticksRemaining := chargeOf s .di } ∧
    exec .ei s = .next { s with imePending := true, ticksRemaining := chargeOf s .ei } ∧
    exec .halt s =
      .next
        { s with
          halted := true, ticksRemaining := chargeOf s .halt
          haltBug := s.haltBug || (!s.ime && s.bus.ieReg &&& s.bus.ifReg != 0) }

/-- R101, R265: the prefix on its own reads one more byte, moves `PC` past it and does exactly what the extended entry of that
byte does, at that entry's cost; it completes in every state. That it is an instruction at all is the model's reading (log 12). -/
def Obligations.PrefixRunsTheExtendedEntry : Prop :=
  ∀ s : State,
    exec .prefixCb s =
      exec (decodeExtended (s.read s.regs.pc)) { s with regs := { s.regs with pc := s.regs.pc + 1 } } ∧
    (decodeExtended (s.read s.regs.pc)).isExtended = true ∧ ∃ t, exec .prefixCb s = .next t

/-- R420, R421, R6: at the default tables every instruction's cost, and what a taken conditional transfer adds, is what the
`Ticks:` line of its own rule says (the tables are indexed by opcode byte, log 18). -/
def Obligations.DefaultTablesGiveTheRulesTicks : Prop :=
  ∀ i : Instr, i.wf = true → baseTicks defaultParams i = ruleTicks i ∧
    (ruleExtra i ≠ 0 → takenExtra defaultParams i = ruleExtra i)

/-! ## The CPU's step -/

/-- R300, R304, R305, R306: where the tick fetches and the bytes at `PC` decode to `i`, the step is `i` executed, awake and with
a pending enable committed, `PC` past the opcode byte (and an extended entry's second byte), then the tick's other phases
(`TickRunsItsPhasesInOrder`). Decoding is with the state's `PREFIX_CODE`; an opcode byte its `INVALID_SET` takes away from a valid
entry is `InvalidCodesDoNothing`'s. That the operand bytes are read at the fetch is the model's (log 11), and so is what a code does
at other values of these two parameters where the spec is silent (log 2). -/
def Obligations.StepRunsTheDecodedInstruction : Prop :=
  ∀ (s : State) (i : Instr) (rest : List Byte), s.fetches → s.haltBug = false →
    decodeWith s.params.prefixCode [s.read s.regs.pc, s.read (s.regs.pc + 1), s.read (s.regs.pc + 2)] = .ok (i, rest) →
    (s.invalidAt = true → i ∈ invalidInstrs) →
    ∃ t, exec i (s.atExecute (if i.isExtended then 2 else 1)) = .next t ∧ step s = .next t.afterCpu

/-- R307, R31: with the halt bug the opcode byte is read twice: `PC` does not move past it, and it is also the first of the bytes
after the opcode. The flag is spent. That the operand bytes are read at the fetch is the model's (log 11). An opcode byte that
`INVALID_SET` takes away from a valid entry is `InvalidCodesDoNothing`'s; what a code does at other values of that set and of
`PREFIX_CODE` where the spec is silent is the model's (log 2). -/
def Obligations.HaltBugReadsTheOpcodeTwice : Prop :=
  ∀ (s : State) (i : Instr) (rest : List Byte), s.fetches → s.haltBug = true →
    decodeWith s.params.prefixCode [s.read s.regs.pc, s.read s.regs.pc, s.read (s.regs.pc + 1)] = .ok (i, rest) →
    (s.invalidAt = true → i ∈ invalidInstrs) →
    ∃ t, exec i (s.atExecute (if i.isExtended then 1 else 0)) = .next t ∧ step s = .next t.afterCpu

/-- R360: a tick is the CPU's step, the display engine's, the timer's with the request inputs, and the frame count, in that order,
each on the state the one before left. That the request inputs are a list whose head is this tick's, with the timer's own request
added, is the model's (logs 10, 14). -/
def Obligations.TickRunsItsPhasesInOrder : Prop :=
  ∀ s u : State, cpuStep s = .next u →
    step s =
      .next
        { u with
          bus :=
            { u.bus.ppuStep with
              ifReg :=
                u.bus.ppuStep.ifReg ||| ((u.extIrq.headD 0 ||| u.bus.timer.timerRequest) &&& 0b11100)
              timer := u.bus.timer.timerStep }
          extIrq := u.extIrq.tail
          frameTick := (u.frameTick + 1) % 70224 }

/-- R301, R304, R308: a tick with ticks remaining only counts down; a halted CPU with nothing pending does nothing; a halted CPU
with a pending request and `IME = 0` goes on as if it had not been halted. -/
def Obligations.CountDownIdleAndWake : Prop :=
  ∀ s : State,
    (s.ticksRemaining ≠ 0 → cpuStep s = .next { s with ticksRemaining := s.ticksRemaining - 1 }) ∧
    (s.ticksRemaining = 0 → s.halted = true → s.pending = 0 → cpuStep s = .next s) ∧
    (s.ticksRemaining = 0 → s.halted = true → s.pending ≠ 0 → s.ime = false →
      cpuStep s = cpuStep { s with halted := false } ∧ ∃ t, cpuStep s = .next t)

/-- R303, R302: at a boundary with `IME = 1` and something pending, the least pending source is dispatched: its request bit,
`IME`, `ime_pending` and `halted` are cleared, `PC` is pushed high byte first, `PC` is the vector, the cost is charged, and
nothing else changes. By default the vectors are `0x40 + 8 i` and the cost is 20. -/
def Obligations.DispatchEntersTheHandler : Prop :=
  (∀ s : State, s.ticksRemaining = 0 → s.ime = true → s.pending ≠ 0 →
    ∃ i, i < 5 ∧ s.pending.getLsbD i = true ∧ (∀ j < i, s.pending.getLsbD j = false) ∧
      cpuStep s =
        .next
          { s with
            regs := { s.regs with sp := s.regs.sp - 2, pc := s.params.vectors.getD i 0 }
            ime := false, imePending := false, halted := false
            bus :=
              (({ s.bus with ifReg := s.bus.ifReg &&& ~~~(1#5 <<< i) } : Bus).write s.params (s.regs.sp - 1)
                ((s.regs.pc >>> 8).setWidth 8)).write s.params (s.regs.sp - 2) (s.regs.pc.setWidth 8)
            ticksRemaining := s.params.intDispatchTicks - 1 }) ∧
  (∀ i < 5, defaultParams.vectors.getD i 0 = BitVec.ofNat 16 (0x40 + 8 * i)) ∧ defaultParams.intDispatchTicks = 20

/-- R312, R311: where the two stack bytes lie in work or high RAM, a dispatch leaves the return address there, clears one request
bit, the least pending one, and leaves the other requests, `IE`, the display, the collaborators and every other byte alone. -/
def Obligations.DispatchSavesThePcAndKeepsTheRest : Prop :=
  ∀ s t : State, s.ticksRemaining = 0 → s.ime = true → s.pending ≠ 0 → inRam (s.regs.sp - 1) → inRam (s.regs.sp - 2) →
    cpuStep s = .next t →
    t.read (s.regs.sp - 1) ++ t.read (s.regs.sp - 2) = s.regs.pc ∧
    (∃ i < 5, s.pending.getLsbD i = true ∧ (∀ j < i, s.pending.getLsbD j = false) ∧
      ∀ j < 5, t.bus.ifReg.getLsbD j = (s.bus.ifReg.getLsbD j && j != i)) ∧
    t.bus = { s.bus with mem := t.bus.mem, ifReg := t.bus.ifReg } ∧
    ∀ x, x ≠ s.regs.sp - 1 → x ≠ s.regs.sp - 2 → x ≠ 0xFF0F → t.read x = s.read x

/-- R264, R306: the instruction after `EI` is fetched even with a request pending, sees `IME = 1`, and (unless it is `DI`)
leaves it 1, with no enable pending unless it is `EI` itself (operand bytes read at the fetch: log 11). An opcode byte that
`INVALID_SET` takes away from a valid entry is `InvalidCodesDoNothing`'s, which commits the enable too; what a code does at other
values of that set and of `PREFIX_CODE` where the spec is silent is the model's (log 2). -/
def Obligations.EiWaitsForOneInstruction : Prop :=
  ∀ (s : State) (i : Instr) (rest : List Byte), s.ticksRemaining = 0 → s.halted = false → s.haltBug = false →
    s.ime = false → s.imePending = true →
    decodeWith s.params.prefixCode [s.read s.regs.pc, s.read (s.regs.pc + 1), s.read (s.regs.pc + 2)] = .ok (i, rest) →
    (s.invalidAt = true → i ∈ invalidInstrs) →
    ∃ t, exec i (s.atExecute (if i.isExtended then 2 else 1)) = .next t ∧ step s = .next t.afterCpu ∧
      (s.atExecute (if i.isExtended then 2 else 1)).ime = true ∧ (i ≠ .di → t.ime = true) ∧
      (i ≠ .ei → t.imePending = false)

/-- R28, R306: `IME` rises in a tick only where a pending enable is committed by a fetch, or where the instruction fetched is
`RETI`. -/
def Obligations.ImeRisesOnlyByEiOrReti : Prop :=
  ∀ s t : State, step s = .next t → s.ime = false → t.ime = true →
    s.fetches ∧ (s.imePending = true ∨ (s.fetched = .reti ∧ s.invalidAt = false))

/-- R320, R325: every tick of every state completes, and so does every instruction: nothing faults, nothing is refused. -/
def Obligations.EveryStepCompletes : Prop :=
  (∀ s : State, ∃ t, step s = .next t) ∧ ∀ (i : Instr) (s : State), ∃ t, exec i s = .next t

/-- R50, R53, R366, R369: no step changes a parameter, the overlay's image or a ROM-only cartridge, and `boot_mapped` never
returns to 1 (the images are the model's plain data, logs 1, 6). -/
def Obligations.StepsKeepParametersAndImages : Prop :=
  ∀ s t : State, step s = .next t →
    t.params = s.params ∧ t.bus.boot = s.bus.boot ∧ (∀ m, s.bus.cart = .romOnly m → t.bus.cart = .romOnly m) ∧
    (s.bus.bootMapped = false → t.bus.bootMapped = false)

/-! ## The bus -/

/-- R62, R63, R64, R66 to R70: what a read answers and what a write does in the ranges of the map that are neither gated memory
nor display registers. The form of the collaborators and of the images is the model's (logs 6, 8). -/
def Obligations.MapRoutesReadsAndWrites : Prop :=
  ∀ (p : Params) (b : Bus) (a : Word) (v : Byte),
    let n := a.toNat
    (n ≤ 0xFF → b.bootMapped = true → b.read p a = bootByte b.boot n ∧ b.write p a v = b) ∧
    ((n ≤ 0xFF ∧ b.bootMapped = false) ∨ (0x100 ≤ n ∧ n ≤ 0x7FFF) ∨ (0xA000 ≤ n ∧ n ≤ 0xBFFF) →
      b.read p a = b.cart.read n ∧ b.write p a v = { b with cart := b.cart.write n v }) ∧
    (inRam a → b.read p a = storedByte b.mem n ∧ (b.write p a v).read p a = v ∧
      b.write p a v = { b with mem := (b.write p a v).mem }) ∧
    (n = 0xFF00 → b.read p a = b.joypad.read .joypad n ∧
      b.write p a v = { b with joypad := b.joypad.write .joypad n v }) ∧
    (n = 0xFF01 ∨ n = 0xFF02 → b.read p a = b.serial.read .serial n ∧
      b.write p a v = { b with serial := b.serial.write .serial n v }) ∧
    (0xFF04 ≤ n ∧ n ≤ 0xFF07 → b.read p a = b.timer.read .timer n ∧
      b.write p a v = { b with timer := b.timer.write .timer n v }) ∧
    (n = 0xFF50 → b.read p a = 0xFF ∧ b.write p a v = { b with bootMapped := false }) ∧
    ((0xE000 ≤ n ∧ n ≤ 0xFDFF) ∨ (0xFEA0 ≤ n ∧ n ≤ 0xFEFF) ∨ n = 0xFF03 ∨ (0xFF08 ≤ n ∧ n ≤ 0xFF0E) ∨
        (0xFF10 ≤ n ∧ n ≤ 0xFF3F) ∨ (0xFF4C ≤ n ∧ n ≤ 0xFF4F) ∨ (0xFF51 ≤ n ∧ n ≤ 0xFF7F) →
      b.read p a = p.unmappedRead ∧ b.write p a v = b)

/-- R71, R72, R45, R46: VRAM is closed in mode 3 and OAM in modes 2 and 3 while the display is enabled: a read gives 0xFF, a write
is dropped; otherwise a read gives the stored byte and a write stores it, and nothing but that byte. -/
def Obligations.VideoMemoryIsGatedByMode : Prop :=
  ∀ (p : Params) (b : Bus) (a : Word) (v : Byte),
    let n := a.toNat
    let shut := (0x8000 ≤ n ∧ n ≤ 0x9FFF ∧ b.ppu.mode = .draw) ∨
      (0xFE00 ≤ n ∧ n ≤ 0xFE9F ∧ (b.ppu.mode = .oamScan ∨ b.ppu.mode = .draw))
    (0x8000 ≤ n ∧ n ≤ 0x9FFF) ∨ (0xFE00 ≤ n ∧ n ≤ 0xFE9F) →
      (b.ppu.lcdc.getLsbD 7 = true ∧ shut → b.read p a = 0xFF ∧ b.write p a v = b) ∧
      (b.ppu.lcdc.getLsbD 7 = false ∨ ¬shut →
        b.read p a = storedByte b.mem n ∧ (b.write p a v).read p a = v ∧
        b.write p a v = { b with mem := (b.write p a v).mem } ∧
        ∀ m, m ≠ n → storedByte (b.write p a v).mem m = storedByte b.mem m)

/-- R73, R41: a write of `v` to FF46 stores `v` in `DMA` and copies 160 bytes, read through the map from `v * 0x100` on, into OAM
past its gate; nothing else changes. -/
def Obligations.DmaCopiesTheObjectTable : Prop :=
  ∀ (p : Params) (b : Bus) (v : Byte),
    let src : Bus := { b with ppu := { b.ppu with dma := v } }
    let c := b.write p 0xFF46 v
    c = { src with mem := c.mem } ∧
    (∀ k < 160, storedByte c.mem (0xFE00 + k) = src.read p (BitVec.ofNat 16 (v.toNat * 0x100 + k))) ∧
    ∀ m, (m < 0xFE00 ∨ 0xFE9F < m) → storedByte c.mem m = storedByte b.mem m

/-- R33, R34, R37 to R43, R69: the registers of the block as the bus sees them: `IF` and `IE` keep five bits and read with the
parameter bits above; `STAT` takes bits 6 to 3 of a write and reads `{1, select, lyc_equal, mode}`; `LY` ignores a write; the
others read back what was written. Each write changes that register alone. -/
def Obligations.RegistersAtTheirAddresses : Prop :=
  ∀ (p : Params) (b : Bus) (v : Byte),
    (b.read p 0xFF0F = p.ifReadHi ++ b.ifReg ∧ b.write p 0xFF0F v = { b with ifReg := v.setWidth 5 }) ∧
    (b.read p 0xFFFF = p.ieReadHi ++ b.ieReg ∧ b.write p 0xFFFF v = { b with ieReg := v.setWidth 5 }) ∧
    (b.read p 0xFF40 = b.ppu.lcdc ∧ b.write p 0xFF40 v = { b with ppu := { b.ppu with lcdc := v } }) ∧
    (b.read p 0xFF41 = 1#1 ++ b.ppu.statSelect ++ BitVec.ofBool b.ppu.lycEqual ++ b.ppu.mode.bits ∧
      b.write p 0xFF41 v = { b with ppu := { b.ppu with statSelect := (v >>> 3).setWidth 4 } }) ∧
    (b.read p 0xFF42 = b.ppu.scy ∧ b.write p 0xFF42 v = { b with ppu := { b.ppu with scy := v } }) ∧
    (b.read p 0xFF43 = b.ppu.scx ∧ b.write p 0xFF43 v = { b with ppu := { b.ppu with scx := v } }) ∧
    (b.read p 0xFF44 = b.ppu.ly ∧ b.write p 0xFF44 v = b) ∧
    (b.read p 0xFF45 = b.ppu.lyc ∧ b.write p 0xFF45 v = { b with ppu := { b.ppu with lyc := v } }) ∧
    b.read p 0xFF46 = b.ppu.dma ∧
    (b.read p 0xFF47 = b.ppu.bgp ∧ b.write p 0xFF47 v = { b with ppu := { b.ppu with bgp := v } }) ∧
    (b.read p 0xFF48 = b.ppu.obp0 ∧ b.write p 0xFF48 v = { b with ppu := { b.ppu with obp0 := v } }) ∧
    (b.read p 0xFF49 = b.ppu.obp1 ∧ b.write p 0xFF49 v = { b with ppu := { b.ppu with obp1 := v } }) ∧
    (b.read p 0xFF4A = b.ppu.wy ∧ b.write p 0xFF4A v = { b with ppu := { b.ppu with wy := v } }) ∧
    (b.read p 0xFF4B = b.ppu.wx ∧ b.write p 0xFF4B v = { b with ppu := { b.ppu with wx := v } })

/-- R77, R61, R82: a bus write changes what a read answers only at the addresses `mayChange` lists for its address. -/
def Obligations.WriteChangesOnlyItsReach : Prop :=
  ∀ (p : Params) (b : Bus) (a x : Word) (v : Byte), mayChange a x = false → (b.write p a v).read p x = b.read p x

/-! ## The display engine -/

/-- R341, R347: while the display is disabled each step forces line 0 and mode 0 and raises no request but that of an LYC
edge. -/
def Obligations.DisabledDisplayStandsAtLineZero : Prop :=
  ∀ b : Bus, b.ppu.lcdc.getLsbD 7 = false →
    b.ppuStep =
      { b with
        ppu := { b.ppu with ly := 0, mode := .hblank, modeTicks := 0, lycEqual := b.ppu.lyc == 0 }
        ifReg :=
          if b.ppu.lyc = 0 ∧ b.ppu.lycEqual = false ∧ b.ppu.statSelect.getLsbD 3 = true then b.ifReg ||| 0b00010
          else b.ifReg }

/-- R340, R342 to R345: with the display enabled, the mode, its tick count and the line after a step, from those before. -/
def Obligations.ModesFollowTheirDurations : Prop :=
  ∀ b : Bus, b.ppu.lcdc.getLsbD 7 = true → b.ppu.rangesOk →
    let q := b.ppuStep.ppu
    let n := b.ppu.modeTicks + 1
    (b.ppu.mode = .oamScan → q.ly = b.ppu.ly ∧
      (if n = 80 then q.mode = .draw ∧ q.modeTicks = 0 else q.mode = .oamScan ∧ q.modeTicks = n)) ∧
    (b.ppu.mode = .draw → q.ly = b.ppu.ly ∧
      (if n = 172 then q.mode = .hblank ∧ q.modeTicks = 0 else q.mode = .draw ∧ q.modeTicks = n)) ∧
    (b.ppu.mode = .hblank →
      if n = 204 then
        q.ly.toNat = b.ppu.ly.toNat + 1 ∧ q.modeTicks = 0 ∧ q.mode = (if q.ly = 144 then .vblank else .oamScan)
      else q.ly = b.ppu.ly ∧ q.mode = .hblank ∧ q.modeTicks = n) ∧
    (b.ppu.mode = .vblank →
      if n = 456 then
        q.modeTicks = 0 ∧
          (if b.ppu.ly = 153 then q.ly = 0 ∧ q.mode = .oamScan
          else q.ly.toNat = b.ppu.ly.toNat + 1 ∧ q.mode = .vblank)
      else q.ly = b.ppu.ly ∧ q.mode = .vblank ∧ q.modeTicks = n)

/-- R346, R347, R344: the requests an enabled display's step raises, exactly: VBlank on entry to mode 1; STAT on entry to a mode
whose select bit is set, or on the false-to-true edge of `LY = LYC` with its select bit set. -/
def Obligations.DisplayRaisesItsRequests : Prop :=
  ∀ b : Bus, b.ppu.lcdc.getLsbD 7 = true → b.ppu.rangesOk →
    let q := b.ppuStep.ppu
    let enters := q.mode ≠ b.ppu.mode
    let stat :=
      (enters ∧ ((q.mode = .hblank ∧ b.ppu.statSelect.getLsbD 0 = true) ∨
        (q.mode = .vblank ∧ b.ppu.statSelect.getLsbD 1 = true) ∨
        (q.mode = .oamScan ∧ b.ppu.statSelect.getLsbD 2 = true))) ∨
      (q.ly = b.ppu.lyc ∧ b.ppu.lycEqual = false ∧ b.ppu.statSelect.getLsbD 3 = true)
    q.lycEqual = (q.ly == b.ppu.lyc) ∧
    b.ppuStep.ifReg =
      b.ifReg ||| (if enters ∧ q.mode = .vblank then 0b00001 else 0) ||| (if stat then 0b00010 else 0)

/-- R350, R47: the object scan takes, in table order, the first ten of the forty objects whose vertical range covers the line, on
unbounded integers, and changes nothing else. The display engine's step that enters mode 2 leaves the scan's list for the line it
leaves in `LY` (the new one at a line's end), whether or not objects are enabled; its other steps keep the list, and so does every bus write. -/
def Obligations.ObjectScanTakesTheFirstTen : Prop :=
  ∀ b : Bus,
    let height : Int := if b.ppu.lcdc.getLsbD 2 then 16 else 8
    let covers : Byte → Nat → Bool := fun ly k =>
      decide (((storedByte b.mem (0xFE00 + 4 * k)).toNat : Int) - 16 ≤ ly.toNat ∧
        (ly.toNat : Int) < ((storedByte b.mem (0xFE00 + 4 * k)).toNat : Int) - 16 + height)
    let scan : Byte → List Nat := fun ly => ((List.range 40).filter (covers ly)).take 10
    b.objectScan = { b with ppu := { b.ppu with lineObjs := scan b.ppu.ly } } ∧
    (b.ppuStep.ppu.lineObjs =
      if b.ppuStep.ppu.mode = .oamScan ∧ b.ppu.mode ≠ .oamScan then scan b.ppuStep.ppu.ly else b.ppu.lineObjs) ∧
    ∀ p a v, (b.write p a v).ppu.lineObjs = b.ppu.lineObjs

/-- R356, R357: in a column the earliest object of the list that is not transparent there decides: its shade, or the background's
where it stands behind a background that is not colour 0. The X coordinate plays no part. -/
def Obligations.EarliestObjectWinsTheColumn : Prop :=
  ∀ (b : Bus) (x : Nat) (before after : List Nat) (k : Nat), b.ppu.lcdc.getLsbD 1 = true →
    b.ppu.lineObjs = before ++ k :: after → (∀ j ∈ before, b.objIndex j x = 0) → b.objIndex k x ≠ 0 →
    let attr := storedByte b.mem (0xFE00 + 4 * k + 3)
    b.pixel x =
      if attr.getLsbD 7 = true ∧ b.bgIndex x ≠ 0 then b.bgShade x
      else shadeOf (if attr.getLsbD 4 then b.ppu.obp1 else b.ppu.obp0) (b.objIndex k x)

/-- R346, R351, R352: rendering a line writes that row of the frame, 160 shades, and nothing else. The display engine's step that
enters mode 3 renders the line `LY`, from the registers and memory as they stand before it; its other steps keep the frame, and so does every bus write. -/
def Obligations.RenderWritesOneRow : Prop :=
  ∀ b : Bus,
    let q := b.ppuStep.ppu
    b.renderLine = { b with ppu := { b.ppu with frame := b.renderLine.ppu.frame } } ∧
    (∀ x < 160, b.renderLine.ppu.framePixel b.ppu.ly.toNat x = b.pixel x) ∧
    (∀ y x, y ≠ b.ppu.ly.toNat → b.renderLine.ppu.framePixel y x = b.ppu.framePixel y x) ∧
    (q.mode = .draw ∧ b.ppu.mode ≠ .draw →
      (∀ x < 160, q.framePixel b.ppu.ly.toNat x = b.pixel x) ∧
      ∀ y x, y ≠ b.ppu.ly.toNat → q.framePixel y x = b.ppu.framePixel y x) ∧
    (¬(q.mode = .draw ∧ b.ppu.mode ≠ .draw) → q.frame = b.ppu.frame) ∧
    ∀ p a v, (b.write p a v).ppu.frame = b.ppu.frame

/-- R348: from the start of a frame with the display enabled, the display engine is in mode 2 for 80 steps, 3 for 172 and 0 for
204 of each of lines 0 to 143, in mode 1 for lines 144 to 153, and back at the start after exactly 70224 steps; VBlank is
requested by the step that reaches line 144, the 65664th, and by none before it: until then its bit is as at the start, from then on
it is set (nothing in these steps clears it). -/
def Obligations.FrameTakes70224Ticks : Prop :=
  ∀ b : Bus, b.ppu.lcdc.getLsbD 7 = true → b.ppu.mode = .oamScan → b.ppu.modeTicks = 0 → b.ppu.ly = 0 →
    (∀ n < 144, ∀ j < 456,
      (b.ppuRun (456 * n + j)).ppu.ly.toNat = n ∧
      (b.ppuRun (456 * n + j)).ppu.mode = (if j < 80 then .oamScan else if j < 252 then .draw else .hblank)) ∧
    (∀ n, 144 ≤ n → n ≤ 153 → ∀ j < 456,
      (b.ppuRun (456 * n + j)).ppu.ly.toNat = n ∧ (b.ppuRun (456 * n + j)).ppu.mode = .vblank) ∧
    (∀ n < 65664, (b.ppuRun n).ifReg.getLsbD 0 = b.ifReg.getLsbD 0) ∧
    (∀ n, 65664 ≤ n → n ≤ 70224 → (b.ppuRun n).ifReg.getLsbD 0 = true) ∧
    (b.ppuRun 70224).ppu.mode = .oamScan ∧ (b.ppuRun 70224).ppu.modeTicks = 0 ∧ (b.ppuRun 70224).ppu.ly = 0

/-- R351: nothing depends on the frame: with other rows in it a step does the same to everything else. -/
def Obligations.NothingReadsTheFrame : Prop :=
  ∀ (s t : State) (rows : List (Nat × List (BitVec 2))), step s = .next t →
    ∃ rows', step (s.withFrame rows) = .next (t.withFrame rows')

/-! ## Reset and the invariant -/

/-- R55, R402, R403: the value of every state element of R55's table in both profiles at launch, whatever the memory, the images
and the collaborators hold: the memories, images, collaborator states, request inputs and parameters are the launch's own
arguments, and each cell of `frame` is the free value `Config.initFrame`, about which nothing is known. -/
def Obligations.ResetValuesOfBothProfiles : Prop :=
  ∀ (pr : ResetProfile) (p : Params) (mem boot : Memory) (cart : Cart) (tm se jo : Device) (ext : List (BitVec 5)),
    let s := State.launch pr p mem boot cart tm se jo ext
    s.ticksRemaining = 0 ∧ s.ime = false ∧ s.imePending = false ∧ s.halted = false ∧ s.haltBug = false ∧
    s.frameTick = 0 ∧ s.bus.ieReg = 0 ∧ s.bus.mem = mem ∧ s.bus.boot = boot ∧ s.bus.cart = cart ∧ s.bus.timer = tm ∧
    s.bus.serial = se ∧ s.bus.joypad = jo ∧ s.extIrq = ext ∧ s.params = p ∧ s.bus.ppu.statSelect = 0 ∧ s.bus.ppu.lycEqual = true ∧
    s.bus.ppu.modeTicks = 0 ∧ s.bus.ppu.ly = 0 ∧ s.bus.ppu.lyc = 0 ∧ s.bus.ppu.scy = 0 ∧ s.bus.ppu.scx = 0 ∧
    s.bus.ppu.wy = 0 ∧ s.bus.ppu.wx = 0 ∧ s.bus.ppu.lineObjs = [] ∧ (∀ y x, s.bus.ppu.framePixel y x = Config.initFrame y x) ∧
    (pr = .powerOn →
      s.regs.af = 0x0000 ∧ s.regs.bc = 0x0000 ∧ s.regs.de = 0x0000 ∧ s.regs.hl = 0x0000 ∧ s.regs.sp = 0x0000 ∧
      s.regs.pc = 0x0000 ∧ s.bus.ifReg = 0b00000 ∧ s.bus.ppu.lcdc = 0x00 ∧ s.bus.ppu.mode = .hblank ∧
      s.bus.ppu.dma = 0x00 ∧ s.bus.ppu.bgp = 0x00 ∧ s.bus.ppu.obp0 = 0x00 ∧ s.bus.ppu.obp1 = 0x00 ∧
      s.bus.bootMapped = true) ∧
    (pr = .postBoot →
      s.regs.af = 0x01B0 ∧ s.regs.bc = 0x0013 ∧ s.regs.de = 0x00D8 ∧ s.regs.hl = 0x014D ∧ s.regs.sp = 0xFFFE ∧
      s.regs.pc = 0x0100 ∧ s.bus.ifReg = 0b00001 ∧ s.bus.ppu.lcdc = 0x91 ∧ s.bus.ppu.mode = .oamScan ∧
      s.bus.ppu.dma = 0xFF ∧ s.bus.ppu.bgp = 0xFC ∧ s.bus.ppu.obp0 = 0xFF ∧ s.bus.ppu.obp1 = 0xFF ∧
      s.bus.bootMapped = false)

/-- The model's choice for `State.reset` (logs 1, 3, 8, 10): profile `power_on`, the default parameters, null devices, the ROM-only
cartridge, no byte written or named, no request from outside. -/
def Obligations.ResetStateIsThePowerOnLaunch : Prop :=
  State.reset = State.launch .powerOn defaultParams [] [] (.romOnly []) .null .null .null []

/-- R39, R31, R47 to R49: every step keeps the invariant, from every state that meets it: the memory in canonical form within
plain storage, the line and the tick count of each mode in their ranges, a disabled display at line 0, `lyc_equal` the comparison,
the object list and the frame in their forms, the halt bug only with what set it, the frame count below 70224. The canonical form of
the memory and of the frame's rows is the model's (logs 4, 5). -/
def Obligations.EveryStepKeepsTheInvariant : Prop :=
  ∀ s t : State, s.Inv → step s = .next t → t.Inv

/-- The invariant holds at `State.reset`, which is the model's choice (logs 1, 3, 8, 10), and at either profile's launch on any
well-formed memory of plain storage (log 4). -/
def Obligations.LaunchMeetsTheInvariant : Prop :=
  State.reset.Inv ∧
  ∀ (pr : ResetProfile) (p : Params) (mem boot : Memory) (cart : Cart) (tm se jo : Device) (ext : List (BitVec 5)),
    Memory.wf mem = true → Memory.inStorage mem = true → (State.launch pr p mem boot cart tm se jo ext).Inv

end
end

