-- ==== Sys2Proof/Laws/Memory.lean ====
section
/-! SUPPORT. Plain storage: a read after a write, the canonical form that every write keeps, and that equal contents are equal
lists. -/

namespace Sys2Proof.Machine

/-! ## A read after a write -/

theorem readCell_writeCell_same (m : Memory) (a : Nat) (v : Byte) : readCell (writeCell m a v) a = some v := by
  induction m with
  | nil => simp [writeCell, readCell]
  | cons cell m ih =>
    obtain ⟨k, w⟩ := cell
    unfold writeCell
    split
    · simp [readCell]
    · split
      · simp [readCell]
      · rename_i h1 h2
        simp [readCell, h2, ih]

theorem readCell_writeCell_other (m : Memory) {a x : Nat} (v : Byte) (h : x ≠ a) :
    readCell (writeCell m a v) x = readCell m x := by
  induction m with
  | nil => simp [writeCell, readCell, h]
  | cons cell m ih =>
    obtain ⟨k, w⟩ := cell
    unfold writeCell
    split
    · simp [readCell, h]
    · split
      · rename_i h1 h2
        subst h2
        simp [readCell, h]
      · simp [readCell, ih]

theorem storedByte_writeCell_same (m : Memory) (a : Nat) (v : Byte) : storedByte (writeCell m a v) a = v := by
  simp [storedByte, readCell_writeCell_same]

theorem storedByte_writeCell_other (m : Memory) {a x : Nat} (v : Byte) (h : x ≠ a) :
    storedByte (writeCell m a v) x = storedByte m x := by
  simp [storedByte, readCell_writeCell_other m v h]

/-! ## The canonical form -/

theorem risingFrom_mono {lo lo' : Nat} (m : Memory) (hle : lo' ≤ lo) (h : risingFrom lo m = true) :
    risingFrom lo' m = true := by
  cases m with
  | nil => rfl
  | cons cell m =>
    obtain ⟨k, w⟩ := cell
    simp only [risingFrom, Bool.and_eq_true, decide_eq_true_eq] at h ⊢
    exact ⟨by omega, h.2⟩

theorem risingFrom_writeCell (m : Memory) {lo a : Nat} (v : Byte) (hlo : lo ≤ a) (h : risingFrom lo m = true) :
    risingFrom lo (writeCell m a v) = true := by
  induction m generalizing lo with
  | nil => simp [writeCell, risingFrom, hlo]
  | cons cell m ih =>
    obtain ⟨k, w⟩ := cell
    simp only [risingFrom, Bool.and_eq_true, decide_eq_true_eq] at h
    unfold writeCell
    split
    · simp only [risingFrom, Bool.and_eq_true, decide_eq_true_eq]
      exact ⟨hlo, by omega, h.2⟩
    · split
      · rename_i h1 h2
        subst h2
        simp only [risingFrom, Bool.and_eq_true, decide_eq_true_eq]
        exact h
      · simp only [risingFrom, Bool.and_eq_true, decide_eq_true_eq]
        exact ⟨h.1, ih (by omega) h.2⟩

/-- A property of every address is kept by a write at an address that has it. -/
theorem all_writeCell (p : Nat → Bool) (m : Memory) {a : Nat} (v : Byte) (ha : p a = true)
    (h : (m.all fun cell => p cell.1) = true) : ((writeCell m a v).all fun cell => p cell.1) = true := by
  induction m with
  | nil => simp [writeCell, ha]
  | cons cell m ih =>
    obtain ⟨k, w⟩ := cell
    simp only [List.all_cons, Bool.and_eq_true] at h
    unfold writeCell
    split
    · simp [ha, h.1, h.2]
    · split
      · simp [ha, h.2]
      · simp [h.1, ih h.2]

/-- A write inside the address space keeps the canonical form. -/
theorem Memory.wf_writeCell {m : Memory} {a : Nat} (v : Byte) (ha : a < 65536) (h : Memory.wf m = true) :
    Memory.wf (writeCell m a v) = true := by
  simp only [Memory.wf, Bool.and_eq_true] at h ⊢
  exact ⟨risingFrom_writeCell m v (Nat.zero_le a) h.1,
    all_writeCell (fun k => decide (k < 65536)) m v (by simpa using ha) h.2⟩

/-- A write to plain storage keeps the memory within plain storage. -/
theorem Memory.inStorage_writeCell {m : Memory} {a : Nat} (v : Byte)
    (ha : ownerOf a = .vram ∨ ownerOf a = .wram ∨ ownerOf a = .oam ∨ ownerOf a = .hram)
    (h : Memory.inStorage m = true) : Memory.inStorage (writeCell m a v) = true :=
  all_writeCell (fun k => ownerOf k == .vram || ownerOf k == .wram || ownerOf k == .oam || ownerOf k == .hram) m v
    (by rcases ha with h | h | h | h <;> simp [h]) h

/-- Below its least address a rising memory lists nothing. -/
theorem readCell_below {m : Memory} {lo x : Nat} (h : risingFrom lo m = true) (hx : x < lo) : readCell m x = none := by
  induction m generalizing lo with
  | nil => rfl
  | cons cell m ih =>
    obtain ⟨k, w⟩ := cell
    simp only [risingFrom, Bool.and_eq_true, decide_eq_true_eq] at h
    simp [readCell, show x ≠ k by omega, ih h.2 (by omega)]

/-- Two rising memories with the same written bytes are the same list. -/
theorem risingFrom_ext {m m' : Memory} {lo : Nat} (h : risingFrom lo m = true) (h' : risingFrom lo m' = true)
    (heq : ∀ a, readCell m a = readCell m' a) : m = m' := by
  induction m generalizing m' lo with
  | nil =>
    cases m' with
    | nil => rfl
    | cons cell m' =>
      obtain ⟨k, w⟩ := cell
      have := heq k
      simp [readCell] at this
  | cons cell m ih =>
    obtain ⟨k, w⟩ := cell
    cases m' with
    | nil =>
      have := heq k
      simp [readCell] at this
    | cons cell' m' =>
      obtain ⟨k', w'⟩ := cell'
      simp only [risingFrom, Bool.and_eq_true, decide_eq_true_eq] at h h'
      have hk : k = k' := by
        rcases Nat.lt_trichotomy k k' with hlt | he | hgt
        · have e := heq k
          simp [readCell, Nat.ne_of_lt hlt, readCell_below h'.2 (show k < k' + 1 by omega)] at e
        · exact he
        · have e := heq k'
          simp [readCell, Nat.ne_of_lt hgt, readCell_below h.2 (show k' < k + 1 by omega)] at e
      subst hk
      have hw : w = w' := by simpa [readCell] using heq k
      subst hw
      have hm : m = m' := by
        refine ih h.2 h'.2 fun a => ?_
        by_cases hak : a = k
        · subst hak
          rw [readCell_below h.2 (by omega), readCell_below h'.2 (by omega)]
        · simpa [readCell, hak] using heq a
      rw [hm]

/-- Equal contents are equal data: two memories in canonical form with the same written bytes are the same list. -/
theorem Memory.wf_ext {m m' : Memory} (h : Memory.wf m = true) (h' : Memory.wf m' = true)
    (heq : ∀ a, readCell m a = readCell m' a) : m = m' := by
  simp only [Memory.wf, Bool.and_eq_true] at h h'
  exact risingFrom_ext h.1 h'.1 heq

/-- The memory of the reset state is in canonical form. -/
theorem Memory.wf_reset : Memory.wf State.reset.bus.mem = true := rfl

end Sys2Proof.Machine
end

