-- ==== Sys2Proof/Laws/Bus.lean ====
section
/-! SUPPORT. The bus operations: the ranges of the owners, which fields a write reaches, and what every bus operation keeps. -/

namespace Sys2Proof.Machine

/-! ## Owners (R62) -/

/-- The addresses of each owner, those in no row of the map among them. -/
def Owner.range (o : Owner) (a : Nat) : Prop :=
  match o with
  | .overlay => a < 0x0100
  | .cart => (0x0100 ≤ a ∧ a < 0x8000) ∨ (0xA000 ≤ a ∧ a < 0xC000)
  | .vram => 0x8000 ≤ a ∧ a < 0xA000
  | .wram => 0xC000 ≤ a ∧ a < 0xE000
  | .oam => 0xFE00 ≤ a ∧ a < 0xFEA0
  | .joypad => a = 0xFF00
  | .serial => a = 0xFF01 ∨ a = 0xFF02
  | .timer => 0xFF04 ≤ a ∧ a ≤ 0xFF07
  | .ifReg => a = 0xFF0F
  | .display => 0xFF40 ≤ a ∧ a ≤ 0xFF4B
  | .bootUnmap => a = 0xFF50
  | .hram => 0xFF80 ≤ a ∧ a ≤ 0xFFFE
  | .ieReg => a = 0xFFFF
  | .unmapped =>
    (0xE000 ≤ a ∧ a < 0xFE00) ∨ (0xFEA0 ≤ a ∧ a < 0xFF00) ∨ a = 0xFF03 ∨ (0xFF08 ≤ a ∧ a ≤ 0xFF0E) ∨
      (0xFF10 ≤ a ∧ a ≤ 0xFF3F) ∨ (0xFF4C ≤ a ∧ a ≤ 0xFF4F) ∨ (0xFF51 ≤ a ∧ a ≤ 0xFF7F) ∨ 0x10000 ≤ a

theorem ownerOf_range (a : Nat) : (ownerOf a).range a := by
  unfold ownerOf
  iterate 8 refine iteInduction (motive := fun o => Owner.range o a) (fun h => by simp only [Owner.range]; omega) (fun h => ?_)
  unfold ownerOfHighPage
  iterate 8 refine iteInduction (motive := fun o => Owner.range o a) (fun h => by simp only [Owner.range]; omega) (fun h => ?_)
  simp only [Owner.range]
  omega

theorem ownerOf_overlay_iff {a : Nat} : ownerOf a = .overlay ↔ a < 0x0100 := by
  refine ⟨fun h => by have := ownerOf_range a; rwa [h] at this, fun h => ?_⟩
  have := ownerOf_range a
  cases e : ownerOf a <;> rw [e] at this <;> simp only [Owner.range] at this <;> first | rfl | omega

theorem ownerOf_cart_iff {a : Nat} : ownerOf a = .cart ↔ (0x0100 ≤ a ∧ a < 0x8000) ∨ (0xA000 ≤ a ∧ a < 0xC000) := by
  refine ⟨fun h => by have := ownerOf_range a; rwa [h] at this, fun h => ?_⟩
  have := ownerOf_range a
  cases e : ownerOf a <;> rw [e] at this <;> simp only [Owner.range] at this <;> first | rfl | omega

theorem ownerOf_vram_iff {a : Nat} : ownerOf a = .vram ↔ 0x8000 ≤ a ∧ a < 0xA000 := by
  refine ⟨fun h => by have := ownerOf_range a; rwa [h] at this, fun h => ?_⟩
  have := ownerOf_range a
  cases e : ownerOf a <;> rw [e] at this <;> simp only [Owner.range] at this <;> first | rfl | omega

theorem ownerOf_wram_iff {a : Nat} : ownerOf a = .wram ↔ 0xC000 ≤ a ∧ a < 0xE000 := by
  refine ⟨fun h => by have := ownerOf_range a; rwa [h] at this, fun h => ?_⟩
  have := ownerOf_range a
  cases e : ownerOf a <;> rw [e] at this <;> simp only [Owner.range] at this <;> first | rfl | omega

theorem ownerOf_oam_iff {a : Nat} : ownerOf a = .oam ↔ 0xFE00 ≤ a ∧ a < 0xFEA0 := by
  refine ⟨fun h => by have := ownerOf_range a; rwa [h] at this, fun h => ?_⟩
  have := ownerOf_range a
  cases e : ownerOf a <;> rw [e] at this <;> simp only [Owner.range] at this <;> first | rfl | omega

theorem ownerOf_hram_iff {a : Nat} : ownerOf a = .hram ↔ 0xFF80 ≤ a ∧ a ≤ 0xFFFE := by
  refine ⟨fun h => by have := ownerOf_range a; rwa [h] at this, fun h => ?_⟩
  have := ownerOf_range a
  cases e : ownerOf a <;> rw [e] at this <;> simp only [Owner.range] at this <;> first | rfl | omega

theorem ownerOf_display_iff {a : Nat} : ownerOf a = .display ↔ 0xFF40 ≤ a ∧ a ≤ 0xFF4B := by
  refine ⟨fun h => by have := ownerOf_range a; rwa [h] at this, fun h => ?_⟩
  have := ownerOf_range a
  cases e : ownerOf a <;> rw [e] at this <;> simp only [Owner.range] at this <;> first | rfl | omega

theorem ownerOf_ifReg_iff {a : Nat} : ownerOf a = .ifReg ↔ a = 0xFF0F := by
  refine ⟨fun h => by have := ownerOf_range a; rwa [h] at this, fun h => ?_⟩
  have := ownerOf_range a
  cases e : ownerOf a <;> rw [e] at this <;> simp only [Owner.range] at this <;> first | rfl | omega

theorem ownerOf_ieReg_iff {a : Nat} : ownerOf a = .ieReg ↔ a = 0xFFFF := by
  refine ⟨fun h => by have := ownerOf_range a; rwa [h] at this, fun h => ?_⟩
  have := ownerOf_range a
  cases e : ownerOf a <;> rw [e] at this <;> simp only [Owner.range] at this <;> first | rfl | omega

theorem ownerOf_bootUnmap_iff {a : Nat} : ownerOf a = .bootUnmap ↔ a = 0xFF50 := by
  refine ⟨fun h => by have := ownerOf_range a; rwa [h] at this, fun h => ?_⟩
  have := ownerOf_range a
  cases e : ownerOf a <;> rw [e] at this <;> simp only [Owner.range] at this <;> first | rfl | omega

theorem ownerOf_joypad_iff {a : Nat} : ownerOf a = .joypad ↔ a = 0xFF00 := by
  refine ⟨fun h => by have := ownerOf_range a; rwa [h] at this, fun h => ?_⟩
  have := ownerOf_range a
  cases e : ownerOf a <;> rw [e] at this <;> simp only [Owner.range] at this <;> first | rfl | omega

theorem ownerOf_serial_iff {a : Nat} : ownerOf a = .serial ↔ a = 0xFF01 ∨ a = 0xFF02 := by
  refine ⟨fun h => by have := ownerOf_range a; rwa [h] at this, fun h => ?_⟩
  have := ownerOf_range a
  cases e : ownerOf a <;> rw [e] at this <;> simp only [Owner.range] at this <;> first | rfl | omega

theorem ownerOf_timer_iff {a : Nat} : ownerOf a = .timer ↔ 0xFF04 ≤ a ∧ a ≤ 0xFF07 := by
  refine ⟨fun h => by have := ownerOf_range a; rwa [h] at this, fun h => ?_⟩
  have := ownerOf_range a
  cases e : ownerOf a <;> rw [e] at this <;> simp only [Owner.range] at this <;> first | rfl | omega

theorem ownerOf_unmapped_of {a : Nat} (h : Owner.unmapped.range a) : ownerOf a = .unmapped := by
  have := ownerOf_range a
  cases e : ownerOf a <;> rw [e] at this <;> simp only [Owner.range] at this h <;> first | rfl | omega

/-! ## The DMA copy (R73) -/

/-- The copy stores bytes and does nothing else. -/
theorem Bus.dmaFold_shape (p : Params) (v : Byte) (ks : List Nat) (b : Bus) :
    ∃ m, ks.foldl (Bus.dmaStep p v) b = { b with mem := m } := by
  induction ks generalizing b with
  | nil => exact ⟨b.mem, rfl⟩
  | cons k ks ih =>
    obtain ⟨m, hm⟩ := ih (b.dmaStep p v k)
    exact ⟨m, by rw [List.foldl_cons, hm]; rfl⟩

theorem Bus.dmaCopy_shape (p : Params) (v : Byte) (b : Bus) : ∃ m, b.dmaCopy p v = { b with mem := m } :=
  Bus.dmaFold_shape p v _ b

/-- A property of memories that a store into OAM keeps is kept by the copy. -/
theorem Bus.dmaFold_mem (P : Memory → Prop) (p : Params) (v : Byte) (ks : List Nat) (b : Bus) (hks : ∀ k ∈ ks, k < 160)
    (hP : ∀ m k w, k < 160 → P m → P (writeCell m (0xFE00 + k) w)) (h : P b.mem) :
    P (ks.foldl (Bus.dmaStep p v) b).mem := by
  induction ks generalizing b with
  | nil => exact h
  | cons k ks ih =>
    rw [List.foldl_cons]
    exact ih _ (fun q hq => hks q (List.mem_cons_of_mem _ hq)) (hP _ _ _ (hks k List.mem_cons_self) h)

theorem Bus.dmaCopy_mem (P : Memory → Prop) (p : Params) (v : Byte) (b : Bus)
    (hP : ∀ m k w, k < 160 → P m → P (writeCell m (0xFE00 + k) w)) (h : P b.mem) : P (b.dmaCopy p v).mem :=
  Bus.dmaFold_mem P p v _ b (fun k hk => by simpa using hk) hP h

@[simp] theorem Bus.dmaCopy_ppu (p : Params) (v : Byte) (b : Bus) : (b.dmaCopy p v).ppu = b.ppu := by
  obtain ⟨m, h⟩ := b.dmaCopy_shape p v; rw [h]
@[simp] theorem Bus.dmaCopy_ifReg (p : Params) (v : Byte) (b : Bus) : (b.dmaCopy p v).ifReg = b.ifReg := by
  obtain ⟨m, h⟩ := b.dmaCopy_shape p v; rw [h]
@[simp] theorem Bus.dmaCopy_ieReg (p : Params) (v : Byte) (b : Bus) : (b.dmaCopy p v).ieReg = b.ieReg := by
  obtain ⟨m, h⟩ := b.dmaCopy_shape p v; rw [h]
@[simp] theorem Bus.dmaCopy_bootMapped (p : Params) (v : Byte) (b : Bus) :
    (b.dmaCopy p v).bootMapped = b.bootMapped := by
  obtain ⟨m, h⟩ := b.dmaCopy_shape p v; rw [h]
@[simp] theorem Bus.dmaCopy_boot (p : Params) (v : Byte) (b : Bus) : (b.dmaCopy p v).boot = b.boot := by
  obtain ⟨m, h⟩ := b.dmaCopy_shape p v; rw [h]
@[simp] theorem Bus.dmaCopy_cart (p : Params) (v : Byte) (b : Bus) : (b.dmaCopy p v).cart = b.cart := by
  obtain ⟨m, h⟩ := b.dmaCopy_shape p v; rw [h]
@[simp] theorem Bus.dmaCopy_timer (p : Params) (v : Byte) (b : Bus) : (b.dmaCopy p v).timer = b.timer := by
  obtain ⟨m, h⟩ := b.dmaCopy_shape p v; rw [h]
@[simp] theorem Bus.dmaCopy_serial (p : Params) (v : Byte) (b : Bus) : (b.dmaCopy p v).serial = b.serial := by
  obtain ⟨m, h⟩ := b.dmaCopy_shape p v; rw [h]
@[simp] theorem Bus.dmaCopy_joypad (p : Params) (v : Byte) (b : Bus) : (b.dmaCopy p v).joypad = b.joypad := by
  obtain ⟨m, h⟩ := b.dmaCopy_shape p v; rw [h]

/-! ## One byte written (R61) -/

/-- The display fields no bus write reaches (R37, R39, R44, R47, R48). -/
structure Ppu.SameHidden (p q : Ppu) : Prop where
  mode : q.mode = p.mode
  modeTicks : q.modeTicks = p.modeTicks
  ly : q.ly = p.ly
  lycEqual : q.lycEqual = p.lycEqual
  lineObjs : q.lineObjs = p.lineObjs
  frame : q.frame = p.frame

theorem Ppu.SameHidden.refl (p : Ppu) : p.SameHidden p := ⟨rfl, rfl, rfl, rfl, rfl, rfl⟩

theorem Ppu.SameHidden.trans {p q r : Ppu} (h : p.SameHidden q) (h' : q.SameHidden r) : p.SameHidden r :=
  ⟨h'.1.trans h.1, h'.2.trans h.2, h'.3.trans h.3, h'.4.trans h.4, h'.5.trans h.5, h'.6.trans h.6⟩

theorem Ppu.writeReg_hidden (p : Ppu) (a : Nat) (v : Byte) : p.SameHidden (p.writeReg a v) := by
  unfold Ppu.writeReg
  iterate 11 refine iteInduction (fun _ => ⟨rfl, rfl, rfl, rfl, rfl, rfl⟩) (fun _ => ?_)
  exact ⟨rfl, rfl, rfl, rfl, rfl, rfl⟩

/-- What a bus write keeps, whatever its address: the display's hidden state, the overlay's image, a ROM-only cartridge, and
`boot_mapped` unless it clears it. -/
structure Bus.Kept (b c : Bus) : Prop where
  hidden : b.ppu.SameHidden c.ppu
  boot : c.boot = b.boot
  mapped : b.bootMapped = false → c.bootMapped = false
  rom : ∀ m, b.cart = .romOnly m → c.cart = .romOnly m

theorem Bus.Kept.refl (b : Bus) : b.Kept b := ⟨.refl _, rfl, id, fun _ => id⟩

theorem Bus.Kept.trans {a b c : Bus} (h : a.Kept b) (h' : b.Kept c) : a.Kept c :=
  ⟨h.hidden.trans h'.hidden, h'.boot.trans h.boot, fun hm => h'.mapped (h.mapped hm), fun m hm => h'.rom m (h.rom m hm)⟩

theorem Cart.write_romOnly (m : Memory) (a : Nat) (v : Byte) : (Cart.romOnly m).write a v = .romOnly m := rfl

theorem Bus.writeDisplay_kept (p : Params) (b : Bus) (a : Nat) (v : Byte) : b.Kept (b.writeDisplay p a v) := by
  unfold Bus.writeDisplay
  split
  · exact ⟨by simpa using b.ppu.writeReg_hidden a v, by simp, by simp, by simp⟩
  · exact ⟨b.ppu.writeReg_hidden a v, rfl, id, fun _ => id⟩

theorem Bus.write_kept (p : Params) (b : Bus) (a : Word) (v : Byte) : b.Kept (b.write p a v) := by
  have hc : ∀ m, b.cart = .romOnly m → b.cart.write a.toNat v = .romOnly m := by
    intro m hm; rw [hm, Cart.write_romOnly]
  unfold Bus.write
  dsimp only
  split
  case h_10 => exact b.writeDisplay_kept p _ v
  case h_1 => split <;> exact ⟨.refl _, rfl, id, by first | exact fun _ => id | exact hc⟩
  case h_2 => exact ⟨.refl _, rfl, id, hc⟩
  case h_11 => exact ⟨.refl _, rfl, fun _ => rfl, fun _ => id⟩
  all_goals
    first
    | exact ⟨.refl _, rfl, id, fun _ => id⟩
    | (split <;> exact ⟨.refl _, rfl, id, fun _ => id⟩)

/-- A property of memories that every store into plain storage keeps is kept by a bus write. -/
theorem Bus.write_mem (P : Memory → Prop)
    (hP : ∀ m a w, ownerOf a = .vram ∨ ownerOf a = .wram ∨ ownerOf a = .oam ∨ ownerOf a = .hram → a < 65536 → P m →
      P (writeCell m a w))
    (p : Params) (b : Bus) (a : Word) (v : Byte) (h : P b.mem) : P (b.write p a v).mem := by
  have hlt : a.toNat < 65536 := a.isLt
  have hd : ∀ c : Bus, P c.mem → P (c.dmaCopy p v).mem := fun c hc =>
    Bus.dmaCopy_mem P p v c (fun m k w hk hm => hP m _ w (.inr (.inr (.inl (ownerOf_oam_iff.2 ⟨by omega, by omega⟩))))
      (by omega) hm) hc
  unfold Bus.write
  dsimp only
  split
  case h_10 =>
    unfold Bus.writeDisplay
    dsimp only
    split
    · exact hd _ h
    · exact h
  case h_3 e => split <;> first | exact h | exact hP _ _ _ (.inl e) hlt h
  case h_4 e => exact hP _ _ _ (.inr (.inl e)) hlt h
  case h_5 e => split <;> first | exact h | exact hP _ _ _ (.inr (.inr (.inl e))) hlt h
  case h_12 e => exact hP _ _ _ (.inr (.inr (.inr e))) hlt h
  all_goals first | exact h | (split <;> exact h)

/-- Every bus write keeps the canonical form of the memory. -/
theorem Bus.write_wf (p : Params) (b : Bus) (a : Word) (v : Byte) (h : Memory.wf b.mem = true) :
    Memory.wf (b.write p a v).mem = true :=
  Bus.write_mem (fun m => Memory.wf m = true) (fun _ _ w _ hlt hm => Memory.wf_writeCell w hlt hm) p b a v h

/-- Every bus write keeps the memory within plain storage. -/
theorem Bus.write_inStorage (p : Params) (b : Bus) (a : Word) (v : Byte) (h : Memory.inStorage b.mem = true) :
    Memory.inStorage (b.write p a v).mem = true :=
  Bus.write_mem (fun m => Memory.inStorage m = true) (fun _ _ w ho _ hm => Memory.inStorage_writeCell w ho hm) p b a v h

/-- `IF` after a bus write (R33). -/
theorem Bus.write_ifReg (p : Params) (b : Bus) (a : Word) (v : Byte) :
    (b.write p a v).ifReg = if a = 0xFF0F then v.extractLsb' 0 5 else b.ifReg := by
  have key : a = 0xFF0F ↔ ownerOf a.toNat = .ifReg := by
    rw [ownerOf_ifReg_iff]; exact ⟨fun h => by rw [h]; rfl, fun h => BitVec.eq_of_toNat_eq (by rw [h]; rfl)⟩
  by_cases h : ownerOf a.toNat = .ifReg
  · rw [if_pos (key.2 h)]; unfold Bus.write; dsimp only; rw [h]
  · rw [if_neg (fun e => h (key.1 e))]
    unfold Bus.write
    dsimp only
    split
    case h_9 e => exact absurd e h
    case h_10 => unfold Bus.writeDisplay; dsimp only; split <;> simp
    all_goals first | rfl | (split <;> rfl)

/-- `IE` after a bus write (R34). -/
theorem Bus.write_ieReg (p : Params) (b : Bus) (a : Word) (v : Byte) :
    (b.write p a v).ieReg = if a = 0xFFFF then v.extractLsb' 0 5 else b.ieReg := by
  have key : a = 0xFFFF ↔ ownerOf a.toNat = .ieReg := by
    rw [ownerOf_ieReg_iff]; exact ⟨fun h => by rw [h]; rfl, fun h => BitVec.eq_of_toNat_eq (by rw [h]; rfl)⟩
  by_cases h : ownerOf a.toNat = .ieReg
  · rw [if_pos (key.2 h)]; unfold Bus.write; dsimp only; rw [h]
  · rw [if_neg (fun e => h (key.1 e))]
    unfold Bus.write
    dsimp only
    split
    case h_13 e => exact absurd e h
    case h_10 => unfold Bus.writeDisplay; dsimp only; split <;> simp
    all_goals first | rfl | (split <;> rfl)

/-! ## Requests -/

@[simp] theorem Bus.request_mem (b : Bus) (i : Nat) : (b.request i).mem = b.mem := rfl
@[simp] theorem Bus.request_ppu (b : Bus) (i : Nat) : (b.request i).ppu = b.ppu := rfl
@[simp] theorem Bus.request_ieReg (b : Bus) (i : Nat) : (b.request i).ieReg = b.ieReg := rfl
@[simp] theorem Bus.request_ifReg (b : Bus) (i : Nat) : (b.request i).ifReg = b.ifReg ||| BitVec.twoPow 5 i := rfl

end Sys2Proof.Machine
end

