-- ==== Sys2Proof/Laws/Display.lean ====
section
/-! SUPPORT. The display engine: what its step reaches, the object scan's list, and the rows of the frame. -/

namespace Sys2Proof.Machine

/-! ## The object scan (R350) -/

/-- One step of the scan. -/
def scanStep (b : Bus) (objs : List Nat) (k : Nat) : List Nat :=
  if objs.length < 10 ∧ b.objCovers k then objs ++ [k] else objs

/-- What the scan has found after the objects below `n`: at most ten, in ascending order, all below `n`. -/
theorem scan_prefix_ok (b : Bus) (n : Nat) :
    ((List.range n).foldl (scanStep b) []).length ≤ 10 ∧
      ((List.range n).foldl (scanStep b) []).Pairwise (· < ·) ∧
      ∀ k ∈ (List.range n).foldl (scanStep b) [], k < n := by
  induction n with
  | zero => simp
  | succ n ih =>
    obtain ⟨h1, h2, h3⟩ := ih
    rw [List.range_succ, List.foldl_append, List.foldl_cons, List.foldl_nil]
    unfold scanStep at *
    split
    · rename_i hc
      refine ⟨by simp; omega, ?_, ?_⟩
      · rw [List.pairwise_append]
        exact ⟨h2, by simp, fun a ha c hc => by simp only [List.mem_singleton] at hc; rw [hc]; exact h3 a ha⟩
      · intro k hk
        rcases List.mem_append.1 hk with h | h
        · have := h3 k h; omega
        · simp only [List.mem_singleton] at h; omega
    · exact ⟨h1, h2, fun k hk => by have := h3 k hk; omega⟩

/-- The scan's list is in the form R47 gives it. -/
theorem Bus.scannedObjs_ok (b : Bus) :
    b.scannedObjs.length ≤ 10 ∧ b.scannedObjs.Pairwise (· < ·) ∧ ∀ k ∈ b.scannedObjs, k < 40 := scan_prefix_ok b 40

/-! ## The rows of the frame (R48) -/

theorem readRow_writeRow_same (rows : List (Nat × List (BitVec 2))) (y : Nat) (row : List (BitVec 2)) :
    readRow (writeRow rows y row) y = some row := by
  induction rows with
  | nil => simp [writeRow, readRow]
  | cons cell rows ih =>
    obtain ⟨k, r⟩ := cell
    unfold writeRow
    split
    · simp [readRow]
    · split
      · simp [readRow]
      · rename_i h1 h2
        simp [readRow, h2, ih]

theorem readRow_writeRow_other (rows : List (Nat × List (BitVec 2))) {y x : Nat} (row : List (BitVec 2)) (h : x ≠ y) :
    readRow (writeRow rows y row) x = readRow rows x := by
  induction rows with
  | nil => simp [writeRow, readRow, h]
  | cons cell rows ih =>
    obtain ⟨k, r⟩ := cell
    unfold writeRow
    split
    · simp [readRow, h]
    · split
      · rename_i h1 h2
        subst h2
        simp [readRow, h]
      · simp [readRow, ih]

theorem mem_writeRow {rows : List (Nat × List (BitVec 2))} {y : Nat} {row : List (BitVec 2)} {c : Nat × List (BitVec 2)}
    (h : c ∈ writeRow rows y row) : c = (y, row) ∨ c ∈ rows := by
  induction rows with
  | nil => simpa [writeRow] using h
  | cons cell rows ih =>
    obtain ⟨k, r⟩ := cell
    unfold writeRow at h
    split at h
    · simpa using h
    · split at h
      · rcases List.mem_cons.1 h with h | h
        · exact .inl h
        · exact .inr (List.mem_cons_of_mem _ h)
      · rcases List.mem_cons.1 h with h | h
        · exact .inr (by rw [h]; exact List.mem_cons_self)
        · rcases ih h with h | h
          · exact .inl h
          · exact .inr (List.mem_cons_of_mem _ h)

theorem writeRow_rising {rows : List (Nat × List (BitVec 2))} (y : Nat) (row : List (BitVec 2))
    (h : rows.Pairwise (·.1 < ·.1)) : (writeRow rows y row).Pairwise (·.1 < ·.1) := by
  induction rows with
  | nil => simp [writeRow]
  | cons cell rows ih =>
    obtain ⟨k, r⟩ := cell
    rw [List.pairwise_cons] at h
    unfold writeRow
    split
    · rename_i h1
      rw [List.pairwise_cons]
      refine ⟨fun c hc => ?_, List.pairwise_cons.2 h⟩
      rcases List.mem_cons.1 hc with hc | hc
      · rw [hc]; exact h1
      · have := h.1 c hc; simp only at this ⊢; omega
    · split
      · rename_i h1 h2
        rw [List.pairwise_cons]
        exact ⟨fun c hc => by have := h.1 c hc; simp only at this ⊢; omega, h.2⟩
      · rename_i h1 h2
        rw [List.pairwise_cons]
        refine ⟨fun c hc => ?_, ih h.2⟩
        rcases mem_writeRow hc with hc | hc
        · rw [hc]; simp only; omega
        · exact h.1 c hc

/-- A rendered line keeps the frame's form (R48, R351). -/
theorem Bus.renderLine_frameOk (b : Bus) (hly : b.ppu.ly.toNat ≤ 143) (h : b.ppu.frameOk) :
    b.renderLine.ppu.frameOk := by
  refine ⟨writeRow_rising _ _ h.1, fun row hrow => ?_⟩
  rcases mem_writeRow hrow with hr | hr
  · rw [hr]; exact ⟨by simp only; omega, by simp⟩
  · exact h.2 row hr

/-! ## What the display engine's step reaches -/

/-- Two buses alike but for the display engine and the requests. -/
structure Bus.SameRest (b c : Bus) : Prop where
  mem : c.mem = b.mem
  ieReg : c.ieReg = b.ieReg
  bootMapped : c.bootMapped = b.bootMapped
  boot : c.boot = b.boot
  cart : c.cart = b.cart
  timer : c.timer = b.timer
  serial : c.serial = b.serial
  joypad : c.joypad = b.joypad
  /-- Requests are only added (R310). -/
  requests : ∀ i, b.ifReg.getLsbD i = true → c.ifReg.getLsbD i = true
  lcdc : c.ppu.lcdc = b.ppu.lcdc
  statSelect : c.ppu.statSelect = b.ppu.statSelect
  lyc : c.ppu.lyc = b.ppu.lyc

theorem Bus.SameRest.refl (b : Bus) : b.SameRest b := ⟨rfl, rfl, rfl, rfl, rfl, rfl, rfl, rfl, fun _ => id, rfl, rfl, rfl⟩

theorem Bus.SameRest.trans {a b c : Bus} (h : a.SameRest b) (h' : b.SameRest c) : a.SameRest c :=
  ⟨h'.mem.trans h.mem, h'.ieReg.trans h.ieReg, h'.bootMapped.trans h.bootMapped, h'.boot.trans h.boot,
    h'.cart.trans h.cart, h'.timer.trans h.timer, h'.serial.trans h.serial, h'.joypad.trans h.joypad,
    fun i hi => h'.requests i (h.requests i hi), h'.lcdc.trans h.lcdc, h'.statSelect.trans h.statSelect,
    h'.lyc.trans h.lyc⟩

theorem Bus.request_rest (b : Bus) (i : Nat) : b.SameRest (b.request i) :=
  ⟨rfl, rfl, rfl, rfl, rfl, rfl, rfl, rfl, fun j hj => by simp only [Bus.request_ifReg, BitVec.getLsbD_or, hj, Bool.true_or],
    rfl, rfl, rfl⟩

theorem Bus.withPpu_rest (b : Bus) (q : Ppu) (h1 : q.lcdc = b.ppu.lcdc) (h2 : q.statSelect = b.ppu.statSelect)
    (h3 : q.lyc = b.ppu.lyc) : b.SameRest { b with ppu := q } :=
  ⟨rfl, rfl, rfl, rfl, rfl, rfl, rfl, rfl, fun _ => id, h1, h2, h3⟩

theorem Bus.entryEffect_rest (b : Bus) (m : Mode) : b.SameRest (b.entryEffect m) := by
  cases m
  · exact .refl b
  · exact b.request_rest 0
  · exact b.withPpu_rest { b.ppu with lineObjs := b.scannedObjs } rfl rfl rfl
  · exact b.withPpu_rest { b.ppu with frame := _ } rfl rfl rfl

theorem Bus.enterMode_rest (b : Bus) (m : Mode) : b.SameRest (b.enterMode m) := by
  have h1 : b.SameRest { b with ppu := { b.ppu with mode := m, modeTicks := 0 } } :=
    ⟨rfl, rfl, rfl, rfl, rfl, rfl, rfl, rfl, fun _ => id, rfl, rfl, rfl⟩
  unfold Bus.enterMode
  dsimp only
  split
  · exact (h1.trans (entryEffect_rest _ m)).trans (request_rest _ 1)
  · exact h1.trans (entryEffect_rest _ m)

theorem Bus.setLy_rest (b : Bus) (v : Byte) : b.SameRest (b.setLy v) :=
  ⟨rfl, rfl, rfl, rfl, rfl, rfl, rfl, rfl, fun _ => id, rfl, rfl, rfl⟩

theorem Bus.transition_rest (b : Bus) : b.SameRest b.transition := by
  unfold Bus.transition
  dsimp only
  split
  · split
    · exact b.enterMode_rest _
    · exact .refl b
  · split
    · exact b.enterMode_rest _
    · exact .refl b
  · split
    · split <;> exact (b.setLy_rest _).trans (enterMode_rest _ _)
    · exact .refl b
  · split
    · split
      · exact (b.setLy_rest _).trans (enterMode_rest _ _)
      · exact ⟨rfl, rfl, rfl, rfl, rfl, rfl, rfl, rfl, fun _ => id, rfl, rfl, rfl⟩
    · exact .refl b

theorem Bus.modeMachine_rest (b : Bus) : b.SameRest b.modeMachine := by
  unfold Bus.modeMachine
  split
  · have h1 : b.SameRest { b with ppu := { b.ppu with modeTicks := b.ppu.modeTicks + 1 } } :=
      ⟨rfl, rfl, rfl, rfl, rfl, rfl, rfl, rfl, fun _ => id, rfl, rfl, rfl⟩
    exact h1.trans (transition_rest _)
  · exact ⟨rfl, rfl, rfl, rfl, rfl, rfl, rfl, rfl, fun _ => id, rfl, rfl, rfl⟩

theorem Bus.compareLyc_rest (b : Bus) : b.SameRest b.compareLyc := by
  unfold Bus.compareLyc
  dsimp only
  split
  · exact (b.request_rest 1).trans ⟨rfl, rfl, rfl, rfl, rfl, rfl, rfl, rfl, fun _ => id, rfl, rfl, rfl⟩
  · exact ⟨rfl, rfl, rfl, rfl, rfl, rfl, rfl, rfl, fun _ => id, rfl, rfl, rfl⟩

/-- The display engine's step changes nothing but the display and the requests, and clears no request. -/
theorem Bus.ppuStep_rest (b : Bus) : b.SameRest b.ppuStep := b.modeMachine_rest.trans (compareLyc_rest _)

/-! ## Entering a mode -/

@[simp] theorem Bus.enterMode_mode (b : Bus) (m : Mode) : (b.enterMode m).ppu.mode = m := by
  unfold Bus.enterMode; cases m <;> dsimp only [Bus.entryEffect, Bus.objectScan, Bus.renderLine, Bus.request] <;> split <;> rfl
@[simp] theorem Bus.enterMode_modeTicks (b : Bus) (m : Mode) : (b.enterMode m).ppu.modeTicks = 0 := by
  unfold Bus.enterMode; cases m <;> dsimp only [Bus.entryEffect, Bus.objectScan, Bus.renderLine, Bus.request] <;> split <;> rfl
@[simp] theorem Bus.enterMode_ly (b : Bus) (m : Mode) : (b.enterMode m).ppu.ly = b.ppu.ly := by
  unfold Bus.enterMode; cases m <;> dsimp only [Bus.entryEffect, Bus.objectScan, Bus.renderLine, Bus.request] <;> split <;> rfl
@[simp] theorem Bus.enterMode_lycEqual (b : Bus) (m : Mode) : (b.enterMode m).ppu.lycEqual = b.ppu.lycEqual := by
  unfold Bus.enterMode; cases m <;> dsimp only [Bus.entryEffect, Bus.objectScan, Bus.renderLine, Bus.request] <;> split <;> rfl

/-- The object list after entering mode 2 is a scan's. -/
theorem Bus.enterMode_lineObjs_scan (b : Bus) :
    (b.enterMode .oamScan).ppu.lineObjs =
      Bus.scannedObjs { b with ppu := { b.ppu with mode := .oamScan, modeTicks := 0 } } := by
  unfold Bus.enterMode
  dsimp only [Bus.entryEffect, Bus.objectScan, Bus.request]
  split <;> dsimp only

/-- The object list after entering another mode is the old one. -/
theorem Bus.enterMode_lineObjs_kept (b : Bus) {m : Mode} (hm : m ≠ .oamScan) :
    (b.enterMode m).ppu.lineObjs = b.ppu.lineObjs := by
  unfold Bus.enterMode
  cases m <;> dsimp only [Bus.entryEffect, Bus.renderLine, Bus.request]
  case oamScan => exact absurd rfl hm
  all_goals split <;> dsimp only

/-- Entering a mode keeps the form of the object list. -/
theorem Bus.enterMode_lineObjsOk (b : Bus) (m : Mode) (h : b.ppu.lineObjsOk) : (b.enterMode m).ppu.lineObjsOk := by
  unfold Ppu.lineObjsOk
  by_cases hm : m = .oamScan
  · rw [hm, enterMode_lineObjs_scan]; exact Bus.scannedObjs_ok _
  · rw [enterMode_lineObjs_kept b hm]; exact h

/-- Entering a mode keeps the form of the frame, the line drawn on entry to mode 3 being one of 0 to 143. -/
theorem Bus.enterMode_frameOk (b : Bus) (m : Mode) (hly : m = .draw → b.ppu.ly.toNat ≤ 143) (h : b.ppu.frameOk) :
    (b.enterMode m).ppu.frameOk := by
  unfold Bus.enterMode
  cases m
  case draw =>
    dsimp only [Bus.entryEffect, Bus.request]
    split <;> exact Bus.renderLine_frameOk { b with ppu := { b.ppu with mode := .draw, modeTicks := 0 } } (hly rfl) h
  all_goals dsimp only [Bus.entryEffect, Bus.objectScan, Bus.request] <;> split <;> exact h

/-- What the mode machine can do to a bus: set the line, the mode and the count and nothing else, the mode staying or becoming 0;
or enter a mode that is not the one it was in, with the line set first, which for mode 3 stays. -/
theorem Bus.modeMachine_cases (b : Bus) :
    (∃ v m n, (m = b.ppu.mode ∨ m = .hblank) ∧
      b.modeMachine = { b with ppu := { b.ppu with ly := v, mode := m, modeTicks := n } }) ∨
    (∃ v m n, m ≠ b.ppu.mode ∧ (m = .draw → v = b.ppu.ly) ∧
      b.modeMachine = Bus.enterMode { b with ppu := { b.ppu with ly := v, modeTicks := n } } m) := by
  unfold Bus.modeMachine
  split
  · unfold Bus.transition
    cases hm : b.ppu.mode <;> dsimp only
    case oamScan =>
      split
      · exact .inr ⟨b.ppu.ly, .draw, _, by decide, fun _ => rfl, rfl⟩
      · exact .inl ⟨b.ppu.ly, .oamScan, _, .inl rfl, by rw [← hm]⟩
    case draw =>
      split
      · exact .inr ⟨b.ppu.ly, .hblank, _, by decide, fun _ => rfl, rfl⟩
      · exact .inl ⟨b.ppu.ly, .draw, _, .inl rfl, by rw [← hm]⟩
    case hblank =>
      split
      · split
        · exact .inr ⟨b.ppu.ly + 1, .vblank, _, by decide, nofun, rfl⟩
        · exact .inr ⟨b.ppu.ly + 1, .oamScan, _, by decide, nofun, rfl⟩
      · exact .inl ⟨b.ppu.ly, .hblank, _, .inl rfl, by rw [← hm]⟩
    case vblank =>
      split
      · split
        · exact .inr ⟨0, .oamScan, _, by decide, nofun, rfl⟩
        · exact .inl ⟨b.ppu.ly + 1, .vblank, 0, .inl rfl, by rw [← hm]⟩
      · exact .inl ⟨b.ppu.ly, .vblank, _, .inl rfl, by rw [← hm]⟩
  · exact .inl ⟨0, .hblank, 0, .inr rfl, rfl⟩

/-- A column's shade does not depend on the mode or its count. -/
@[simp] theorem Bus.pixel_withMode (b : Bus) (m : Mode) (n x : Nat) :
    Bus.pixel { b with ppu := { b.ppu with mode := m, modeTicks := n } } x = b.pixel x := rfl

/-- The frame after entering mode 3 is the rendered line's. -/
theorem Bus.enterMode_frame_draw (b : Bus) : (b.enterMode .draw).ppu.frame = b.renderLine.ppu.frame := by
  unfold Bus.enterMode
  dsimp only [Bus.entryEffect, Bus.request]
  split <;> rfl

/-- The frame after entering another mode is the old one. -/
theorem Bus.enterMode_frame_kept (b : Bus) {m : Mode} (hm : m ≠ .draw) : (b.enterMode m).ppu.frame = b.ppu.frame := by
  unfold Bus.enterMode
  cases m <;> dsimp only [Bus.entryEffect, Bus.objectScan, Bus.request]
  case draw => exact absurd rfl hm
  all_goals split <;> dsimp only

/-- Every step of the display engine keeps the ranges of `LY` and `mode_ticks`, the object list's form and the frame's
(R39, R47, R48). -/
theorem Bus.transition_ok (b : Bus) (h : b.ppu.Ok) :
    (Bus.transition { b with ppu := { b.ppu with modeTicks := b.ppu.modeTicks + 1 } }).ppu.Ok := by
  obtain ⟨hr, ho, hf⟩ := h
  unfold Ppu.rangesOk at hr
  unfold Bus.transition
  dsimp only
  cases hm : b.ppu.mode <;> simp only [hm] at hr ⊢
  case oamScan =>
    split
    · refine ⟨?_, enterMode_lineObjsOk _ _ ho, enterMode_frameOk _ _ (fun _ => hr.1) hf⟩
      simp only [Ppu.rangesOk, enterMode_mode, enterMode_ly, enterMode_modeTicks]
      exact ⟨hr.1, by decide⟩
    · rename_i hne
      refine ⟨?_, ho, hf⟩
      simp only [Ppu.rangesOk, Config.oamScanTicks] at hne ⊢
      exact ⟨hr.1, by omega⟩
  case draw =>
    split
    · refine ⟨?_, enterMode_lineObjsOk _ _ ho, enterMode_frameOk _ _ (fun _ => hr.1) hf⟩
      simp only [Ppu.rangesOk, enterMode_mode, enterMode_ly, enterMode_modeTicks]
      exact ⟨hr.1, by decide⟩
    · rename_i hne
      refine ⟨?_, ho, hf⟩
      simp only [Ppu.rangesOk, Config.drawTicks] at hne ⊢
      exact ⟨hr.1, by omega⟩
  case hblank =>
    have hinc : (b.ppu.ly + 1).toNat = b.ppu.ly.toNat + 1 := by
      rw [BitVec.toNat_add, show (1 : Byte).toNat = 1 from rfl]; omega
    split
    · split
      · rename_i h144
        refine ⟨?_, enterMode_lineObjsOk _ _ ho, enterMode_frameOk _ _ (fun e => by cases e) hf⟩
        have h144 : b.ppu.ly + 1 = 144 := h144
        simp only [Ppu.rangesOk, enterMode_mode, enterMode_ly, enterMode_modeTicks, setLy, h144]
        decide
      · rename_i h144
        have h144 : ¬ b.ppu.ly + 1 = 144 := h144
        have : (b.ppu.ly + 1).toNat ≠ 144 := fun e => h144 (BitVec.eq_of_toNat_eq e)
        refine ⟨?_, enterMode_lineObjsOk _ _ ho, enterMode_frameOk _ _ (fun e => by cases e) hf⟩
        simp only [Ppu.rangesOk, enterMode_mode, enterMode_ly, enterMode_modeTicks, setLy]
        exact ⟨by omega, by decide⟩
    · rename_i hne
      refine ⟨?_, ho, hf⟩
      simp only [Ppu.rangesOk, Config.hblankTicks] at hne ⊢
      exact ⟨hr.1, by omega⟩
  case vblank =>
    split
    · split
      · refine ⟨?_, enterMode_lineObjsOk _ _ ho, enterMode_frameOk _ _ (fun e => by cases e) hf⟩
        simp only [Ppu.rangesOk, enterMode_mode, enterMode_ly, enterMode_modeTicks, setLy]
        decide
      · rename_i h153
        have : b.ppu.ly.toNat ≠ 153 := fun e => h153 (BitVec.eq_of_toNat_eq e)
        have hinc : (b.ppu.ly + 1).toNat = b.ppu.ly.toNat + 1 := by
          rw [BitVec.toNat_add, show (1 : Byte).toNat = 1 from rfl]; omega
        refine ⟨?_, ho, hf⟩
        simp only [Ppu.rangesOk]
        exact ⟨by omega, by omega, by decide⟩
    · rename_i hne
      refine ⟨?_, ho, hf⟩
      simp only [Ppu.rangesOk, Config.lineTicks] at hne ⊢
      exact ⟨hr.1, hr.2.1, by omega⟩

theorem Bus.modeMachine_ok (b : Bus) (h : b.ppu.Ok) : b.modeMachine.ppu.Ok := by
  unfold Bus.modeMachine
  split
  · exact b.transition_ok h
  · exact ⟨show (0 : Byte).toNat ≤ 143 ∧ 0 < 204 by decide, h.objs, h.frame⟩

theorem Bus.compareLyc_hidden (b : Bus) :
    b.compareLyc.ppu = { b.ppu with lycEqual := b.ppu.ly == b.ppu.lyc } := by
  unfold Bus.compareLyc; dsimp only; split <;> rfl

theorem Bus.ppuStep_ok (b : Bus) (h : b.ppu.Ok) : b.ppuStep.ppu.Ok := by
  have h' := b.modeMachine_ok h
  unfold Bus.ppuStep
  rw [compareLyc_hidden]
  exact ⟨h'.ranges, h'.objs, h'.frame⟩

end Sys2Proof.Machine
end

