-- ==== Sys2Proof/Laws/State.lean ====
section
/-! SUPPORT. One lemma per field per update of the state, each true by unfolding the update, and what reading a register gives
after a write of the register file. -/

namespace Sys2Proof.Machine

/-! ## The register file -/

theorem Regs.get8_set8_same (r : Regs) (i : Reg8) (v : Byte) : (r.set8 i v).get8 i = v := by cases i <;> rfl

theorem Regs.get8_set8_other (r : Regs) {i j : Reg8} (v : Byte) (h : j ≠ i) : (r.set8 i v).get8 j = r.get8 j := by
  cases i <;> cases j <;> first | rfl | exact absurd rfl h

@[simp] theorem Regs.set8_flags (r : Regs) (i : Reg8) (v : Byte) : (r.set8 i v).flags = r.flags := by cases i <;> rfl
@[simp] theorem Regs.set8_sp (r : Regs) (i : Reg8) (v : Byte) : (r.set8 i v).sp = r.sp := by cases i <;> rfl
@[simp] theorem Regs.set8_pc (r : Regs) (i : Reg8) (v : Byte) : (r.set8 i v).pc = r.pc := by cases i <;> rfl

@[simp] theorem Regs.set16_a (r : Regs) (p : Reg16) (v : Word) : (r.set16 p v).a = r.a := by cases p <;> rfl
@[simp] theorem Regs.set16_flags (r : Regs) (p : Reg16) (v : Word) : (r.set16 p v).flags = r.flags := by cases p <;> rfl
@[simp] theorem Regs.set16_pc (r : Regs) (p : Reg16) (v : Word) : (r.set16 p v).pc = r.pc := by cases p <;> rfl

@[simp] theorem Regs.setStack_sp (r : Regs) (p : StackPair) (v : Word) : (r.setStack p v).sp = r.sp := by cases p <;> rfl
@[simp] theorem Regs.setStack_pc (r : Regs) (p : StackPair) (v : Word) : (r.setStack p v).pc = r.pc := by cases p <;> rfl

/-- A 16-bit value is its two bytes. -/
@[simp] theorem wordOf_hi_lo (w : Word) : wordOf (hiByte w) (loByte w) = w := by
  apply BitVec.eq_of_getLsbD_eq
  intro k hk
  simp only [wordOf, hiByte, loByte, BitVec.getLsbD_append, BitVec.getLsbD_extractLsb']
  by_cases h : k < 8
  · simp [h]
  · simp [h, show k - 8 < 8 by omega, show 8 + (k - 8) = k by omega]

@[simp] theorem hiByte_wordOf (h l : Byte) : hiByte (wordOf h l) = h := by
  apply BitVec.eq_of_getLsbD_eq
  intro k hk
  simp only [wordOf, hiByte, BitVec.getLsbD_extractLsb', BitVec.getLsbD_append]
  simp [hk, show ¬ 8 + k < 8 by omega]

@[simp] theorem loByte_wordOf (h l : Byte) : loByte (wordOf h l) = l := by
  apply BitVec.eq_of_getLsbD_eq
  intro k hk
  simp only [wordOf, loByte, BitVec.getLsbD_extractLsb', BitVec.getLsbD_append]
  simp [hk]

/-- A pair reads back what was written to it (R22). -/
theorem Regs.get16_set16_same (r : Regs) (p : Reg16) (v : Word) : (r.set16 p v).get16 p = v := by
  cases p <;> simp [Regs.get16, Regs.set16, Regs.bc, Regs.de, Regs.hl]

theorem Regs.get16_set16_other (r : Regs) {p q : Reg16} (v : Word) (h : q ≠ p) :
    (r.set16 p v).get16 q = r.get16 q := by
  cases p <;> cases q <;> first | rfl | exact absurd rfl h

/-- The flags of a byte of flags are those flags (R21). -/
@[simp] theorem Flags.ofByte_toByte (f : Flags) : Flags.ofByte f.toByte = f := by
  obtain ⟨z, n, h, c⟩ := f
  cases z <;> cases n <;> cases h <;> cases c <;> rfl

/-- The low nibble of `F` reads zero (R21). -/
theorem Flags.toByte_low (f : Flags) : f.toByte &&& 0x0F = 0 := by
  obtain ⟨z, n, h, c⟩ := f
  cases z <;> cases n <;> cases h <;> cases c <;> rfl

/-! ## Updates of the state -/

@[simp] theorem State.set8_regs (s : State) (i : Reg8) (v : Byte) : (s.set8 i v).regs = s.regs.set8 i v := rfl
@[simp] theorem State.set8_ticksRemaining (s : State) (i : Reg8) (v : Byte) : (s.set8 i v).ticksRemaining = s.ticksRemaining := rfl
@[simp] theorem State.set8_ime (s : State) (i : Reg8) (v : Byte) : (s.set8 i v).ime = s.ime := rfl
@[simp] theorem State.set8_imePending (s : State) (i : Reg8) (v : Byte) : (s.set8 i v).imePending = s.imePending := rfl
@[simp] theorem State.set8_halted (s : State) (i : Reg8) (v : Byte) : (s.set8 i v).halted = s.halted := rfl
@[simp] theorem State.set8_haltBug (s : State) (i : Reg8) (v : Byte) : (s.set8 i v).haltBug = s.haltBug := rfl
@[simp] theorem State.set8_bus (s : State) (i : Reg8) (v : Byte) : (s.set8 i v).bus = s.bus := rfl
@[simp] theorem State.set8_frameTick (s : State) (i : Reg8) (v : Byte) : (s.set8 i v).frameTick = s.frameTick := rfl
@[simp] theorem State.set8_extIrq (s : State) (i : Reg8) (v : Byte) : (s.set8 i v).extIrq = s.extIrq := rfl
@[simp] theorem State.set8_params (s : State) (i : Reg8) (v : Byte) : (s.set8 i v).params = s.params := rfl

@[simp] theorem State.set16_regs (s : State) (p : Reg16) (v : Word) : (s.set16 p v).regs = s.regs.set16 p v := rfl
@[simp] theorem State.set16_ticksRemaining (s : State) (p : Reg16) (v : Word) : (s.set16 p v).ticksRemaining = s.ticksRemaining := rfl
@[simp] theorem State.set16_ime (s : State) (p : Reg16) (v : Word) : (s.set16 p v).ime = s.ime := rfl
@[simp] theorem State.set16_imePending (s : State) (p : Reg16) (v : Word) : (s.set16 p v).imePending = s.imePending := rfl
@[simp] theorem State.set16_halted (s : State) (p : Reg16) (v : Word) : (s.set16 p v).halted = s.halted := rfl
@[simp] theorem State.set16_haltBug (s : State) (p : Reg16) (v : Word) : (s.set16 p v).haltBug = s.haltBug := rfl
@[simp] theorem State.set16_bus (s : State) (p : Reg16) (v : Word) : (s.set16 p v).bus = s.bus := rfl
@[simp] theorem State.set16_frameTick (s : State) (p : Reg16) (v : Word) : (s.set16 p v).frameTick = s.frameTick := rfl
@[simp] theorem State.set16_extIrq (s : State) (p : Reg16) (v : Word) : (s.set16 p v).extIrq = s.extIrq := rfl
@[simp] theorem State.set16_params (s : State) (p : Reg16) (v : Word) : (s.set16 p v).params = s.params := rfl

@[simp] theorem State.setStack_regs (s : State) (p : StackPair) (v : Word) : (s.setStack p v).regs = s.regs.setStack p v := rfl
@[simp] theorem State.setStack_ticksRemaining (s : State) (p : StackPair) (v : Word) : (s.setStack p v).ticksRemaining = s.ticksRemaining := rfl
@[simp] theorem State.setStack_ime (s : State) (p : StackPair) (v : Word) : (s.setStack p v).ime = s.ime := rfl
@[simp] theorem State.setStack_imePending (s : State) (p : StackPair) (v : Word) : (s.setStack p v).imePending = s.imePending := rfl
@[simp] theorem State.setStack_halted (s : State) (p : StackPair) (v : Word) : (s.setStack p v).halted = s.halted := rfl
@[simp] theorem State.setStack_haltBug (s : State) (p : StackPair) (v : Word) : (s.setStack p v).haltBug = s.haltBug := rfl
@[simp] theorem State.setStack_bus (s : State) (p : StackPair) (v : Word) : (s.setStack p v).bus = s.bus := rfl
@[simp] theorem State.setStack_frameTick (s : State) (p : StackPair) (v : Word) : (s.setStack p v).frameTick = s.frameTick := rfl
@[simp] theorem State.setStack_extIrq (s : State) (p : StackPair) (v : Word) : (s.setStack p v).extIrq = s.extIrq := rfl
@[simp] theorem State.setStack_params (s : State) (p : StackPair) (v : Word) : (s.setStack p v).params = s.params := rfl

@[simp] theorem State.setPc_regs (s : State) (v : Word) : (s.setPc v).regs = { s.regs with pc := v } := rfl
@[simp] theorem State.setPc_ticksRemaining (s : State) (v : Word) : (s.setPc v).ticksRemaining = s.ticksRemaining := rfl
@[simp] theorem State.setPc_ime (s : State) (v : Word) : (s.setPc v).ime = s.ime := rfl
@[simp] theorem State.setPc_imePending (s : State) (v : Word) : (s.setPc v).imePending = s.imePending := rfl
@[simp] theorem State.setPc_halted (s : State) (v : Word) : (s.setPc v).halted = s.halted := rfl
@[simp] theorem State.setPc_haltBug (s : State) (v : Word) : (s.setPc v).haltBug = s.haltBug := rfl
@[simp] theorem State.setPc_bus (s : State) (v : Word) : (s.setPc v).bus = s.bus := rfl
@[simp] theorem State.setPc_frameTick (s : State) (v : Word) : (s.setPc v).frameTick = s.frameTick := rfl
@[simp] theorem State.setPc_extIrq (s : State) (v : Word) : (s.setPc v).extIrq = s.extIrq := rfl
@[simp] theorem State.setPc_params (s : State) (v : Word) : (s.setPc v).params = s.params := rfl

@[simp] theorem State.setSp_regs (s : State) (v : Word) : (s.setSp v).regs = { s.regs with sp := v } := rfl
@[simp] theorem State.setSp_ticksRemaining (s : State) (v : Word) : (s.setSp v).ticksRemaining = s.ticksRemaining := rfl
@[simp] theorem State.setSp_ime (s : State) (v : Word) : (s.setSp v).ime = s.ime := rfl
@[simp] theorem State.setSp_imePending (s : State) (v : Word) : (s.setSp v).imePending = s.imePending := rfl
@[simp] theorem State.setSp_halted (s : State) (v : Word) : (s.setSp v).halted = s.halted := rfl
@[simp] theorem State.setSp_haltBug (s : State) (v : Word) : (s.setSp v).haltBug = s.haltBug := rfl
@[simp] theorem State.setSp_bus (s : State) (v : Word) : (s.setSp v).bus = s.bus := rfl
@[simp] theorem State.setSp_frameTick (s : State) (v : Word) : (s.setSp v).frameTick = s.frameTick := rfl
@[simp] theorem State.setSp_extIrq (s : State) (v : Word) : (s.setSp v).extIrq = s.extIrq := rfl
@[simp] theorem State.setSp_params (s : State) (v : Word) : (s.setSp v).params = s.params := rfl

@[simp] theorem State.setFlags_regs (s : State) (f : Flags) : (s.setFlags f).regs = { s.regs with flags := f } := rfl
@[simp] theorem State.setFlags_ticksRemaining (s : State) (f : Flags) : (s.setFlags f).ticksRemaining = s.ticksRemaining := rfl
@[simp] theorem State.setFlags_ime (s : State) (f : Flags) : (s.setFlags f).ime = s.ime := rfl
@[simp] theorem State.setFlags_imePending (s : State) (f : Flags) : (s.setFlags f).imePending = s.imePending := rfl
@[simp] theorem State.setFlags_halted (s : State) (f : Flags) : (s.setFlags f).halted = s.halted := rfl
@[simp] theorem State.setFlags_haltBug (s : State) (f : Flags) : (s.setFlags f).haltBug = s.haltBug := rfl
@[simp] theorem State.setFlags_bus (s : State) (f : Flags) : (s.setFlags f).bus = s.bus := rfl
@[simp] theorem State.setFlags_frameTick (s : State) (f : Flags) : (s.setFlags f).frameTick = s.frameTick := rfl
@[simp] theorem State.setFlags_extIrq (s : State) (f : Flags) : (s.setFlags f).extIrq = s.extIrq := rfl
@[simp] theorem State.setFlags_params (s : State) (f : Flags) : (s.setFlags f).params = s.params := rfl

@[simp] theorem State.setAcc_regs (s : State) (res : ByteResult) : (s.setAcc res).regs = { s.regs with a := res.1, flags := res.2 } := rfl
@[simp] theorem State.setAcc_ticksRemaining (s : State) (res : ByteResult) : (s.setAcc res).ticksRemaining = s.ticksRemaining := rfl
@[simp] theorem State.setAcc_ime (s : State) (res : ByteResult) : (s.setAcc res).ime = s.ime := rfl
@[simp] theorem State.setAcc_imePending (s : State) (res : ByteResult) : (s.setAcc res).imePending = s.imePending := rfl
@[simp] theorem State.setAcc_halted (s : State) (res : ByteResult) : (s.setAcc res).halted = s.halted := rfl
@[simp] theorem State.setAcc_haltBug (s : State) (res : ByteResult) : (s.setAcc res).haltBug = s.haltBug := rfl
@[simp] theorem State.setAcc_bus (s : State) (res : ByteResult) : (s.setAcc res).bus = s.bus := rfl
@[simp] theorem State.setAcc_frameTick (s : State) (res : ByteResult) : (s.setAcc res).frameTick = s.frameTick := rfl
@[simp] theorem State.setAcc_extIrq (s : State) (res : ByteResult) : (s.setAcc res).extIrq = s.extIrq := rfl
@[simp] theorem State.setAcc_params (s : State) (res : ByteResult) : (s.setAcc res).params = s.params := rfl

@[simp] theorem State.set8F_regs (s : State) (i : Reg8) (res : ByteResult) : (s.set8F i res).regs = { s.regs.set8 i res.1 with flags := res.2 } := rfl
@[simp] theorem State.set8F_ticksRemaining (s : State) (i : Reg8) (res : ByteResult) : (s.set8F i res).ticksRemaining = s.ticksRemaining := rfl
@[simp] theorem State.set8F_ime (s : State) (i : Reg8) (res : ByteResult) : (s.set8F i res).ime = s.ime := rfl
@[simp] theorem State.set8F_imePending (s : State) (i : Reg8) (res : ByteResult) : (s.set8F i res).imePending = s.imePending := rfl
@[simp] theorem State.set8F_halted (s : State) (i : Reg8) (res : ByteResult) : (s.set8F i res).halted = s.halted := rfl
@[simp] theorem State.set8F_haltBug (s : State) (i : Reg8) (res : ByteResult) : (s.set8F i res).haltBug = s.haltBug := rfl
@[simp] theorem State.set8F_bus (s : State) (i : Reg8) (res : ByteResult) : (s.set8F i res).bus = s.bus := rfl
@[simp] theorem State.set8F_frameTick (s : State) (i : Reg8) (res : ByteResult) : (s.set8F i res).frameTick = s.frameTick := rfl
@[simp] theorem State.set8F_extIrq (s : State) (i : Reg8) (res : ByteResult) : (s.set8F i res).extIrq = s.extIrq := rfl
@[simp] theorem State.set8F_params (s : State) (i : Reg8) (res : ByteResult) : (s.set8F i res).params = s.params := rfl

@[simp] theorem State.imm8_regs (s : State) : (s.imm8).regs = { s.regs with pc := s.regs.pc + 1 } := rfl
@[simp] theorem State.imm8_ticksRemaining (s : State) : (s.imm8).ticksRemaining = s.ticksRemaining := rfl
@[simp] theorem State.imm8_ime (s : State) : (s.imm8).ime = s.ime := rfl
@[simp] theorem State.imm8_imePending (s : State) : (s.imm8).imePending = s.imePending := rfl
@[simp] theorem State.imm8_halted (s : State) : (s.imm8).halted = s.halted := rfl
@[simp] theorem State.imm8_haltBug (s : State) : (s.imm8).haltBug = s.haltBug := rfl
@[simp] theorem State.imm8_bus (s : State) : (s.imm8).bus = s.bus := rfl
@[simp] theorem State.imm8_frameTick (s : State) : (s.imm8).frameTick = s.frameTick := rfl
@[simp] theorem State.imm8_extIrq (s : State) : (s.imm8).extIrq = s.extIrq := rfl
@[simp] theorem State.imm8_params (s : State) : (s.imm8).params = s.params := rfl

@[simp] theorem State.imm16_regs (s : State) : (s.imm16).regs = { s.regs with pc := s.regs.pc + 1 + 1 } := rfl
@[simp] theorem State.imm16_ticksRemaining (s : State) : (s.imm16).ticksRemaining = s.ticksRemaining := rfl
@[simp] theorem State.imm16_ime (s : State) : (s.imm16).ime = s.ime := rfl
@[simp] theorem State.imm16_imePending (s : State) : (s.imm16).imePending = s.imePending := rfl
@[simp] theorem State.imm16_halted (s : State) : (s.imm16).halted = s.halted := rfl
@[simp] theorem State.imm16_haltBug (s : State) : (s.imm16).haltBug = s.haltBug := rfl
@[simp] theorem State.imm16_bus (s : State) : (s.imm16).bus = s.bus := rfl
@[simp] theorem State.imm16_frameTick (s : State) : (s.imm16).frameTick = s.frameTick := rfl
@[simp] theorem State.imm16_extIrq (s : State) : (s.imm16).extIrq = s.extIrq := rfl
@[simp] theorem State.imm16_params (s : State) : (s.imm16).params = s.params := rfl

@[simp] theorem State.popped_regs (s : State) : (s.popped).regs = { s.regs with sp := s.regs.sp + 1 + 1 } := rfl
@[simp] theorem State.popped_ticksRemaining (s : State) : (s.popped).ticksRemaining = s.ticksRemaining := rfl
@[simp] theorem State.popped_ime (s : State) : (s.popped).ime = s.ime := rfl
@[simp] theorem State.popped_imePending (s : State) : (s.popped).imePending = s.imePending := rfl
@[simp] theorem State.popped_halted (s : State) : (s.popped).halted = s.halted := rfl
@[simp] theorem State.popped_haltBug (s : State) : (s.popped).haltBug = s.haltBug := rfl
@[simp] theorem State.popped_bus (s : State) : (s.popped).bus = s.bus := rfl
@[simp] theorem State.popped_frameTick (s : State) : (s.popped).frameTick = s.frameTick := rfl
@[simp] theorem State.popped_extIrq (s : State) : (s.popped).extIrq = s.extIrq := rfl
@[simp] theorem State.popped_params (s : State) : (s.popped).params = s.params := rfl

@[simp] theorem State.write_bus (s : State) (a : Word) (v : Byte) : (s.write a v).bus = s.bus.write s.params a v := rfl
@[simp] theorem State.write_regs (s : State) (a : Word) (v : Byte) : (s.write a v).regs = s.regs := rfl
@[simp] theorem State.write_ticksRemaining (s : State) (a : Word) (v : Byte) : (s.write a v).ticksRemaining = s.ticksRemaining := rfl
@[simp] theorem State.write_ime (s : State) (a : Word) (v : Byte) : (s.write a v).ime = s.ime := rfl
@[simp] theorem State.write_imePending (s : State) (a : Word) (v : Byte) : (s.write a v).imePending = s.imePending := rfl
@[simp] theorem State.write_halted (s : State) (a : Word) (v : Byte) : (s.write a v).halted = s.halted := rfl
@[simp] theorem State.write_haltBug (s : State) (a : Word) (v : Byte) : (s.write a v).haltBug = s.haltBug := rfl
@[simp] theorem State.write_frameTick (s : State) (a : Word) (v : Byte) : (s.write a v).frameTick = s.frameTick := rfl
@[simp] theorem State.write_extIrq (s : State) (a : Word) (v : Byte) : (s.write a v).extIrq = s.extIrq := rfl
@[simp] theorem State.write_params (s : State) (a : Word) (v : Byte) : (s.write a v).params = s.params := rfl

@[simp] theorem State.writeHl_bus (s : State) (v : Byte) : (s.writeHl v).bus = s.bus.write s.params s.regs.hl v := rfl
@[simp] theorem State.writeHl_regs (s : State) (v : Byte) : (s.writeHl v).regs = s.regs := rfl
@[simp] theorem State.writeHl_ticksRemaining (s : State) (v : Byte) : (s.writeHl v).ticksRemaining = s.ticksRemaining := rfl
@[simp] theorem State.writeHl_ime (s : State) (v : Byte) : (s.writeHl v).ime = s.ime := rfl
@[simp] theorem State.writeHl_imePending (s : State) (v : Byte) : (s.writeHl v).imePending = s.imePending := rfl
@[simp] theorem State.writeHl_halted (s : State) (v : Byte) : (s.writeHl v).halted = s.halted := rfl
@[simp] theorem State.writeHl_haltBug (s : State) (v : Byte) : (s.writeHl v).haltBug = s.haltBug := rfl
@[simp] theorem State.writeHl_frameTick (s : State) (v : Byte) : (s.writeHl v).frameTick = s.frameTick := rfl
@[simp] theorem State.writeHl_extIrq (s : State) (v : Byte) : (s.writeHl v).extIrq = s.extIrq := rfl
@[simp] theorem State.writeHl_params (s : State) (v : Byte) : (s.writeHl v).params = s.params := rfl

@[simp] theorem State.writeHlF_bus (s : State) (res : ByteResult) : (s.writeHlF res).bus = s.bus.write s.params s.regs.hl res.1 := rfl
@[simp] theorem State.writeHlF_regs (s : State) (res : ByteResult) : (s.writeHlF res).regs = { s.regs with flags := res.2 } := rfl
@[simp] theorem State.writeHlF_ticksRemaining (s : State) (res : ByteResult) : (s.writeHlF res).ticksRemaining = s.ticksRemaining := rfl
@[simp] theorem State.writeHlF_ime (s : State) (res : ByteResult) : (s.writeHlF res).ime = s.ime := rfl
@[simp] theorem State.writeHlF_imePending (s : State) (res : ByteResult) : (s.writeHlF res).imePending = s.imePending := rfl
@[simp] theorem State.writeHlF_halted (s : State) (res : ByteResult) : (s.writeHlF res).halted = s.halted := rfl
@[simp] theorem State.writeHlF_haltBug (s : State) (res : ByteResult) : (s.writeHlF res).haltBug = s.haltBug := rfl
@[simp] theorem State.writeHlF_frameTick (s : State) (res : ByteResult) : (s.writeHlF res).frameTick = s.frameTick := rfl
@[simp] theorem State.writeHlF_extIrq (s : State) (res : ByteResult) : (s.writeHlF res).extIrq = s.extIrq := rfl
@[simp] theorem State.writeHlF_params (s : State) (res : ByteResult) : (s.writeHlF res).params = s.params := rfl

@[simp] theorem State.charge_ticksRemaining (s : State) (n : Nat) : (s.charge n).ticksRemaining = max n 1 - 1 := rfl
@[simp] theorem State.charge_regs (s : State) (n : Nat) : (s.charge n).regs = s.regs := rfl
@[simp] theorem State.charge_ime (s : State) (n : Nat) : (s.charge n).ime = s.ime := rfl
@[simp] theorem State.charge_imePending (s : State) (n : Nat) : (s.charge n).imePending = s.imePending := rfl
@[simp] theorem State.charge_halted (s : State) (n : Nat) : (s.charge n).halted = s.halted := rfl
@[simp] theorem State.charge_haltBug (s : State) (n : Nat) : (s.charge n).haltBug = s.haltBug := rfl
@[simp] theorem State.charge_bus (s : State) (n : Nat) : (s.charge n).bus = s.bus := rfl
@[simp] theorem State.charge_frameTick (s : State) (n : Nat) : (s.charge n).frameTick = s.frameTick := rfl
@[simp] theorem State.charge_extIrq (s : State) (n : Nat) : (s.charge n).extIrq = s.extIrq := rfl
@[simp] theorem State.charge_params (s : State) (n : Nat) : (s.charge n).params = s.params := rfl

@[simp] theorem State.push16_regs (s : State) (v : Word) : (s.push16 v).regs = { s.regs with sp := s.regs.sp - 1 - 1 } := rfl
@[simp] theorem State.push16_bus (s : State) (v : Word) :
    (s.push16 v).bus =
      (s.bus.write s.params (s.regs.sp - 1) (hiByte v)).write s.params (s.regs.sp - 1 - 1) (loByte v) := rfl
@[simp] theorem State.push16_ticksRemaining (s : State) (v : Word) : (s.push16 v).ticksRemaining = s.ticksRemaining := rfl
@[simp] theorem State.push16_ime (s : State) (v : Word) : (s.push16 v).ime = s.ime := rfl
@[simp] theorem State.push16_imePending (s : State) (v : Word) : (s.push16 v).imePending = s.imePending := rfl
@[simp] theorem State.push16_halted (s : State) (v : Word) : (s.push16 v).halted = s.halted := rfl
@[simp] theorem State.push16_haltBug (s : State) (v : Word) : (s.push16 v).haltBug = s.haltBug := rfl
@[simp] theorem State.push16_frameTick (s : State) (v : Word) : (s.push16 v).frameTick = s.frameTick := rfl
@[simp] theorem State.push16_extIrq (s : State) (v : Word) : (s.push16 v).extIrq = s.extIrq := rfl
@[simp] theorem State.push16_params (s : State) (v : Word) : (s.push16 v).params = s.params := rfl

@[simp] theorem State.write16_regs (s : State) (a v : Word) : (s.write16 a v).regs = s.regs := rfl
@[simp] theorem State.write16_bus (s : State) (a v : Word) :
    (s.write16 a v).bus = (s.bus.write s.params a (loByte v)).write s.params (a + 1) (hiByte v) := rfl
@[simp] theorem State.write16_ticksRemaining (s : State) (a v : Word) : (s.write16 a v).ticksRemaining = s.ticksRemaining := rfl
@[simp] theorem State.write16_ime (s : State) (a v : Word) : (s.write16 a v).ime = s.ime := rfl
@[simp] theorem State.write16_imePending (s : State) (a v : Word) : (s.write16 a v).imePending = s.imePending := rfl
@[simp] theorem State.write16_halted (s : State) (a v : Word) : (s.write16 a v).halted = s.halted := rfl
@[simp] theorem State.write16_haltBug (s : State) (a v : Word) : (s.write16 a v).haltBug = s.haltBug := rfl
@[simp] theorem State.write16_frameTick (s : State) (a v : Word) : (s.write16 a v).frameTick = s.frameTick := rfl
@[simp] theorem State.write16_extIrq (s : State) (a v : Word) : (s.write16 a v).extIrq = s.extIrq := rfl
@[simp] theorem State.write16_params (s : State) (a v : Word) : (s.write16 a v).params = s.params := rfl

@[simp] theorem State.dispatch_regs (s : State) (i : Nat) :
    (s.dispatch i).regs = { s.regs with sp := s.regs.sp - 1 - 1, pc := vectorOf s.params i } := rfl
@[simp] theorem State.dispatch_ticksRemaining (s : State) (i : Nat) :
    (s.dispatch i).ticksRemaining = s.params.intDispatchTicks - 1 := rfl
@[simp] theorem State.dispatch_ime (s : State) (i : Nat) : (s.dispatch i).ime = false := rfl
@[simp] theorem State.dispatch_imePending (s : State) (i : Nat) : (s.dispatch i).imePending = false := rfl
@[simp] theorem State.dispatch_halted (s : State) (i : Nat) : (s.dispatch i).halted = false := rfl
@[simp] theorem State.dispatch_haltBug (s : State) (i : Nat) : (s.dispatch i).haltBug = s.haltBug := rfl
@[simp] theorem State.dispatch_frameTick (s : State) (i : Nat) : (s.dispatch i).frameTick = s.frameTick := rfl
@[simp] theorem State.dispatch_extIrq (s : State) (i : Nat) : (s.dispatch i).extIrq = s.extIrq := rfl
@[simp] theorem State.dispatch_params (s : State) (i : Nat) : (s.dispatch i).params = s.params := rfl

@[simp] theorem State.returnFromInterrupt_regs (s : State) :
    s.returnFromInterrupt.regs = { s.regs with sp := s.regs.sp + 1 + 1, pc := s.popValue } := rfl
@[simp] theorem State.returnFromInterrupt_ime (s : State) : s.returnFromInterrupt.ime = true := rfl
@[simp] theorem State.returnFromInterrupt_ticksRemaining (s : State) : s.returnFromInterrupt.ticksRemaining = s.ticksRemaining := rfl
@[simp] theorem State.returnFromInterrupt_imePending (s : State) : s.returnFromInterrupt.imePending = s.imePending := rfl
@[simp] theorem State.returnFromInterrupt_halted (s : State) : s.returnFromInterrupt.halted = s.halted := rfl
@[simp] theorem State.returnFromInterrupt_haltBug (s : State) : s.returnFromInterrupt.haltBug = s.haltBug := rfl
@[simp] theorem State.returnFromInterrupt_bus (s : State) : s.returnFromInterrupt.bus = s.bus := rfl
@[simp] theorem State.returnFromInterrupt_frameTick (s : State) : s.returnFromInterrupt.frameTick = s.frameTick := rfl
@[simp] theorem State.returnFromInterrupt_extIrq (s : State) : s.returnFromInterrupt.extIrq = s.extIrq := rfl
@[simp] theorem State.returnFromInterrupt_params (s : State) : s.returnFromInterrupt.params = s.params := rfl

@[simp] theorem State.commitIme_regs (s : State) : s.commitIme.regs = s.regs := by unfold State.commitIme; split <;> rfl
@[simp] theorem State.commitIme_ime (s : State) : s.commitIme.ime = (s.ime || s.imePending) := by
  unfold State.commitIme; split <;> simp_all
@[simp] theorem State.commitIme_imePending (s : State) : s.commitIme.imePending = false := by
  unfold State.commitIme; split <;> simp_all
@[simp] theorem State.commitIme_ticksRemaining (s : State) : s.commitIme.ticksRemaining = s.ticksRemaining := by unfold State.commitIme; split <;> rfl
@[simp] theorem State.commitIme_halted (s : State) : s.commitIme.halted = s.halted := by unfold State.commitIme; split <;> rfl
@[simp] theorem State.commitIme_haltBug (s : State) : s.commitIme.haltBug = s.haltBug := by unfold State.commitIme; split <;> rfl
@[simp] theorem State.commitIme_bus (s : State) : s.commitIme.bus = s.bus := by unfold State.commitIme; split <;> rfl
@[simp] theorem State.commitIme_frameTick (s : State) : s.commitIme.frameTick = s.frameTick := by unfold State.commitIme; split <;> rfl
@[simp] theorem State.commitIme_extIrq (s : State) : s.commitIme.extIrq = s.extIrq := by unfold State.commitIme; split <;> rfl
@[simp] theorem State.commitIme_params (s : State) : s.commitIme.params = s.params := by unfold State.commitIme; split <;> rfl

@[simp] theorem State.passOpcode_haltBug (s : State) : s.passOpcode.haltBug = false := by
  unfold State.passOpcode; split <;> simp_all
@[simp] theorem State.passOpcode_pc (s : State) :
    s.passOpcode.regs.pc = if s.haltBug then s.regs.pc else s.regs.pc + 1 := by
  unfold State.passOpcode; split <;> rfl
@[simp] theorem State.passOpcode_ticksRemaining (s : State) : s.passOpcode.ticksRemaining = s.ticksRemaining := by unfold State.passOpcode; split <;> rfl
@[simp] theorem State.passOpcode_ime (s : State) : s.passOpcode.ime = s.ime := by unfold State.passOpcode; split <;> rfl
@[simp] theorem State.passOpcode_imePending (s : State) : s.passOpcode.imePending = s.imePending := by unfold State.passOpcode; split <;> rfl
@[simp] theorem State.passOpcode_halted (s : State) : s.passOpcode.halted = s.halted := by unfold State.passOpcode; split <;> rfl
@[simp] theorem State.passOpcode_bus (s : State) : s.passOpcode.bus = s.bus := by unfold State.passOpcode; split <;> rfl
@[simp] theorem State.passOpcode_frameTick (s : State) : s.passOpcode.frameTick = s.frameTick := by unfold State.passOpcode; split <;> rfl
@[simp] theorem State.passOpcode_extIrq (s : State) : s.passOpcode.extIrq = s.extIrq := by unfold State.passOpcode; split <;> rfl
@[simp] theorem State.passOpcode_params (s : State) : s.passOpcode.params = s.params := by unfold State.passOpcode; split <;> rfl

@[simp] theorem State.passOpcodes_haltBug (s : State) (i : Instr) : (s.passOpcodes i).haltBug = false := by
  unfold State.passOpcodes; split <;> simp
@[simp] theorem State.passOpcodes_ticksRemaining (s : State) (i : Instr) : (s.passOpcodes i).ticksRemaining = s.ticksRemaining := by
  unfold State.passOpcodes; split <;> simp
@[simp] theorem State.passOpcodes_ime (s : State) (i : Instr) : (s.passOpcodes i).ime = s.ime := by
  unfold State.passOpcodes; split <;> simp
@[simp] theorem State.passOpcodes_imePending (s : State) (i : Instr) : (s.passOpcodes i).imePending = s.imePending := by
  unfold State.passOpcodes; split <;> simp
@[simp] theorem State.passOpcodes_halted (s : State) (i : Instr) : (s.passOpcodes i).halted = s.halted := by
  unfold State.passOpcodes; split <;> simp
@[simp] theorem State.passOpcodes_bus (s : State) (i : Instr) : (s.passOpcodes i).bus = s.bus := by
  unfold State.passOpcodes; split <;> simp
@[simp] theorem State.passOpcodes_frameTick (s : State) (i : Instr) : (s.passOpcodes i).frameTick = s.frameTick := by
  unfold State.passOpcodes; split <;> simp
@[simp] theorem State.passOpcodes_extIrq (s : State) (i : Instr) : (s.passOpcodes i).extIrq = s.extIrq := by
  unfold State.passOpcodes; split <;> simp
@[simp] theorem State.passOpcodes_params (s : State) (i : Instr) : (s.passOpcodes i).params = s.params := by
  unfold State.passOpcodes; split <;> simp

@[simp] theorem State.peripheralStep_extIrq (s : State) : s.peripheralStep.extIrq = s.extIrq.tail := rfl
@[simp] theorem State.peripheralStep_ifReg (s : State) :
    s.peripheralStep.bus.ifReg = s.bus.ifReg ||| (s.extRequests &&& 0b11100) := rfl
@[simp] theorem State.peripheralStep_timer (s : State) : s.peripheralStep.bus.timer = s.bus.timer.timerStep := rfl
@[simp] theorem State.peripheralStep_regs (s : State) : s.peripheralStep.regs = s.regs := rfl
@[simp] theorem State.peripheralStep_ticksRemaining (s : State) : s.peripheralStep.ticksRemaining = s.ticksRemaining := rfl
@[simp] theorem State.peripheralStep_ime (s : State) : s.peripheralStep.ime = s.ime := rfl
@[simp] theorem State.peripheralStep_imePending (s : State) : s.peripheralStep.imePending = s.imePending := rfl
@[simp] theorem State.peripheralStep_halted (s : State) : s.peripheralStep.halted = s.halted := rfl
@[simp] theorem State.peripheralStep_haltBug (s : State) : s.peripheralStep.haltBug = s.haltBug := rfl
@[simp] theorem State.peripheralStep_frameTick (s : State) : s.peripheralStep.frameTick = s.frameTick := rfl
@[simp] theorem State.peripheralStep_params (s : State) : s.peripheralStep.params = s.params := rfl
@[simp] theorem State.peripheralStep_bus_mem (s : State) : s.peripheralStep.bus.mem = s.bus.mem := rfl
@[simp] theorem State.peripheralStep_bus_ieReg (s : State) : s.peripheralStep.bus.ieReg = s.bus.ieReg := rfl
@[simp] theorem State.peripheralStep_bus_ppu (s : State) : s.peripheralStep.bus.ppu = s.bus.ppu := rfl
@[simp] theorem State.peripheralStep_bus_bootMapped (s : State) : s.peripheralStep.bus.bootMapped = s.bus.bootMapped := rfl
@[simp] theorem State.peripheralStep_bus_boot (s : State) : s.peripheralStep.bus.boot = s.bus.boot := rfl
@[simp] theorem State.peripheralStep_bus_cart (s : State) : s.peripheralStep.bus.cart = s.bus.cart := rfl
@[simp] theorem State.peripheralStep_bus_serial (s : State) : s.peripheralStep.bus.serial = s.bus.serial := rfl
@[simp] theorem State.peripheralStep_bus_joypad (s : State) : s.peripheralStep.bus.joypad = s.bus.joypad := rfl

@[simp] theorem State.countFrame_frameTick (s : State) : s.countFrame.frameTick = (s.frameTick + 1) % 70224 := rfl
@[simp] theorem State.countFrame_regs (s : State) : s.countFrame.regs = s.regs := rfl
@[simp] theorem State.countFrame_ticksRemaining (s : State) : s.countFrame.ticksRemaining = s.ticksRemaining := rfl
@[simp] theorem State.countFrame_ime (s : State) : s.countFrame.ime = s.ime := rfl
@[simp] theorem State.countFrame_imePending (s : State) : s.countFrame.imePending = s.imePending := rfl
@[simp] theorem State.countFrame_halted (s : State) : s.countFrame.halted = s.halted := rfl
@[simp] theorem State.countFrame_haltBug (s : State) : s.countFrame.haltBug = s.haltBug := rfl
@[simp] theorem State.countFrame_bus (s : State) : s.countFrame.bus = s.bus := rfl
@[simp] theorem State.countFrame_extIrq (s : State) : s.countFrame.extIrq = s.extIrq := rfl
@[simp] theorem State.countFrame_params (s : State) : s.countFrame.params = s.params := rfl

@[simp] theorem State.afterCpu_frameTick (s : State) : s.afterCpu.frameTick = (s.frameTick + 1) % 70224 := (rfl)
@[simp] theorem State.afterCpu_extIrq (s : State) : s.afterCpu.extIrq = s.extIrq.tail := (rfl)
@[simp] theorem State.afterCpu_regs (s : State) : s.afterCpu.regs = s.regs := (rfl)
@[simp] theorem State.afterCpu_ticksRemaining (s : State) : s.afterCpu.ticksRemaining = s.ticksRemaining := (rfl)
@[simp] theorem State.afterCpu_ime (s : State) : s.afterCpu.ime = s.ime := (rfl)
@[simp] theorem State.afterCpu_imePending (s : State) : s.afterCpu.imePending = s.imePending := (rfl)
@[simp] theorem State.afterCpu_halted (s : State) : s.afterCpu.halted = s.halted := (rfl)
@[simp] theorem State.afterCpu_haltBug (s : State) : s.afterCpu.haltBug = s.haltBug := (rfl)
@[simp] theorem State.afterCpu_params (s : State) : s.afterCpu.params = s.params := (rfl)
@[simp] theorem State.afterCpu_bus_mem (s : State) : s.afterCpu.bus.mem = s.bus.ppuStep.mem := (rfl)
@[simp] theorem State.afterCpu_bus_ieReg (s : State) : s.afterCpu.bus.ieReg = s.bus.ppuStep.ieReg := (rfl)
@[simp] theorem State.afterCpu_bus_ppu (s : State) : s.afterCpu.bus.ppu = s.bus.ppuStep.ppu := (rfl)
@[simp] theorem State.afterCpu_bus_bootMapped (s : State) : s.afterCpu.bus.bootMapped = s.bus.ppuStep.bootMapped := (rfl)
@[simp] theorem State.afterCpu_bus_boot (s : State) : s.afterCpu.bus.boot = s.bus.ppuStep.boot := (rfl)
@[simp] theorem State.afterCpu_bus_cart (s : State) : s.afterCpu.bus.cart = s.bus.ppuStep.cart := (rfl)
@[simp] theorem State.afterCpu_bus_serial (s : State) : s.afterCpu.bus.serial = s.bus.ppuStep.serial := (rfl)
@[simp] theorem State.afterCpu_bus_joypad (s : State) : s.afterCpu.bus.joypad = s.bus.ppuStep.joypad := (rfl)
@[simp] theorem State.afterCpu_bus_ifReg (s : State) :
    s.afterCpu.bus.ifReg =
      s.bus.ppuStep.ifReg ||| (State.extRequests { s with bus := s.bus.ppuStep } &&& 0b11100) := (rfl)

/-! ## The shapes of Safety -/

@[simp] theorem State.withRegs_regs (s : State) (r : Regs) (n : Nat) : (s.withRegs r n).regs = r := rfl
@[simp] theorem State.withRegs_ticksRemaining (s : State) (r : Regs) (n : Nat) : (s.withRegs r n).ticksRemaining = n := rfl
@[simp] theorem State.withRegs_ime (s : State) (r : Regs) (n : Nat) : (s.withRegs r n).ime = s.ime := rfl
@[simp] theorem State.withRegs_imePending (s : State) (r : Regs) (n : Nat) : (s.withRegs r n).imePending = s.imePending := rfl
@[simp] theorem State.withRegs_halted (s : State) (r : Regs) (n : Nat) : (s.withRegs r n).halted = s.halted := rfl
@[simp] theorem State.withRegs_haltBug (s : State) (r : Regs) (n : Nat) : (s.withRegs r n).haltBug = s.haltBug := rfl
@[simp] theorem State.withRegs_bus (s : State) (r : Regs) (n : Nat) : (s.withRegs r n).bus = s.bus := rfl
@[simp] theorem State.withRegs_frameTick (s : State) (r : Regs) (n : Nat) : (s.withRegs r n).frameTick = s.frameTick := rfl
@[simp] theorem State.withRegs_extIrq (s : State) (r : Regs) (n : Nat) : (s.withRegs r n).extIrq = s.extIrq := rfl
@[simp] theorem State.withRegs_params (s : State) (r : Regs) (n : Nat) : (s.withRegs r n).params = s.params := rfl
@[simp] theorem State.withRegs_read (s : State) (r : Regs) (n : Nat) (a : Word) : (s.withRegs r n).read a = s.read a := rfl

end Sys2Proof.Machine
end

