-- ==== Sys2Proof/Laws/Ops.lean ====
section
/-! SUPPORT. What the shared operations and the instructions can do, said once: an instruction that completes has stored at most
two bytes and left everything outside the CPU and the bus as it was. -/

namespace Sys2Proof.Machine

/-! ## Stores -/

/-- The bus after a list of byte stores. -/
def Bus.stores (p : Params) (b : Bus) (sts : List (Word × Byte)) : Bus :=
  sts.foldl (fun b st => b.write p st.1 st.2) b

theorem Bus.stores_kept (p : Params) (sts : List (Word × Byte)) (b : Bus) : b.Kept (b.stores p sts) := by
  induction sts generalizing b with
  | nil => exact .refl b
  | cons st sts ih => exact (b.write_kept p st.1 st.2).trans (ih _)

theorem Bus.stores_wf (p : Params) (sts : List (Word × Byte)) (b : Bus) (h : Memory.wf b.mem = true) :
    Memory.wf (b.stores p sts).mem = true := by
  induction sts generalizing b with
  | nil => exact h
  | cons st sts ih => exact ih _ (b.write_wf p st.1 st.2 h)

theorem Bus.stores_inStorage (p : Params) (sts : List (Word × Byte)) (b : Bus) (h : Memory.inStorage b.mem = true) :
    Memory.inStorage (b.stores p sts).mem = true := by
  induction sts generalizing b with
  | nil => exact h
  | cons st sts ih => exact ih _ (b.write_inStorage p st.1 st.2 h)

/-! ## What an instruction can do -/

/-- The step from `s` to `t` of one instruction: at most two byte stores, any registers and tick count, and the control bits
`c`, `p`, `k`, `g` for `IME`, `ime_pending`, `halted`, `halt_bug`. -/
structure Moves (s t : State) (c p k g : Bool) : Prop where
  frameTick : t.frameTick = s.frameTick
  extIrq : t.extIrq = s.extIrq
  params : t.params = s.params
  bus : ∃ sts : List (Word × Byte), sts.length ≤ 2 ∧ t.bus = s.bus.stores s.params sts
  ime : t.ime = c
  imePending : t.imePending = p
  halted : t.halted = k
  haltBug : t.haltBug = g

/-- `Moves` with the control bits as they were. -/
abbrev Plain (s t : State) : Prop := Moves s t s.ime s.imePending s.halted s.haltBug

theorem Plain.regs (s : State) (r : Regs) (n : Nat) : Plain s { s with regs := r, ticksRemaining := n } :=
  ⟨rfl, rfl, rfl, ⟨[], by simp, rfl⟩, rfl, rfl, rfl, rfl⟩

theorem Plain.store (s : State) (r : Regs) (n : Nat) (a : Word) (v : Byte) :
    Plain s { s with regs := r, ticksRemaining := n, bus := s.bus.write s.params a v } :=
  ⟨rfl, rfl, rfl, ⟨[(a, v)], by simp, rfl⟩, rfl, rfl, rfl, rfl⟩

theorem Plain.store2 (s : State) (r : Regs) (n : Nat) (a a' : Word) (v v' : Byte) :
    Plain s { s with
      regs := r, ticksRemaining := n, bus := (s.bus.write s.params a v).write s.params a' v' } :=
  ⟨rfl, rfl, rfl, ⟨[(a, v), (a', v')], by simp, rfl⟩, rfl, rfl, rfl, rfl⟩

/-- An extended entry's effect is plain. -/
theorem execExtendedEntry_plain {op : Byte} {s t : State} (h : execExtendedEntry op s = .next t) : Plain s t := by
  unfold execExtendedEntry at h
  dsimp only at h
  split at h
  case h_1 => split at h <;> (injection h with h; subst h; exact Plain.regs s _ _)
  case h_2 => split at h <;> (injection h with h; rw [← h]; dsimp only [State.charge, State.write, State.writeHl, State.writeHlF, State.write16, State.push16, State.setFlags, State.set16,
      State.setPc, State.setSp, State.imm8, State.imm16]; exact Plain.store s _ _ _ _)
  case h_3 | h_4 | h_5 | h_7 => injection h with h; subst h; exact Plain.regs s _ _
  case h_6 | h_8 => injection h with h; rw [← h]; dsimp only [State.charge, State.write, State.writeHl, State.writeHlF, State.write16, State.push16, State.setFlags, State.set16,
      State.setPc, State.setSp, State.imm8, State.imm16]; exact Plain.store s _ _ _ _

/-- The four control bits after an instruction (R249, R261, R263, R264). -/
def controlAfter (i : Instr) (s : State) : Bool × Bool × Bool × Bool :=
  match i with
  | .halt => (s.ime, s.imePending, true, if s.ime = false ∧ s.pending ≠ 0 then true else s.haltBug)
  | .di => (false, false, s.halted, s.haltBug)
  | .ei => (s.ime, true, s.halted, s.haltBug)
  | .reti => (true, s.imePending, s.halted, s.haltBug)
  | _ => (s.ime, s.imePending, s.halted, s.haltBug)

/-- What an instruction that answers a next state has done. -/
theorem exec_moves {i : Instr} {s t : State} (h : exec i s = .next t) :
    Moves s t (controlAfter i s).1 (controlAfter i s).2.1 (controlAfter i s).2.2.1 (controlAfter i s).2.2.2 := by
  cases i
  case prefixCb =>
    have e : Plain s.imm8 t := execExtendedEntry_plain h
    exact ⟨e.frameTick, e.extIrq, e.params, e.bus, e.ime, e.imePending, e.halted, e.haltBug⟩
  case jpCcNn cc nn =>
    simp only [exec, execJpCcNn] at h
    split at h <;> (injection h with h; subst h; exact Plain.regs s _ _)
  case jrCcE cc e =>
    simp only [exec, execJrCcE] at h
    split at h <;> (injection h with h; subst h; exact Plain.regs s _ _)
  case retCc cc =>
    simp only [exec, execRetCc] at h
    split at h <;> (injection h with h; subst h; exact Plain.regs s _ _)
  case callCcNn cc nn =>
    simp only [exec, execCallCcNn] at h
    split at h
    · injection h with h; rw [← h]; dsimp only [State.charge, State.write, State.writeHl, State.writeHlF, State.write16, State.push16, State.setFlags, State.set16,
      State.setPc, State.setSp, State.imm8, State.imm16]; exact Plain.store2 s _ _ _ _ _ _
    · injection h with h; subst h; exact Plain.regs s _ _
  case ldHlR | ldHlN | ldBcA | ldDeA | ldNnA | ldhNA | ldhCA | ldHlIncA | ldHlDecA | incHl | decHl | rlcHl | rrcHl
      | rlHl | rrHl | slaHl | sraHl | swapHl | srlHl | resBHl | setBHl =>
    injection h with h; rw [← h]; dsimp only [State.charge, State.write, State.writeHl, State.writeHlF, State.write16, State.push16, State.setFlags, State.set16,
      State.setPc, State.setSp, State.imm8, State.imm16]; exact Plain.store s _ _ _ _
  case ldNnSp | pushRr | callNn | rstT => injection h with h; rw [← h]; dsimp only [State.charge, State.write, State.writeHl, State.writeHlF, State.write16, State.push16, State.setFlags, State.set16,
      State.setPc, State.setSp, State.imm8, State.imm16]; exact Plain.store2 s _ _ _ _ _ _
  case halt | di | ei | reti =>
    injection h with h; subst h; exact ⟨rfl, rfl, rfl, ⟨[], by simp, rfl⟩, rfl, rfl, rfl, rfl⟩
  all_goals (injection h with h; subst h; exact Plain.regs s _ _)

/-- The invalid handler's effect is plain. -/
theorem invalidEntry_plain {op : Byte} {s t : State} (h : invalidEntry op s = .next t) : Plain s t := by
  injection h with h; subst h; exact Plain.regs s _ _

/-- What a fetch has run: the invalid handler where the opcode byte is one of `INVALID_SET`, otherwise the instruction of the
tables. -/
theorem runFetched_cases {s t : State} (h : s.runFetched = .next t) :
    (s.invalidAt = true ∧ t = s.passOpcode.charge (s.params.ticksPrimary.getD s.opcodeAt.toNat 0)) ∨
    (s.invalidAt = false ∧ exec s.fetched (s.passOpcodes s.fetched) = .next t) := by
  unfold State.runFetched at h
  split at h
  · rename_i hi
    injection h with h
    rw [State.passOpcode_params] at h
    exact .inl ⟨hi, h.symm⟩
  · rename_i hi
    exact .inr ⟨by simpa using hi, h⟩

/-! ## The interrupt sources (R303, R311) -/

theorem lowestSource_eq_none {p : BitVec 5} : lowestSource p = none ↔ p = 0 := by revert p; decide

/-- The source dispatched is pending and no lower one is. -/
theorem lowestSource_eq_some {p : BitVec 5} {i : Nat} (h : lowestSource p = some i) :
    i < 5 ∧ p.getLsbD i = true ∧ ∀ j < i, p.getLsbD j = false := by
  have key : ∀ p : BitVec 5, ∀ i < 5, lowestSource p = some i →
      p.getLsbD i = true ∧ ∀ j < i, p.getLsbD j = false := by decide
  have hi : i < 5 := by
    unfold lowestSource at h
    repeat' split at h
    all_goals first | (injection h with h; omega) | exact absurd h (by simp)
  exact ⟨hi, key p i hi h⟩

/-! ## The CPU's step (R300) -/

/-- The five things a CPU step can do. -/
theorem cpuStep_cases {s t : State} (h : cpuStep s = .next t) :
    (s.ticksRemaining ≠ 0 ∧ t = { s with ticksRemaining := s.ticksRemaining - 1 }) ∨
    (s.ticksRemaining = 0 ∧ s.ime = true ∧ ∃ i, lowestSource s.pending = some i ∧ t = s.dispatch i) ∨
    (s.ticksRemaining = 0 ∧ s.halted = true ∧ s.pending = 0 ∧ t = s) ∨
    (s.ticksRemaining = 0 ∧ (s.ime = false ∨ s.pending = 0) ∧ ¬(s.halted = true ∧ s.pending = 0) ∧
      State.runFetched (State.commitIme { s with halted := false }) = .next t) := by
  unfold cpuStep at h
  split at h
  · rename_i h0
    injection h with h
    exact .inl ⟨h0, h.symm⟩
  · rename_i h0
    have h0 : s.ticksRemaining = 0 := Decidable.byContradiction h0
    cases hi : s.ime <;> cases hp : lowestSource s.pending <;> simp only [hi, hp] at h
    case true.some i =>
      injection h with h
      exact .inr (.inl ⟨h0, rfl, i, rfl, h.symm⟩)
    all_goals
      split at h
      · rename_i hc
        injection h with h
        exact .inr (.inr (.inl ⟨h0, hc.1, hc.2, h.symm⟩))
      · rename_i hc
        refine .inr (.inr (.inr ⟨h0, ?_, hc, h⟩))
        first | exact .inl rfl | exact .inr (lowestSource_eq_none.1 hp)

/-- A tick is the CPU's step and the phases after it (R360). -/
theorem step_cases {s t : State} (h : step s = .next t) : ∃ u, cpuStep s = .next u ∧ t = u.afterCpu := by
  unfold step tick at h
  split at h
  · rename_i u hu
    injection h with h
    exact ⟨u, hu, h.symm⟩
  · exact absurd h (by simp)
  · exact absurd h (by simp)

end Sys2Proof.Machine
end

