-- ==== Sys2Proof/Laws/PerInstr.lean ====
section
/-! SUPPORT. The shape of every instruction's encoding, one lemma per constructor (R100, R101, R103): the prefix byte first where
the instruction is an entry of the extended table, then the opcode byte, then as many operand bytes as the decoder reads. -/

namespace Sys2Proof.Laws.EncodingShape

set_option Elab.async false

/-- The encoding is the opcode byte, after the prefix byte for an extended entry, then the operand bytes, of which there are as many
as the decoder reads. -/
def Statement (i : Instr) : Prop :=
  (∃ ops : List Byte, ops.length = i.operandBytes ∧
    ∀ pre, encodeWith pre i = (if i.isExtended then [pre, i.opcode] else [i.opcode]) ++ ops) ∧
  (i.isExtended = true → i.operandBytes = 0) ∧ i.operandBytes ≤ 2

theorem nop : Statement .nop := ⟨⟨_, rfl, fun _ => rfl⟩, by simp [Instr.isExtended, Instr.operandBytes], by simp [Instr.operandBytes]⟩
theorem ldRrNn (p : Reg16) (nn : Word) : Statement (.ldRrNn p nn) := ⟨⟨_, rfl, fun _ => rfl⟩, by simp [Instr.isExtended, Instr.operandBytes], by simp [Instr.operandBytes]⟩
theorem ldBcA : Statement .ldBcA := ⟨⟨_, rfl, fun _ => rfl⟩, by simp [Instr.isExtended, Instr.operandBytes], by simp [Instr.operandBytes]⟩
theorem ldDeA : Statement .ldDeA := ⟨⟨_, rfl, fun _ => rfl⟩, by simp [Instr.isExtended, Instr.operandBytes], by simp [Instr.operandBytes]⟩
theorem ldHlIncA : Statement .ldHlIncA := ⟨⟨_, rfl, fun _ => rfl⟩, by simp [Instr.isExtended, Instr.operandBytes], by simp [Instr.operandBytes]⟩
theorem ldHlDecA : Statement .ldHlDecA := ⟨⟨_, rfl, fun _ => rfl⟩, by simp [Instr.isExtended, Instr.operandBytes], by simp [Instr.operandBytes]⟩
theorem incRr (p : Reg16) : Statement (.incRr p) := ⟨⟨_, rfl, fun _ => rfl⟩, by simp [Instr.isExtended, Instr.operandBytes], by simp [Instr.operandBytes]⟩
theorem incR (rd : Reg8) : Statement (.incR rd) := ⟨⟨_, rfl, fun _ => rfl⟩, by simp [Instr.isExtended, Instr.operandBytes], by simp [Instr.operandBytes]⟩
theorem incHl : Statement .incHl := ⟨⟨_, rfl, fun _ => rfl⟩, by simp [Instr.isExtended, Instr.operandBytes], by simp [Instr.operandBytes]⟩
theorem decR (rd : Reg8) : Statement (.decR rd) := ⟨⟨_, rfl, fun _ => rfl⟩, by simp [Instr.isExtended, Instr.operandBytes], by simp [Instr.operandBytes]⟩
theorem decHl : Statement .decHl := ⟨⟨_, rfl, fun _ => rfl⟩, by simp [Instr.isExtended, Instr.operandBytes], by simp [Instr.operandBytes]⟩
theorem ldRN (rd : Reg8) (n : Byte) : Statement (.ldRN rd n) := ⟨⟨_, rfl, fun _ => rfl⟩, by simp [Instr.isExtended, Instr.operandBytes], by simp [Instr.operandBytes]⟩
theorem ldHlN (n : Byte) : Statement (.ldHlN n) := ⟨⟨_, rfl, fun _ => rfl⟩, by simp [Instr.isExtended, Instr.operandBytes], by simp [Instr.operandBytes]⟩
theorem rlca : Statement .rlca := ⟨⟨_, rfl, fun _ => rfl⟩, by simp [Instr.isExtended, Instr.operandBytes], by simp [Instr.operandBytes]⟩
theorem ldNnSp (nn : Word) : Statement (.ldNnSp nn) := ⟨⟨_, rfl, fun _ => rfl⟩, by simp [Instr.isExtended, Instr.operandBytes], by simp [Instr.operandBytes]⟩
theorem addHlRr (p : Reg16) : Statement (.addHlRr p) := ⟨⟨_, rfl, fun _ => rfl⟩, by simp [Instr.isExtended, Instr.operandBytes], by simp [Instr.operandBytes]⟩
theorem ldABc : Statement .ldABc := ⟨⟨_, rfl, fun _ => rfl⟩, by simp [Instr.isExtended, Instr.operandBytes], by simp [Instr.operandBytes]⟩
theorem ldADe : Statement .ldADe := ⟨⟨_, rfl, fun _ => rfl⟩, by simp [Instr.isExtended, Instr.operandBytes], by simp [Instr.operandBytes]⟩
theorem ldAHlInc : Statement .ldAHlInc := ⟨⟨_, rfl, fun _ => rfl⟩, by simp [Instr.isExtended, Instr.operandBytes], by simp [Instr.operandBytes]⟩
theorem ldAHlDec : Statement .ldAHlDec := ⟨⟨_, rfl, fun _ => rfl⟩, by simp [Instr.isExtended, Instr.operandBytes], by simp [Instr.operandBytes]⟩
theorem decRr (p : Reg16) : Statement (.decRr p) := ⟨⟨_, rfl, fun _ => rfl⟩, by simp [Instr.isExtended, Instr.operandBytes], by simp [Instr.operandBytes]⟩
theorem rrca : Statement .rrca := ⟨⟨_, rfl, fun _ => rfl⟩, by simp [Instr.isExtended, Instr.operandBytes], by simp [Instr.operandBytes]⟩
theorem stop (pad : Byte) : Statement (.stop pad) := ⟨⟨_, rfl, fun _ => rfl⟩, by simp [Instr.isExtended, Instr.operandBytes], by simp [Instr.operandBytes]⟩
theorem rla : Statement .rla := ⟨⟨_, rfl, fun _ => rfl⟩, by simp [Instr.isExtended, Instr.operandBytes], by simp [Instr.operandBytes]⟩
theorem jrE (e : Byte) : Statement (.jrE e) := ⟨⟨_, rfl, fun _ => rfl⟩, by simp [Instr.isExtended, Instr.operandBytes], by simp [Instr.operandBytes]⟩
theorem rra : Statement .rra := ⟨⟨_, rfl, fun _ => rfl⟩, by simp [Instr.isExtended, Instr.operandBytes], by simp [Instr.operandBytes]⟩
theorem jrCcE (cc : Cond) (e : Byte) : Statement (.jrCcE cc e) := ⟨⟨_, rfl, fun _ => rfl⟩, by simp [Instr.isExtended, Instr.operandBytes], by simp [Instr.operandBytes]⟩
theorem daa : Statement .daa := ⟨⟨_, rfl, fun _ => rfl⟩, by simp [Instr.isExtended, Instr.operandBytes], by simp [Instr.operandBytes]⟩
theorem cpl : Statement .cpl := ⟨⟨_, rfl, fun _ => rfl⟩, by simp [Instr.isExtended, Instr.operandBytes], by simp [Instr.operandBytes]⟩
theorem scf : Statement .scf := ⟨⟨_, rfl, fun _ => rfl⟩, by simp [Instr.isExtended, Instr.operandBytes], by simp [Instr.operandBytes]⟩
theorem ccf : Statement .ccf := ⟨⟨_, rfl, fun _ => rfl⟩, by simp [Instr.isExtended, Instr.operandBytes], by simp [Instr.operandBytes]⟩
theorem ldRR (rd rs : Reg8) : Statement (.ldRR rd rs) := ⟨⟨_, rfl, fun _ => rfl⟩, by simp [Instr.isExtended, Instr.operandBytes], by simp [Instr.operandBytes]⟩
theorem ldRHl (rd : Reg8) : Statement (.ldRHl rd) := ⟨⟨_, rfl, fun _ => rfl⟩, by simp [Instr.isExtended, Instr.operandBytes], by simp [Instr.operandBytes]⟩
theorem ldHlR (rs : Reg8) : Statement (.ldHlR rs) := ⟨⟨_, rfl, fun _ => rfl⟩, by simp [Instr.isExtended, Instr.operandBytes], by simp [Instr.operandBytes]⟩
theorem halt : Statement .halt := ⟨⟨_, rfl, fun _ => rfl⟩, by simp [Instr.isExtended, Instr.operandBytes], by simp [Instr.operandBytes]⟩
theorem addAR (rs : Reg8) : Statement (.addAR rs) := ⟨⟨_, rfl, fun _ => rfl⟩, by simp [Instr.isExtended, Instr.operandBytes], by simp [Instr.operandBytes]⟩
theorem addAHl : Statement .addAHl := ⟨⟨_, rfl, fun _ => rfl⟩, by simp [Instr.isExtended, Instr.operandBytes], by simp [Instr.operandBytes]⟩
theorem addAN (n : Byte) : Statement (.addAN n) := ⟨⟨_, rfl, fun _ => rfl⟩, by simp [Instr.isExtended, Instr.operandBytes], by simp [Instr.operandBytes]⟩
theorem adcAR (rs : Reg8) : Statement (.adcAR rs) := ⟨⟨_, rfl, fun _ => rfl⟩, by simp [Instr.isExtended, Instr.operandBytes], by simp [Instr.operandBytes]⟩
theorem adcAHl : Statement .adcAHl := ⟨⟨_, rfl, fun _ => rfl⟩, by simp [Instr.isExtended, Instr.operandBytes], by simp [Instr.operandBytes]⟩
theorem adcAN (n : Byte) : Statement (.adcAN n) := ⟨⟨_, rfl, fun _ => rfl⟩, by simp [Instr.isExtended, Instr.operandBytes], by simp [Instr.operandBytes]⟩
theorem subR (rs : Reg8) : Statement (.subR rs) := ⟨⟨_, rfl, fun _ => rfl⟩, by simp [Instr.isExtended, Instr.operandBytes], by simp [Instr.operandBytes]⟩
theorem subHl : Statement .subHl := ⟨⟨_, rfl, fun _ => rfl⟩, by simp [Instr.isExtended, Instr.operandBytes], by simp [Instr.operandBytes]⟩
theorem subN (n : Byte) : Statement (.subN n) := ⟨⟨_, rfl, fun _ => rfl⟩, by simp [Instr.isExtended, Instr.operandBytes], by simp [Instr.operandBytes]⟩
theorem sbcAR (rs : Reg8) : Statement (.sbcAR rs) := ⟨⟨_, rfl, fun _ => rfl⟩, by simp [Instr.isExtended, Instr.operandBytes], by simp [Instr.operandBytes]⟩
theorem sbcAHl : Statement .sbcAHl := ⟨⟨_, rfl, fun _ => rfl⟩, by simp [Instr.isExtended, Instr.operandBytes], by simp [Instr.operandBytes]⟩
theorem sbcAN (n : Byte) : Statement (.sbcAN n) := ⟨⟨_, rfl, fun _ => rfl⟩, by simp [Instr.isExtended, Instr.operandBytes], by simp [Instr.operandBytes]⟩
theorem andR (rs : Reg8) : Statement (.andR rs) := ⟨⟨_, rfl, fun _ => rfl⟩, by simp [Instr.isExtended, Instr.operandBytes], by simp [Instr.operandBytes]⟩
theorem andHl : Statement .andHl := ⟨⟨_, rfl, fun _ => rfl⟩, by simp [Instr.isExtended, Instr.operandBytes], by simp [Instr.operandBytes]⟩
theorem andN (n : Byte) : Statement (.andN n) := ⟨⟨_, rfl, fun _ => rfl⟩, by simp [Instr.isExtended, Instr.operandBytes], by simp [Instr.operandBytes]⟩
theorem xorR (rs : Reg8) : Statement (.xorR rs) := ⟨⟨_, rfl, fun _ => rfl⟩, by simp [Instr.isExtended, Instr.operandBytes], by simp [Instr.operandBytes]⟩
theorem xorHl : Statement .xorHl := ⟨⟨_, rfl, fun _ => rfl⟩, by simp [Instr.isExtended, Instr.operandBytes], by simp [Instr.operandBytes]⟩
theorem xorN (n : Byte) : Statement (.xorN n) := ⟨⟨_, rfl, fun _ => rfl⟩, by simp [Instr.isExtended, Instr.operandBytes], by simp [Instr.operandBytes]⟩
theorem orR (rs : Reg8) : Statement (.orR rs) := ⟨⟨_, rfl, fun _ => rfl⟩, by simp [Instr.isExtended, Instr.operandBytes], by simp [Instr.operandBytes]⟩
theorem orHl : Statement .orHl := ⟨⟨_, rfl, fun _ => rfl⟩, by simp [Instr.isExtended, Instr.operandBytes], by simp [Instr.operandBytes]⟩
theorem orN (n : Byte) : Statement (.orN n) := ⟨⟨_, rfl, fun _ => rfl⟩, by simp [Instr.isExtended, Instr.operandBytes], by simp [Instr.operandBytes]⟩
theorem cpR (rs : Reg8) : Statement (.cpR rs) := ⟨⟨_, rfl, fun _ => rfl⟩, by simp [Instr.isExtended, Instr.operandBytes], by simp [Instr.operandBytes]⟩
theorem cpHl : Statement .cpHl := ⟨⟨_, rfl, fun _ => rfl⟩, by simp [Instr.isExtended, Instr.operandBytes], by simp [Instr.operandBytes]⟩
theorem cpN (n : Byte) : Statement (.cpN n) := ⟨⟨_, rfl, fun _ => rfl⟩, by simp [Instr.isExtended, Instr.operandBytes], by simp [Instr.operandBytes]⟩
theorem retCc (cc : Cond) : Statement (.retCc cc) := ⟨⟨_, rfl, fun _ => rfl⟩, by simp [Instr.isExtended, Instr.operandBytes], by simp [Instr.operandBytes]⟩
theorem popRr (p : StackPair) : Statement (.popRr p) := ⟨⟨_, rfl, fun _ => rfl⟩, by simp [Instr.isExtended, Instr.operandBytes], by simp [Instr.operandBytes]⟩
theorem popAf : Statement .popAf := ⟨⟨_, rfl, fun _ => rfl⟩, by simp [Instr.isExtended, Instr.operandBytes], by simp [Instr.operandBytes]⟩
theorem jpCcNn (cc : Cond) (nn : Word) : Statement (.jpCcNn cc nn) := ⟨⟨_, rfl, fun _ => rfl⟩, by simp [Instr.isExtended, Instr.operandBytes], by simp [Instr.operandBytes]⟩
theorem jpNn (nn : Word) : Statement (.jpNn nn) := ⟨⟨_, rfl, fun _ => rfl⟩, by simp [Instr.isExtended, Instr.operandBytes], by simp [Instr.operandBytes]⟩
theorem callCcNn (cc : Cond) (nn : Word) : Statement (.callCcNn cc nn) := ⟨⟨_, rfl, fun _ => rfl⟩, by simp [Instr.isExtended, Instr.operandBytes], by simp [Instr.operandBytes]⟩
theorem pushRr (p : StackPair) : Statement (.pushRr p) := ⟨⟨_, rfl, fun _ => rfl⟩, by simp [Instr.isExtended, Instr.operandBytes], by simp [Instr.operandBytes]⟩
theorem rstT (t : BitVec 3) : Statement (.rstT t) := ⟨⟨_, rfl, fun _ => rfl⟩, by simp [Instr.isExtended, Instr.operandBytes], by simp [Instr.operandBytes]⟩
theorem ret : Statement .ret := ⟨⟨_, rfl, fun _ => rfl⟩, by simp [Instr.isExtended, Instr.operandBytes], by simp [Instr.operandBytes]⟩
theorem prefixCb : Statement .prefixCb := ⟨⟨_, rfl, fun _ => rfl⟩, by simp [Instr.isExtended, Instr.operandBytes], by simp [Instr.operandBytes]⟩
theorem callNn (nn : Word) : Statement (.callNn nn) := ⟨⟨_, rfl, fun _ => rfl⟩, by simp [Instr.isExtended, Instr.operandBytes], by simp [Instr.operandBytes]⟩
theorem reti : Statement .reti := ⟨⟨_, rfl, fun _ => rfl⟩, by simp [Instr.isExtended, Instr.operandBytes], by simp [Instr.operandBytes]⟩
theorem ldhNA (n : Byte) : Statement (.ldhNA n) := ⟨⟨_, rfl, fun _ => rfl⟩, by simp [Instr.isExtended, Instr.operandBytes], by simp [Instr.operandBytes]⟩
theorem ldhCA : Statement .ldhCA := ⟨⟨_, rfl, fun _ => rfl⟩, by simp [Instr.isExtended, Instr.operandBytes], by simp [Instr.operandBytes]⟩
theorem addSpE (e : Byte) : Statement (.addSpE e) := ⟨⟨_, rfl, fun _ => rfl⟩, by simp [Instr.isExtended, Instr.operandBytes], by simp [Instr.operandBytes]⟩
theorem jpHl : Statement .jpHl := ⟨⟨_, rfl, fun _ => rfl⟩, by simp [Instr.isExtended, Instr.operandBytes], by simp [Instr.operandBytes]⟩
theorem ldNnA (nn : Word) : Statement (.ldNnA nn) := ⟨⟨_, rfl, fun _ => rfl⟩, by simp [Instr.isExtended, Instr.operandBytes], by simp [Instr.operandBytes]⟩
theorem ldhAN (n : Byte) : Statement (.ldhAN n) := ⟨⟨_, rfl, fun _ => rfl⟩, by simp [Instr.isExtended, Instr.operandBytes], by simp [Instr.operandBytes]⟩
theorem ldhAC : Statement .ldhAC := ⟨⟨_, rfl, fun _ => rfl⟩, by simp [Instr.isExtended, Instr.operandBytes], by simp [Instr.operandBytes]⟩
theorem di : Statement .di := ⟨⟨_, rfl, fun _ => rfl⟩, by simp [Instr.isExtended, Instr.operandBytes], by simp [Instr.operandBytes]⟩
theorem ldHlSpE (e : Byte) : Statement (.ldHlSpE e) := ⟨⟨_, rfl, fun _ => rfl⟩, by simp [Instr.isExtended, Instr.operandBytes], by simp [Instr.operandBytes]⟩
theorem ldSpHl : Statement .ldSpHl := ⟨⟨_, rfl, fun _ => rfl⟩, by simp [Instr.isExtended, Instr.operandBytes], by simp [Instr.operandBytes]⟩
theorem ldANn (nn : Word) : Statement (.ldANn nn) := ⟨⟨_, rfl, fun _ => rfl⟩, by simp [Instr.isExtended, Instr.operandBytes], by simp [Instr.operandBytes]⟩
theorem ei : Statement .ei := ⟨⟨_, rfl, fun _ => rfl⟩, by simp [Instr.isExtended, Instr.operandBytes], by simp [Instr.operandBytes]⟩
theorem invalidD3 : Statement .invalidD3 := ⟨⟨_, rfl, fun _ => rfl⟩, by simp [Instr.isExtended, Instr.operandBytes], by simp [Instr.operandBytes]⟩
theorem invalidDB : Statement .invalidDB := ⟨⟨_, rfl, fun _ => rfl⟩, by simp [Instr.isExtended, Instr.operandBytes], by simp [Instr.operandBytes]⟩
theorem invalidDD : Statement .invalidDD := ⟨⟨_, rfl, fun _ => rfl⟩, by simp [Instr.isExtended, Instr.operandBytes], by simp [Instr.operandBytes]⟩
theorem invalidE3 : Statement .invalidE3 := ⟨⟨_, rfl, fun _ => rfl⟩, by simp [Instr.isExtended, Instr.operandBytes], by simp [Instr.operandBytes]⟩
theorem invalidE4 : Statement .invalidE4 := ⟨⟨_, rfl, fun _ => rfl⟩, by simp [Instr.isExtended, Instr.operandBytes], by simp [Instr.operandBytes]⟩
theorem invalidEB : Statement .invalidEB := ⟨⟨_, rfl, fun _ => rfl⟩, by simp [Instr.isExtended, Instr.operandBytes], by simp [Instr.operandBytes]⟩
theorem invalidEC : Statement .invalidEC := ⟨⟨_, rfl, fun _ => rfl⟩, by simp [Instr.isExtended, Instr.operandBytes], by simp [Instr.operandBytes]⟩
theorem invalidED : Statement .invalidED := ⟨⟨_, rfl, fun _ => rfl⟩, by simp [Instr.isExtended, Instr.operandBytes], by simp [Instr.operandBytes]⟩
theorem invalidF4 : Statement .invalidF4 := ⟨⟨_, rfl, fun _ => rfl⟩, by simp [Instr.isExtended, Instr.operandBytes], by simp [Instr.operandBytes]⟩
theorem invalidFC : Statement .invalidFC := ⟨⟨_, rfl, fun _ => rfl⟩, by simp [Instr.isExtended, Instr.operandBytes], by simp [Instr.operandBytes]⟩
theorem invalidFD : Statement .invalidFD := ⟨⟨_, rfl, fun _ => rfl⟩, by simp [Instr.isExtended, Instr.operandBytes], by simp [Instr.operandBytes]⟩
theorem rlcR (rs : Reg8) : Statement (.rlcR rs) := ⟨⟨_, rfl, fun _ => rfl⟩, by simp [Instr.isExtended, Instr.operandBytes], by simp [Instr.operandBytes]⟩
theorem rlcHl : Statement .rlcHl := ⟨⟨_, rfl, fun _ => rfl⟩, by simp [Instr.isExtended, Instr.operandBytes], by simp [Instr.operandBytes]⟩
theorem rrcR (rs : Reg8) : Statement (.rrcR rs) := ⟨⟨_, rfl, fun _ => rfl⟩, by simp [Instr.isExtended, Instr.operandBytes], by simp [Instr.operandBytes]⟩
theorem rrcHl : Statement .rrcHl := ⟨⟨_, rfl, fun _ => rfl⟩, by simp [Instr.isExtended, Instr.operandBytes], by simp [Instr.operandBytes]⟩
theorem rlR (rs : Reg8) : Statement (.rlR rs) := ⟨⟨_, rfl, fun _ => rfl⟩, by simp [Instr.isExtended, Instr.operandBytes], by simp [Instr.operandBytes]⟩
theorem rlHl : Statement .rlHl := ⟨⟨_, rfl, fun _ => rfl⟩, by simp [Instr.isExtended, Instr.operandBytes], by simp [Instr.operandBytes]⟩
theorem rrR (rs : Reg8) : Statement (.rrR rs) := ⟨⟨_, rfl, fun _ => rfl⟩, by simp [Instr.isExtended, Instr.operandBytes], by simp [Instr.operandBytes]⟩
theorem rrHl : Statement .rrHl := ⟨⟨_, rfl, fun _ => rfl⟩, by simp [Instr.isExtended, Instr.operandBytes], by simp [Instr.operandBytes]⟩
theorem slaR (rs : Reg8) : Statement (.slaR rs) := ⟨⟨_, rfl, fun _ => rfl⟩, by simp [Instr.isExtended, Instr.operandBytes], by simp [Instr.operandBytes]⟩
theorem slaHl : Statement .slaHl := ⟨⟨_, rfl, fun _ => rfl⟩, by simp [Instr.isExtended, Instr.operandBytes], by simp [Instr.operandBytes]⟩
theorem sraR (rs : Reg8) : Statement (.sraR rs) := ⟨⟨_, rfl, fun _ => rfl⟩, by simp [Instr.isExtended, Instr.operandBytes], by simp [Instr.operandBytes]⟩
theorem sraHl : Statement .sraHl := ⟨⟨_, rfl, fun _ => rfl⟩, by simp [Instr.isExtended, Instr.operandBytes], by simp [Instr.operandBytes]⟩
theorem swapR (rs : Reg8) : Statement (.swapR rs) := ⟨⟨_, rfl, fun _ => rfl⟩, by simp [Instr.isExtended, Instr.operandBytes], by simp [Instr.operandBytes]⟩
theorem swapHl : Statement .swapHl := ⟨⟨_, rfl, fun _ => rfl⟩, by simp [Instr.isExtended, Instr.operandBytes], by simp [Instr.operandBytes]⟩
theorem srlR (rs : Reg8) : Statement (.srlR rs) := ⟨⟨_, rfl, fun _ => rfl⟩, by simp [Instr.isExtended, Instr.operandBytes], by simp [Instr.operandBytes]⟩
theorem srlHl : Statement .srlHl := ⟨⟨_, rfl, fun _ => rfl⟩, by simp [Instr.isExtended, Instr.operandBytes], by simp [Instr.operandBytes]⟩
theorem bitBR (b : BitVec 3) (rs : Reg8) : Statement (.bitBR b rs) := ⟨⟨_, rfl, fun _ => rfl⟩, by simp [Instr.isExtended, Instr.operandBytes], by simp [Instr.operandBytes]⟩
theorem bitBHl (b : BitVec 3) : Statement (.bitBHl b) := ⟨⟨_, rfl, fun _ => rfl⟩, by simp [Instr.isExtended, Instr.operandBytes], by simp [Instr.operandBytes]⟩
theorem resBR (b : BitVec 3) (rs : Reg8) : Statement (.resBR b rs) := ⟨⟨_, rfl, fun _ => rfl⟩, by simp [Instr.isExtended, Instr.operandBytes], by simp [Instr.operandBytes]⟩
theorem resBHl (b : BitVec 3) : Statement (.resBHl b) := ⟨⟨_, rfl, fun _ => rfl⟩, by simp [Instr.isExtended, Instr.operandBytes], by simp [Instr.operandBytes]⟩
theorem setBR (b : BitVec 3) (rs : Reg8) : Statement (.setBR b rs) := ⟨⟨_, rfl, fun _ => rfl⟩, by simp [Instr.isExtended, Instr.operandBytes], by simp [Instr.operandBytes]⟩
theorem setBHl (b : BitVec 3) : Statement (.setBHl b) := ⟨⟨_, rfl, fun _ => rfl⟩, by simp [Instr.isExtended, Instr.operandBytes], by simp [Instr.operandBytes]⟩

end Sys2Proof.Laws.EncodingShape
end

