-- ==== Sys2Proof/Tests/Slice0.lean ====
section
/-! SUPPORT. Tests. Expected results come from spec/95_test_vectors.md (the vector, sequence or line is named) or from the
encodings of spec/opcode_table.json; and one theorem for each statement with hypotheses shows a state that meets them. -/

namespace Sys2Proof.Tests

open Sys2Proof.Machine

set_option Elab.async false

/-! ## Well-formedness -/

theorem test_wf_refuses_pop_rr_of_af : (Instr.popRr .af).wf = false := rfl

theorem test_wf_takes_pop_af : Instr.popAf.wf = true := rfl

/-! ## Decoding: words written out from the encodings of the opcode table, every constructor once -/

theorem test_decode_system_1 :
    decode [0b00000000] = .ok (.nop, []) ∧
    decode [0b00010000, 0x9C] = .ok (.stop 0x9C, []) ∧
    decode [0b01110110] = .ok (.halt, []) ∧
    decode [0b11001011] = .ok (.prefixCb, []) ∧
    decode [0b11110011] = .ok (.di, []) ∧
    decode [0b11111011] = .ok (.ei, []) ∧
    decode [0b11010011] = .ok (.invalidD3, []) ∧
    decode [0b11011011] = .ok (.invalidDB, []) ∧
    decode [0b11011101] = .ok (.invalidDD, []) ∧
    decode [0b11100011] = .ok (.invalidE3, []) ∧
    decode [0b11100100] = .ok (.invalidE4, []) ∧
    decode [0b11101011] = .ok (.invalidEB, []) :=
  ⟨rfl, rfl, rfl, rfl, rfl, rfl, rfl, rfl, rfl, rfl, rfl, rfl⟩

theorem test_decode_system_2 :
    decode [0b11101100] = .ok (.invalidEC, []) ∧
    decode [0b11101101] = .ok (.invalidED, []) ∧
    decode [0b11110100] = .ok (.invalidF4, []) ∧
    decode [0b11111100] = .ok (.invalidFC, []) ∧
    decode [0b11111101] = .ok (.invalidFD, []) :=
  ⟨rfl, rfl, rfl, rfl, rfl⟩

theorem test_decode_load16 :
    decode [0b00100001, 0x34, 0x12] = .ok (.ldRrNn .hl 0x1234, []) ∧
    decode [0b00001000, 0x34, 0x12] = .ok (.ldNnSp 0x1234, []) ∧
    decode [0b11010001] = .ok (.popRr .de, []) ∧
    decode [0b11110001] = .ok (.popAf, []) ∧
    decode [0b11100101] = .ok (.pushRr .hl, []) ∧
    decode [0b11111000, 0x9C] = .ok (.ldHlSpE 0x9C, []) ∧
    decode [0b11111001] = .ok (.ldSpHl, []) :=
  ⟨rfl, rfl, rfl, rfl, rfl, rfl, rfl⟩

theorem test_decode_load8_1 :
    decode [0b00000010] = .ok (.ldBcA, []) ∧
    decode [0b00010010] = .ok (.ldDeA, []) ∧
    decode [0b00100010] = .ok (.ldHlIncA, []) ∧
    decode [0b00110010] = .ok (.ldHlDecA, []) ∧
    decode [0b00000110, 0x9C] = .ok (.ldRN .b 0x9C, []) ∧
    decode [0b00110110, 0x9C] = .ok (.ldHlN 0x9C, []) ∧
    decode [0b00001010] = .ok (.ldABc, []) ∧
    decode [0b00011010] = .ok (.ldADe, []) ∧
    decode [0b00101010] = .ok (.ldAHlInc, []) ∧
    decode [0b00111010] = .ok (.ldAHlDec, []) ∧
    decode [0b01010111] = .ok (.ldRR .d .a, []) ∧
    decode [0b01011110] = .ok (.ldRHl .e, []) :=
  ⟨rfl, rfl, rfl, rfl, rfl, rfl, rfl, rfl, rfl, rfl, rfl, rfl⟩

theorem test_decode_load8_2 :
    decode [0b01110000] = .ok (.ldHlR .b, []) ∧
    decode [0b11100000, 0x9C] = .ok (.ldhNA 0x9C, []) ∧
    decode [0b11100010] = .ok (.ldhCA, []) ∧
    decode [0b11101010, 0x34, 0x12] = .ok (.ldNnA 0x1234, []) ∧
    decode [0b11110000, 0x9C] = .ok (.ldhAN 0x9C, []) ∧
    decode [0b11110010] = .ok (.ldhAC, []) ∧
    decode [0b11111010, 0x34, 0x12] = .ok (.ldANn 0x1234, []) :=
  ⟨rfl, rfl, rfl, rfl, rfl, rfl, rfl⟩

theorem test_decode_alu16 :
    decode [0b00010011] = .ok (.incRr .de, []) ∧
    decode [0b00011001] = .ok (.addHlRr .de, []) ∧
    decode [0b00111011] = .ok (.decRr .sp, []) ∧
    decode [0b11101000, 0x9C] = .ok (.addSpE 0x9C, []) :=
  ⟨rfl, rfl, rfl, rfl⟩

theorem test_decode_alu8_1 :
    decode [0b00111100] = .ok (.incR .a, []) ∧
    decode [0b00110100] = .ok (.incHl, []) ∧
    decode [0b00011101] = .ok (.decR .e, []) ∧
    decode [0b00110101] = .ok (.decHl, []) ∧
    decode [0b00100111] = .ok (.daa, []) ∧
    decode [0b00101111] = .ok (.cpl, []) ∧
    decode [0b00110111] = .ok (.scf, []) ∧
    decode [0b00111111] = .ok (.ccf, []) ∧
    decode [0b10000001] = .ok (.addAR .c, []) ∧
    decode [0b10000110] = .ok (.addAHl, []) ∧
    decode [0b11000110, 0x9C] = .ok (.addAN 0x9C, []) ∧
    decode [0b10001100] = .ok (.adcAR .h, []) :=
  ⟨rfl, rfl, rfl, rfl, rfl, rfl, rfl, rfl, rfl, rfl, rfl, rfl⟩

theorem test_decode_alu8_2 :
    decode [0b10001110] = .ok (.adcAHl, []) ∧
    decode [0b11001110, 0x9C] = .ok (.adcAN 0x9C, []) ∧
    decode [0b10010101] = .ok (.subR .l, []) ∧
    decode [0b10010110] = .ok (.subHl, []) ∧
    decode [0b11010110, 0x9C] = .ok (.subN 0x9C, []) ∧
    decode [0b10011010] = .ok (.sbcAR .d, []) ∧
    decode [0b10011110] = .ok (.sbcAHl, []) ∧
    decode [0b11011110, 0x9C] = .ok (.sbcAN 0x9C, []) ∧
    decode [0b10100111] = .ok (.andR .a, []) ∧
    decode [0b10100110] = .ok (.andHl, []) ∧
    decode [0b11100110, 0x9C] = .ok (.andN 0x9C, []) ∧
    decode [0b10101011] = .ok (.xorR .e, []) :=
  ⟨rfl, rfl, rfl, rfl, rfl, rfl, rfl, rfl, rfl, rfl, rfl, rfl⟩

theorem test_decode_alu8_3 :
    decode [0b10101110] = .ok (.xorHl, []) ∧
    decode [0b11101110, 0x9C] = .ok (.xorN 0x9C, []) ∧
    decode [0b10110000] = .ok (.orR .b, []) ∧
    decode [0b10110110] = .ok (.orHl, []) ∧
    decode [0b11110110, 0x9C] = .ok (.orN 0x9C, []) ∧
    decode [0b10111001] = .ok (.cpR .c, []) ∧
    decode [0b10111110] = .ok (.cpHl, []) ∧
    decode [0b11111110, 0x9C] = .ok (.cpN 0x9C, []) :=
  ⟨rfl, rfl, rfl, rfl, rfl, rfl, rfl, rfl⟩

theorem test_decode_rotate_bit_1 :
    decode [0b00000111] = .ok (.rlca, []) ∧
    decode [0b00001111] = .ok (.rrca, []) ∧
    decode [0b00010111] = .ok (.rla, []) ∧
    decode [0b00011111] = .ok (.rra, []) ∧
    decode [0b11001011, 0b00000001] = .ok (.rlcR .c, []) ∧
    decode [0b11001011, 0b00000110] = .ok (.rlcHl, []) ∧
    decode [0b11001011, 0b00001100] = .ok (.rrcR .h, []) ∧
    decode [0b11001011, 0b00001110] = .ok (.rrcHl, []) ∧
    decode [0b11001011, 0b00010101] = .ok (.rlR .l, []) ∧
    decode [0b11001011, 0b00010110] = .ok (.rlHl, []) ∧
    decode [0b11001011, 0b00011010] = .ok (.rrR .d, []) ∧
    decode [0b11001011, 0b00011110] = .ok (.rrHl, []) :=
  ⟨rfl, rfl, rfl, rfl, rfl, rfl, rfl, rfl, rfl, rfl, rfl, rfl⟩

theorem test_decode_rotate_bit_2 :
    decode [0b11001011, 0b00100111] = .ok (.slaR .a, []) ∧
    decode [0b11001011, 0b00100110] = .ok (.slaHl, []) ∧
    decode [0b11001011, 0b00101011] = .ok (.sraR .e, []) ∧
    decode [0b11001011, 0b00101110] = .ok (.sraHl, []) ∧
    decode [0b11001011, 0b00110000] = .ok (.swapR .b, []) ∧
    decode [0b11001011, 0b00110110] = .ok (.swapHl, []) ∧
    decode [0b11001011, 0b00111001] = .ok (.srlR .c, []) ∧
    decode [0b11001011, 0b00111110] = .ok (.srlHl, []) ∧
    decode [0b11001011, 0b01110101] = .ok (.bitBR 6 .l, []) ∧
    decode [0b11001011, 0b01101110] = .ok (.bitBHl 5, []) ∧
    decode [0b11001011, 0b10011011] = .ok (.resBR 3 .e, []) ∧
    decode [0b11001011, 0b10100110] = .ok (.resBHl 4, []) :=
  ⟨rfl, rfl, rfl, rfl, rfl, rfl, rfl, rfl, rfl, rfl, rfl, rfl⟩

theorem test_decode_rotate_bit_3 :
    decode [0b11001011, 0b11101100] = .ok (.setBR 5 .h, []) ∧
    decode [0b11001011, 0b11110110] = .ok (.setBHl 6, []) :=
  ⟨rfl, rfl⟩

theorem test_decode_control :
    decode [0b00011000, 0x9C] = .ok (.jrE 0x9C, []) ∧
    decode [0b00100000, 0x9C] = .ok (.jrCcE .nz 0x9C, []) ∧
    decode [0b11010000] = .ok (.retCc .nc, []) ∧
    decode [0b11011010, 0x34, 0x12] = .ok (.jpCcNn .c 0x1234, []) ∧
    decode [0b11000011, 0x34, 0x12] = .ok (.jpNn 0x1234, []) ∧
    decode [0b11000100, 0x34, 0x12] = .ok (.callCcNn .nz 0x1234, []) ∧
    decode [0b11011111] = .ok (.rstT 3, []) ∧
    decode [0b11001001] = .ok (.ret, []) ∧
    decode [0b11001101, 0x34, 0x12] = .ok (.callNn 0x1234, []) ∧
    decode [0b11011001] = .ok (.reti, []) ∧
    decode [0b11101001] = .ok (.jpHl, []) :=
  ⟨rfl, rfl, rfl, rfl, rfl, rfl, rfl, rfl, rfl, rfl, rfl⟩

/-- R103: too few bytes are refused by name. -/
theorem test_decode_refuses_short :
    decode [] = .error .noBytes ∧ decode [0x01, 0x34] = .error .truncated ∧ decode [0x3E] = .error .truncated :=
  ⟨rfl, rfl, rfl⟩

/-- Table words: the first byte is the low one; missing operand bytes are 0. -/
theorem test_table_words :
    decodeTableWord 8 0x01 = some (.ldRrNn .bc 0) ∧ decodeTableWord 24 0x123401 = some (.ldRrNn .bc 0x1234) ∧
    decodeTableWord 16 0x06CB = some .rlcHl ∧ decodeTableWord 8 0xCB = some .prefixCb := by decide

/-! ## One instruction: the harness of spec/95_test_vectors.md, Part 2 -/

/-- Bytes written one after the other. -/
def bytesAt (m : Memory) (a : Nat) : List Byte → Memory
  | [] => m
  | v :: vs => bytesAt (writeCell m a v) (a + 1) vs

/-- Bytes written at the addresses given. -/
def cellsAt (m : Memory) : List (Nat × Byte) → Memory
  | [] => m
  | (a, v) :: cs => cellsAt (writeCell m a v) cs

/-- The registers of `post_boot` with `F = 00` and `PC = C000`. -/
def regs0 : Regs := { resetRegs .postBoot with flags := .ofByte 0x00, pc := 0xC000 }

/-- The harness: display off, no request, the code at `C000`. -/
def start (code : List Byte) (r : Regs) (cells : List (Nat × Byte)) : State :=
  let s := State.launch .postBoot defaultParams (cellsAt (bytesAt [] 0xC000 code) cells) [] (.romOnly [(0, 0)])
    .null .null .null []
  { s with
    regs := r
    bus := { s.bus with ifReg := 0, ppu := { s.bus.ppu with lcdc := 0, mode := .hblank } } }

/-- Other values of `IF` and `IE`. -/
def withIrq (s : State) (i e : BitVec 5) : State :=
  { s with bus := { s.bus with ifReg := i, ieReg := e } }

/-- What the CPU's step leaves. -/
def after {α : Type} (s : State) (get : State → α) : Option α :=
  match cpuStep s with
  | .next t => some (get t)
  | _ => none

/-- V1: `LD B,A`, rule R130. -/
theorem test_V1_ldRR :
    after (start [0x47] { regs0 with a := 0x5A, flags := .ofByte 0xF0 } [])
      (fun t => (t.regs.b, t.regs.f, t.regs.pc, t.ticksRemaining)) =
    some (0x5A, 0xF0, 0xC001, 3) := by decide

/-- V2: `LD H,L`, rule R130. -/
theorem test_V2_ldRR :
    after (start [0x65] { regs0 with h := 0x12, l := 0xCD } [])
      (fun t => (t.regs.h, t.regs.f, t.regs.pc, t.ticksRemaining)) =
    some (0xCD, 0x00, 0xC001, 3) := by decide

/-- V3: `LD E,0x7F`, rule R131. -/
theorem test_V3_ldRN :
    after (start [0x1E, 0x7F] regs0 [])
      (fun t => (t.regs.e, t.regs.f, t.regs.pc, t.ticksRemaining)) =
    some (0x7F, 0x00, 0xC002, 7) := by decide

/-- V4: `LD C,(HL)`, rule R132. -/
theorem test_V4_ldRHl :
    after (start [0x4E] { regs0 with h := 0xC1, l := 0x00 } [(0xC100, 0xA7)])
      (fun t => (t.regs.c, t.regs.f, t.regs.pc, t.ticksRemaining)) =
    some (0xA7, 0x00, 0xC001, 7) := by decide

/-- V5: `LD (HL),D`, rule R133. -/
theorem test_V5_ldHlR :
    after (start [0x72] { regs0 with d := 0x3C, h := 0xC1, l := 0x00 } [])
      (fun t => (t.regs.f, t.regs.pc, readCell t.bus.mem 0xC100, t.ticksRemaining)) =
    some (0x00, 0xC001, some 0x3C, 7) := by decide

/-- V6: `LD (HL),L`, rule R133. -/
theorem test_V6_ldHlR :
    after (start [0x75] { regs0 with h := 0xC1, l := 0xEE } [])
      (fun t => (t.regs.f, t.regs.pc, readCell t.bus.mem 0xC1EE, t.ticksRemaining)) =
    some (0x00, 0xC001, some 0xEE, 7) := by decide

/-- V7: `LD (HL),0x99`, rule R134. -/
theorem test_V7_ldHlN :
    after (start [0x36, 0x99] { regs0 with h := 0xDF, l := 0xFF } [])
      (fun t => (t.regs.f, t.regs.pc, readCell t.bus.mem 0xDFFF, t.ticksRemaining)) =
    some (0x00, 0xC002, some 0x99, 11) := by decide

/-- V8: `LD A,(BC)`, rule R135. -/
theorem test_V8_ldABc :
    after (start [0x0A] { regs0 with b := 0xC2, c := 0x34 } [(0xC234, 0x42)])
      (fun t => (t.regs.a, t.regs.f, t.regs.pc, t.ticksRemaining)) =
    some (0x42, 0x00, 0xC001, 7) := by decide

/-- V9: `LD A,(DE)`, rule R136. -/
theorem test_V9_ldADe :
    after (start [0x1A] { regs0 with d := 0xFF, e := 0x80 } [(0xFF80, 0x17)])
      (fun t => (t.regs.a, t.regs.f, t.regs.pc, t.ticksRemaining)) =
    some (0x17, 0x00, 0xC001, 7) := by decide

/-- V10: `LD (BC),A`, rule R137. -/
theorem test_V10_ldBcA :
    after (start [0x02] { regs0 with a := 0xEE, b := 0xC3, c := 0x00 } [])
      (fun t => (t.regs.f, t.regs.pc, readCell t.bus.mem 0xC300, t.ticksRemaining)) =
    some (0x00, 0xC001, some 0xEE, 7) := by decide

/-- V11: `LD (DE),A`, rule R138. -/
theorem test_V11_ldDeA :
    after (start [0x12] { regs0 with a := 0xEE, d := 0x40, e := 0x00 } [])
      (fun t => (t.regs.f, t.regs.pc, t.ticksRemaining)) =
    some (0x00, 0xC001, 7) := by decide

/-- V12: `LD A,(0xC123)`, rule R139. -/
theorem test_V12_ldANn :
    after (start [0xFA, 0x23, 0xC1] regs0 [(0xC123, 0x5D)])
      (fun t => (t.regs.a, t.regs.f, t.regs.pc, t.ticksRemaining)) =
    some (0x5D, 0x00, 0xC003, 15) := by decide

/-- V13: `LD A,(0xA000)`, rule R139. -/
theorem test_V13_ldANn :
    after (start [0xFA, 0x00, 0xA0] { regs0 with a := 0x00 } [])
      (fun t => (t.regs.a, t.regs.f, t.regs.pc, t.ticksRemaining)) =
    some (0xFF, 0x00, 0xC003, 15) := by decide

/-- V14: `LD (0xFF85),A`, rule R140. -/
theorem test_V14_ldNnA :
    after (start [0xEA, 0x85, 0xFF] { regs0 with a := 0x66 } [])
      (fun t => (t.regs.f, t.regs.pc, readCell t.bus.mem 0xFF85, t.ticksRemaining)) =
    some (0x00, 0xC003, some 0x66, 15) := by decide

/-- V15: `LDH A,(0x0F)`, rule R141. -/
theorem test_V15_ldhAN :
    after (withIrq (start [0xF0, 0x0F] regs0 []) 0x05 0x00)
      (fun t => (t.regs.a, t.regs.f, t.regs.pc, t.ticksRemaining)) =
    some (0xE5, 0x00, 0xC002, 11) := by decide

/-- V16: `LDH A,(0x44)`, rule R141. -/
theorem test_V16_ldhAN :
    after (start [0xF0, 0x44] { regs0 with a := 0x77 } [])
      (fun t => (t.regs.a, t.regs.f, t.regs.pc, t.ticksRemaining)) =
    some (0x00, 0x00, 0xC002, 11) := by decide

/-- V17: `LDH (0xFF),A`, rule R142. -/
theorem test_V17_ldhNA :
    after (start [0xE0, 0xFF] { regs0 with a := 0xFF } [])
      (fun t => (t.regs.f, t.regs.pc, t.bus.ieReg, t.ticksRemaining)) =
    some (0x00, 0xC002, 0x1F, 11) := by decide

/-- V18: `LDH (0x0F),A`, rule R142. -/
theorem test_V18_ldhNA :
    after (start [0xE0, 0x0F] { regs0 with a := 0xE3 } [])
      (fun t => (t.regs.f, t.regs.pc, t.bus.ifReg, t.ticksRemaining)) =
    some (0x00, 0xC002, 0x03, 11) := by decide

/-- V19: `LDH A,(C)`, rule R143. -/
theorem test_V19_ldhAC :
    after (start [0xF2] { regs0 with c := 0x90 } [(0xFF90, 0x3E)])
      (fun t => (t.regs.a, t.regs.f, t.regs.pc, t.ticksRemaining)) =
    some (0x3E, 0x00, 0xC001, 7) := by decide

/-- V20: `LDH (C),A`, rule R144. -/
theorem test_V20_ldhCA :
    after (start [0xE2] { regs0 with a := 0x12, c := 0x80 } [])
      (fun t => (t.regs.f, t.regs.pc, readCell t.bus.mem 0xFF80, t.ticksRemaining)) =
    some (0x00, 0xC001, some 0x12, 7) := by decide

/-- V21: `LD (HL+),A`, rule R145. -/
theorem test_V21_ldHlIncA :
    after (start [0x22] { regs0 with a := 0x56, h := 0xC1, l := 0xFF } [])
      (fun t => ((t.regs.h, t.regs.l, t.regs.f), t.regs.pc, readCell t.bus.mem 0xC1FF, t.ticksRemaining)) =
    some ((0xC2, 0x00, 0x00), 0xC001, some 0x56, 7) := by decide

/-- V22: `LD A,(HL+)`, rule R146. -/
theorem test_V22_ldAHlInc :
    after (withIrq (start [0x2A] { regs0 with h := 0xFF, l := 0xFF } []) 0x00 0x15)
      (fun t => ((t.regs.a, t.regs.h, t.regs.l), t.regs.f, t.regs.pc, t.ticksRemaining)) =
    some ((0x15, 0x00, 0x00), 0x00, 0xC001, 7) := by decide

/-- V23: `LD (HL-),A`, rule R147. -/
theorem test_V23_ldHlDecA :
    after (start [0x32] { regs0 with h := 0xC4, l := 0x00 } [])
      (fun t => ((t.regs.h, t.regs.l, t.regs.f), t.regs.pc, readCell t.bus.mem 0xC400, t.ticksRemaining)) =
    some ((0xC3, 0xFF, 0x00), 0xC001, some 0x01, 7) := by decide

/-- V24: `LD A,(HL-)`, rule R148. -/
theorem test_V24_ldAHlDec :
    after (start [0x3A] { regs0 with h := 0x00, l := 0x00 } [])
      (fun t => ((t.regs.a, t.regs.h, t.regs.l), t.regs.f, t.regs.pc, t.ticksRemaining)) =
    some ((0x00, 0xFF, 0xFF), 0x00, 0xC001, 7) := by decide

/-- V25: `LD BC,0x1234`, rule R160. -/
theorem test_V25_ldRrNn :
    after (start [0x01, 0x34, 0x12] regs0 [])
      (fun t => (t.regs.b, t.regs.c, t.regs.f, t.regs.pc, t.ticksRemaining)) =
    some (0x12, 0x34, 0x00, 0xC003, 11) := by decide

/-- V26: `LD SP,0xDFF0`, rule R160. -/
theorem test_V26_ldRrNn :
    after (start [0x31, 0xF0, 0xDF] regs0 [])
      (fun t => (t.regs.f, t.regs.sp, t.regs.pc, t.ticksRemaining)) =
    some (0x00, 0xDFF0, 0xC003, 11) := by decide

/-- V27: `LD (0xC100),SP`, rule R161. -/
theorem test_V27_ldNnSp :
    after (start [0x08, 0x00, 0xC1] { regs0 with sp := 0xFFF8 } [])
      (fun t => (t.regs.f, t.regs.pc, readCell t.bus.mem 0xC100, readCell t.bus.mem 0xC101, t.ticksRemaining)) =
    some (0x00, 0xC003, some 0xF8, some 0xFF, 19) := by decide

/-- V28: `LD SP,HL`, rule R162. -/
theorem test_V28_ldSpHl :
    after (start [0xF9] { regs0 with h := 0xD0, l := 0x00 } [])
      (fun t => (t.regs.f, t.regs.sp, t.regs.pc, t.ticksRemaining)) =
    some (0x00, 0xD000, 0xC001, 7) := by decide

/-- V29: `LD HL,SP+8`, rule R163. -/
theorem test_V29_ldHlSpE :
    after (start [0xF8, 0x08] { regs0 with flags := .ofByte 0x80, sp := 0xFFF8 } [])
      (fun t => (t.regs.h, t.regs.l, t.regs.f, t.regs.pc, t.ticksRemaining)) =
    some (0x00, 0x00, 0x30, 0xC002, 11) := by decide

/-- V30: `LD HL,SP-1`, rule R163. -/
theorem test_V30_ldHlSpE :
    after (start [0xF8, 0xFF] { regs0 with sp := 0x0000 } [])
      (fun t => (t.regs.h, t.regs.l, t.regs.f, t.regs.pc, t.ticksRemaining)) =
    some (0xFF, 0xFF, 0x00, 0xC002, 11) := by decide

/-- V32: `PUSH BC`, rule R164. -/
theorem test_V32_pushRr :
    after (start [0xC5] { regs0 with b := 0x12, c := 0x34 } [])
      (fun t => ((t.regs.f, t.regs.sp, t.regs.pc), readCell t.bus.mem 0xFFFD, readCell t.bus.mem 0xFFFC, t.ticksRemaining)) =
    some ((0x00, 0xFFFC, 0xC001), some 0x12, some 0x34, 15) := by decide

/-- V33: `PUSH AF`, rule R164. -/
theorem test_V33_pushRr :
    after (start [0xF5] { regs0 with a := 0x9A, flags := .ofByte 0x50, sp := 0xD000 } [])
      (fun t => ((t.regs.f, t.regs.sp, t.regs.pc), readCell t.bus.mem 0xCFFF, readCell t.bus.mem 0xCFFE, t.ticksRemaining)) =
    some ((0x50, 0xCFFE, 0xC001), some 0x9A, some 0x50, 15) := by decide

/-- V35: `POP DE`, rule R165. -/
theorem test_V35_popRr :
    after (start [0xD1] { regs0 with sp := 0xFFFC } [(0xFFFC, 0x5F), (0xFFFD, 0x3C)])
      (fun t => ((t.regs.d, t.regs.e, t.regs.f), t.regs.sp, t.regs.pc, t.ticksRemaining)) =
    some ((0x3C, 0x5F, 0x00), 0xFFFE, 0xC001, 11) := by decide

/-- V36: `POP AF`, rule R166. -/
theorem test_V36_popAf :
    after (start [0xF1] { regs0 with sp := 0xFFFC } [(0xFFFC, 0xFF), (0xFFFD, 0x12)])
      (fun t => (t.regs.a, t.regs.f, t.regs.sp, t.regs.pc, t.ticksRemaining)) =
    some (0x12, 0xF0, 0xFFFE, 0xC001, 11) := by decide

/-- V37: `ADD A,0xC6`, rule R171. -/
theorem test_V37_addAN :
    after (start [0xC6, 0xC6] { regs0 with a := 0x3A } [])
      (fun t => (t.regs.a, t.regs.f, t.regs.pc, t.ticksRemaining)) =
    some (0x00, 0xB0, 0xC002, 7) := by decide

/-- V38: `ADD A,1`, rule R171. -/
theorem test_V38_addAN :
    after (start [0xC6, 0x01] { regs0 with a := 0xFF } [])
      (fun t => (t.regs.a, t.regs.f, t.regs.pc, t.ticksRemaining)) =
    some (0x00, 0xB0, 0xC002, 7) := by decide

/-- V40: `ADD A,A`, rule R171. -/
theorem test_V40_addAR :
    after (start [0x87] { regs0 with a := 0x80 } [])
      (fun t => (t.regs.a, t.regs.f, t.regs.pc, t.ticksRemaining)) =
    some (0x00, 0x90, 0xC001, 3) := by decide

/-- V41: `ADD A,(HL)`, rule R171. -/
theorem test_V41_addAHl :
    after (start [0x86] { regs0 with h := 0xC1, l := 0x00 } [(0xC100, 0x02)])
      (fun t => (t.regs.a, t.regs.f, t.regs.pc, t.ticksRemaining)) =
    some (0x03, 0x00, 0xC001, 7) := by decide

/-- V42: `ADC A,E`, rule R172. -/
theorem test_V42_adcAR :
    after (start [0x8B] { regs0 with a := 0xE1, e := 0x0F, flags := .ofByte 0x10 } [])
      (fun t => (t.regs.a, t.regs.f, t.regs.pc, t.ticksRemaining)) =
    some (0xF1, 0x20, 0xC001, 3) := by decide

/-- V43: `ADC A,0`, rule R172. -/
theorem test_V43_adcAN :
    after (start [0xCE, 0x00] { regs0 with a := 0xFF, flags := .ofByte 0x10 } [])
      (fun t => (t.regs.a, t.regs.f, t.regs.pc, t.ticksRemaining)) =
    some (0x00, 0xB0, 0xC002, 7) := by decide

/-- V44: `ADC A,0xFF`, rule R172. -/
theorem test_V44_adcAN :
    after (start [0xCE, 0xFF] { regs0 with a := 0xFF, flags := .ofByte 0x10 } [])
      (fun t => (t.regs.f, t.regs.pc, t.ticksRemaining)) =
    some (0x30, 0xC002, 7) := by decide

/-- V45: `SUB E`, rule R173. -/
theorem test_V45_subR :
    after (start [0x93] { regs0 with a := 0x3E, e := 0x3E } [])
      (fun t => (t.regs.a, t.regs.f, t.regs.pc, t.ticksRemaining)) =
    some (0x00, 0xC0, 0xC001, 3) := by decide

/-- V46: `SUB 1`, rule R173. -/
theorem test_V46_subN :
    after (start [0xD6, 0x01] { regs0 with a := 0x00 } [])
      (fun t => (t.regs.a, t.regs.f, t.regs.pc, t.ticksRemaining)) =
    some (0xFF, 0x70, 0xC002, 7) := by decide

/-- V47: `SUB 1`, rule R173. -/
theorem test_V47_subN :
    after (start [0xD6, 0x01] { regs0 with a := 0x10 } [])
      (fun t => (t.regs.a, t.regs.f, t.regs.pc, t.ticksRemaining)) =
    some (0x0F, 0x60, 0xC002, 7) := by decide

/-- V48: `SBC A,H`, rule R174. -/
theorem test_V48_sbcAR :
    after (start [0x9C] { regs0 with a := 0x3B, h := 0x2A, flags := .ofByte 0x10 } [])
      (fun t => (t.regs.a, t.regs.f, t.regs.pc, t.ticksRemaining)) =
    some (0x10, 0x40, 0xC001, 3) := by decide

/-- V49: `SBC A,0xFF`, rule R174. -/
theorem test_V49_sbcAN :
    after (start [0xDE, 0xFF] { regs0 with a := 0x00, flags := .ofByte 0x10 } [])
      (fun t => (t.regs.f, t.regs.pc, t.ticksRemaining)) =
    some (0xF0, 0xC002, 7) := by decide

/-- V50: `SBC A,A`, rule R174. -/
theorem test_V50_sbcAR :
    after (start [0x9F] { regs0 with a := 0x55, flags := .ofByte 0x10 } [])
      (fun t => (t.regs.a, t.regs.f, t.regs.pc, t.ticksRemaining)) =
    some (0xFF, 0x70, 0xC001, 3) := by decide

/-- V51: `AND 0x0F`, rule R175. -/
theorem test_V51_andN :
    after (start [0xE6, 0x0F] { regs0 with a := 0x5A, flags := .ofByte 0x10 } [])
      (fun t => (t.regs.a, t.regs.f, t.regs.pc, t.ticksRemaining)) =
    some (0x0A, 0x20, 0xC002, 7) := by decide

/-- V52: `AND 0`, rule R175. -/
theorem test_V52_andN :
    after (start [0xE6, 0x00] { regs0 with a := 0xFF } [])
      (fun t => (t.regs.a, t.regs.f, t.regs.pc, t.ticksRemaining)) =
    some (0x00, 0xA0, 0xC002, 7) := by decide

/-- V53: `XOR A`, rule R176. -/
theorem test_V53_xorR :
    after (start [0xAF] { regs0 with a := 0x77, flags := .ofByte 0x70 } [])
      (fun t => (t.regs.a, t.regs.f, t.regs.pc, t.ticksRemaining)) =
    some (0x00, 0x80, 0xC001, 3) := by decide

/-- V54: `XOR 0x0F`, rule R176. -/
theorem test_V54_xorN :
    after (start [0xEE, 0x0F] { regs0 with a := 0xFF } [])
      (fun t => (t.regs.a, t.regs.f, t.regs.pc, t.ticksRemaining)) =
    some (0xF0, 0x00, 0xC002, 7) := by decide

/-- V55: `OR C`, rule R177. -/
theorem test_V55_orR :
    after (start [0xB1] { regs0 with a := 0x00, c := 0x00, flags := .ofByte 0x70 } [])
      (fun t => (t.regs.f, t.regs.pc, t.ticksRemaining)) =
    some (0x80, 0xC001, 3) := by decide

/-- V56: `OR 0x80`, rule R177. -/
theorem test_V56_orN :
    after (start [0xF6, 0x80] regs0 [])
      (fun t => (t.regs.a, t.regs.f, t.regs.pc, t.ticksRemaining)) =
    some (0x81, 0x00, 0xC002, 7) := by decide

/-- V57: `CP 0x40`, rule R178. -/
theorem test_V57_cpN :
    after (start [0xFE, 0x40] { regs0 with a := 0x3C } [])
      (fun t => (t.regs.f, t.regs.pc, t.ticksRemaining)) =
    some (0x50, 0xC002, 7) := by decide

/-- V58: `CP B`, rule R178. -/
theorem test_V58_cpR :
    after (start [0xB8] { regs0 with a := 0x3C, b := 0x3C } [])
      (fun t => (t.regs.f, t.regs.pc, t.ticksRemaining)) =
    some (0xC0, 0xC001, 3) := by decide

/-- V59: `CP 0x2F`, rule R178. -/
theorem test_V59_cpN :
    after (start [0xFE, 0x2F] { regs0 with a := 0x3C } [])
      (fun t => (t.regs.f, t.regs.pc, t.ticksRemaining)) =
    some (0x60, 0xC002, 7) := by decide

/-- V60: `INC B`, rule R179. -/
theorem test_V60_incR :
    after (start [0x04] { regs0 with b := 0x0F, flags := .ofByte 0x10 } [])
      (fun t => (t.regs.b, t.regs.f, t.regs.pc, t.ticksRemaining)) =
    some (0x10, 0x30, 0xC001, 3) := by decide

/-- V61: `INC A`, rule R179. -/
theorem test_V61_incR :
    after (start [0x3C] { regs0 with a := 0xFF, flags := .ofByte 0x50 } [])
      (fun t => (t.regs.a, t.regs.f, t.regs.pc, t.ticksRemaining)) =
    some (0x00, 0xB0, 0xC001, 3) := by decide

/-- V62: `INC (HL)`, rule R179. -/
theorem test_V62_incHl :
    after (start [0x34] { regs0 with h := 0xC1, l := 0x00 } [(0xC100, 0x7F)])
      (fun t => (t.regs.f, t.regs.pc, readCell t.bus.mem 0xC100, t.ticksRemaining)) =
    some (0x20, 0xC001, some 0x80, 11) := by decide

/-- V63: `DEC C`, rule R180. -/
theorem test_V63_decR :
    after (start [0x0D] { regs0 with c := 0x01 } [])
      (fun t => (t.regs.c, t.regs.f, t.regs.pc, t.ticksRemaining)) =
    some (0x00, 0xC0, 0xC001, 3) := by decide

/-- V64: `DEC B`, rule R180. -/
theorem test_V64_decR :
    after (start [0x05] { regs0 with flags := .ofByte 0x10 } [])
      (fun t => (t.regs.b, t.regs.f, t.regs.pc, t.ticksRemaining)) =
    some (0xFF, 0x70, 0xC001, 3) := by decide

/-- V65: `DEC (HL)`, rule R180. -/
theorem test_V65_decHl :
    after (start [0x35] { regs0 with h := 0xC1, l := 0x00 } [(0xC100, 0x10)])
      (fun t => (t.regs.f, t.regs.pc, readCell t.bus.mem 0xC100, t.ticksRemaining)) =
    some (0x60, 0xC001, some 0x0F, 11) := by decide

/-- V66: `DAA`, rule R181. -/
theorem test_V66_daa :
    after (start [0x27] { regs0 with a := 0x7D } [])
      (fun t => (t.regs.a, t.regs.f, t.regs.pc, t.ticksRemaining)) =
    some (0x83, 0x00, 0xC001, 3) := by decide

/-- V67: `DAA`, rule R181. -/
theorem test_V67_daa :
    after (start [0x27] { regs0 with a := 0x9A } [])
      (fun t => (t.regs.a, t.regs.f, t.regs.pc, t.ticksRemaining)) =
    some (0x00, 0x90, 0xC001, 3) := by decide

/-- V71: `CPL`, rule R182. -/
theorem test_V71_cpl :
    after (start [0x2F] { regs0 with a := 0x35, flags := .ofByte 0x90 } [])
      (fun t => (t.regs.a, t.regs.f, t.regs.pc, t.ticksRemaining)) =
    some (0xCA, 0xF0, 0xC001, 3) := by decide

/-- V72: `SCF`, rule R183. -/
theorem test_V72_scf :
    after (start [0x37] { regs0 with flags := .ofByte 0xE0 } [])
      (fun t => (t.regs.f, t.regs.pc, t.ticksRemaining)) =
    some (0x90, 0xC001, 3) := by decide

/-- V73: `CCF`, rule R184. -/
theorem test_V73_ccf :
    after (start [0x3F] { regs0 with flags := .ofByte 0x70 } [])
      (fun t => (t.regs.f, t.regs.pc, t.ticksRemaining)) =
    some (0x00, 0xC001, 3) := by decide

/-- V74: `CCF`, rule R184. -/
theorem test_V74_ccf :
    after (start [0x3F] { regs0 with flags := .ofByte 0x80 } [])
      (fun t => (t.regs.f, t.regs.pc, t.ticksRemaining)) =
    some (0x90, 0xC001, 3) := by decide

/-- V75: `ADD HL,BC`, rule R200. -/
theorem test_V75_addHlRr :
    after (start [0x09] { regs0 with b := 0x06, c := 0x05, h := 0x8A, l := 0x23, flags := .ofByte 0x80 } [])
      (fun t => (t.regs.h, t.regs.l, t.regs.f, t.regs.pc, t.ticksRemaining)) =
    some (0x90, 0x28, 0xA0, 0xC001, 7) := by decide

/-- V76: `ADD HL,BC`, rule R200. -/
theorem test_V76_addHlRr :
    after (start [0x09] { regs0 with c := 0x01, h := 0xFF, l := 0xFF } [])
      (fun t => (t.regs.h, t.regs.l, t.regs.f, t.regs.pc, t.ticksRemaining)) =
    some (0x00, 0x00, 0x30, 0xC001, 7) := by decide

/-- V80: `INC DE`, rule R201. -/
theorem test_V80_incRr :
    after (start [0x13] { regs0 with d := 0x23, e := 0x5F, flags := .ofByte 0xF0 } [])
      (fun t => (t.regs.e, t.regs.f, t.regs.pc, t.ticksRemaining)) =
    some (0x60, 0xF0, 0xC001, 7) := by decide

/-- V81: `INC HL`, rule R201. -/
theorem test_V81_incRr :
    after (start [0x23] { regs0 with h := 0xFF, l := 0xFF } [])
      (fun t => (t.regs.h, t.regs.l, t.regs.f, t.regs.pc, t.ticksRemaining)) =
    some (0x00, 0x00, 0x00, 0xC001, 7) := by decide

/-- V83: `DEC BC`, rule R202. -/
theorem test_V83_decRr :
    after (start [0x0B] { regs0 with b := 0x01, c := 0x00 } [])
      (fun t => (t.regs.b, t.regs.c, t.regs.f, t.regs.pc, t.ticksRemaining)) =
    some (0x00, 0xFF, 0x00, 0xC001, 7) := by decide

/-- V84: `DEC HL`, rule R202. -/
theorem test_V84_decRr :
    after (start [0x2B] { regs0 with h := 0x00, l := 0x00, flags := .ofByte 0xF0 } [])
      (fun t => (t.regs.h, t.regs.l, t.regs.f, t.regs.pc, t.ticksRemaining)) =
    some (0xFF, 0xFF, 0xF0, 0xC001, 7) := by decide

/-- V85: `ADD SP,2`, rule R203. -/
theorem test_V85_addSpE :
    after (start [0xE8, 0x02] { regs0 with flags := .ofByte 0xC0, sp := 0xFFF8 } [])
      (fun t => (t.regs.f, t.regs.sp, t.regs.pc, t.ticksRemaining)) =
    some (0x00, 0xFFFA, 0xC002, 15) := by decide

/-- V86: `ADD SP,1`, rule R203. -/
theorem test_V86_addSpE :
    after (start [0xE8, 0x01] { regs0 with sp := 0xFFFF } [])
      (fun t => (t.regs.f, t.regs.sp, t.regs.pc, t.ticksRemaining)) =
    some (0x30, 0x0000, 0xC002, 15) := by decide

/-- V89: `RLCA`, rule R210. -/
theorem test_V89_rlca :
    after (start [0x07] { regs0 with a := 0x85 } [])
      (fun t => (t.regs.a, t.regs.f, t.regs.pc, t.ticksRemaining)) =
    some (0x0B, 0x10, 0xC001, 3) := by decide

/-- V90: `RLCA`, rule R210. -/
theorem test_V90_rlca :
    after (start [0x07] { regs0 with a := 0x00, flags := .ofByte 0xF0 } [])
      (fun t => (t.regs.f, t.regs.pc, t.ticksRemaining)) =
    some (0x00, 0xC001, 3) := by decide

/-- V91: `RLA`, rule R211. -/
theorem test_V91_rla :
    after (start [0x17] { regs0 with a := 0x95, flags := .ofByte 0x10 } [])
      (fun t => (t.regs.a, t.regs.f, t.regs.pc, t.ticksRemaining)) =
    some (0x2B, 0x10, 0xC001, 3) := by decide

/-- V92: `RLA`, rule R211. -/
theorem test_V92_rla :
    after (start [0x17] { regs0 with a := 0x80 } [])
      (fun t => (t.regs.a, t.regs.f, t.regs.pc, t.ticksRemaining)) =
    some (0x00, 0x10, 0xC001, 3) := by decide

/-- V93: `RRCA`, rule R212. -/
theorem test_V93_rrca :
    after (start [0x0F] { regs0 with a := 0x3B } [])
      (fun t => (t.regs.a, t.regs.f, t.regs.pc, t.ticksRemaining)) =
    some (0x9D, 0x10, 0xC001, 3) := by decide

/-- V94: `RRA`, rule R213. -/
theorem test_V94_rra :
    after (start [0x1F] { regs0 with a := 0x81 } [])
      (fun t => (t.regs.a, t.regs.f, t.regs.pc, t.ticksRemaining)) =
    some (0x40, 0x10, 0xC001, 3) := by decide

/-- V95: `RRA`, rule R213. -/
theorem test_V95_rra :
    after (start [0x1F] regs0 [])
      (fun t => (t.regs.a, t.regs.f, t.regs.pc, t.ticksRemaining)) =
    some (0x00, 0x10, 0xC001, 3) := by decide

/-- V96: `RLC B`, rule R214. -/
theorem test_V96_rlcR :
    after (start [0xCB, 0x00] { regs0 with b := 0x85 } [])
      (fun t => (t.regs.b, t.regs.f, t.regs.pc, t.ticksRemaining)) =
    some (0x0B, 0x10, 0xC002, 7) := by decide

/-- V97: `RLC (HL)`, rule R214. -/
theorem test_V97_rlcHl :
    after (start [0xCB, 0x06] { regs0 with h := 0xC1, l := 0x00 } [(0xC100, 0x00)])
      (fun t => (t.regs.f, t.regs.pc, readCell t.bus.mem 0xC100, t.ticksRemaining)) =
    some (0x80, 0xC002, some 0x00, 15) := by decide

/-- V98: `RRC C`, rule R215. -/
theorem test_V98_rrcR :
    after (start [0xCB, 0x09] { regs0 with c := 0x01 } [])
      (fun t => (t.regs.c, t.regs.f, t.regs.pc, t.ticksRemaining)) =
    some (0x80, 0x10, 0xC002, 7) := by decide

/-- V99: `RL L`, rule R216. -/
theorem test_V99_rlR :
    after (start [0xCB, 0x15] { regs0 with l := 0x80 } [])
      (fun t => (t.regs.l, t.regs.f, t.regs.pc, t.ticksRemaining)) =
    some (0x00, 0x90, 0xC002, 7) := by decide

/-- V100: `RR A`, rule R217. -/
theorem test_V100_rrR :
    after (start [0xCB, 0x1F] regs0 [])
      (fun t => (t.regs.a, t.regs.f, t.regs.pc, t.ticksRemaining)) =
    some (0x00, 0x90, 0xC002, 7) := by decide

/-- V101: `SLA D`, rule R218. -/
theorem test_V101_slaR :
    after (start [0xCB, 0x22] { regs0 with d := 0xFF } [])
      (fun t => (t.regs.d, t.regs.f, t.regs.pc, t.ticksRemaining)) =
    some (0xFE, 0x10, 0xC002, 7) := by decide

/-- V102: `SRA A`, rule R219. -/
theorem test_V102_sraR :
    after (start [0xCB, 0x2F] { regs0 with a := 0x8A } [])
      (fun t => (t.regs.a, t.regs.f, t.regs.pc, t.ticksRemaining)) =
    some (0xC5, 0x00, 0xC002, 7) := by decide

/-- V103: `SRA (HL)`, rule R219. -/
theorem test_V103_sraHl :
    after (start [0xCB, 0x2E] { regs0 with h := 0xC1, l := 0x00 } [(0xC100, 0x01)])
      (fun t => (t.regs.f, t.regs.pc, readCell t.bus.mem 0xC100, t.ticksRemaining)) =
    some (0x90, 0xC002, some 0x00, 15) := by decide

/-- V104: `SWAP A`, rule R220. -/
theorem test_V104_swapR :
    after (start [0xCB, 0x37] { regs0 with a := 0xF1, flags := .ofByte 0xF0 } [])
      (fun t => (t.regs.a, t.regs.f, t.regs.pc, t.ticksRemaining)) =
    some (0x1F, 0x00, 0xC002, 7) := by decide

/-- V105: `SWAP E`, rule R220. -/
theorem test_V105_swapR :
    after (start [0xCB, 0x33] { regs0 with e := 0x00 } [])
      (fun t => (t.regs.f, t.regs.pc, t.ticksRemaining)) =
    some (0x80, 0xC002, 7) := by decide

/-- V106: `SRL A`, rule R221. -/
theorem test_V106_srlR :
    after (start [0xCB, 0x3F] { regs0 with a := 0xFF } [])
      (fun t => (t.regs.a, t.regs.f, t.regs.pc, t.ticksRemaining)) =
    some (0x7F, 0x10, 0xC002, 7) := by decide

/-- V107: `SRL B`, rule R221. -/
theorem test_V107_srlR :
    after (start [0xCB, 0x38] { regs0 with b := 0x01 } [])
      (fun t => (t.regs.b, t.regs.f, t.regs.pc, t.ticksRemaining)) =
    some (0x00, 0x90, 0xC002, 7) := by decide

/-- V108: `BIT 7,A`, rule R222. -/
theorem test_V108_bitBR :
    after (start [0xCB, 0x7F] { regs0 with a := 0x80, flags := .ofByte 0x10 } [])
      (fun t => (t.regs.f, t.regs.pc, t.ticksRemaining)) =
    some (0x30, 0xC002, 7) := by decide

/-- V109: `BIT 4,L`, rule R222. -/
theorem test_V109_bitBR :
    after (start [0xCB, 0x65] { regs0 with l := 0xEF } [])
      (fun t => (t.regs.f, t.regs.pc, t.ticksRemaining)) =
    some (0xA0, 0xC002, 7) := by decide

/-- V110: `BIT 0,(HL)`, rule R222. -/
theorem test_V110_bitBHl :
    after (start [0xCB, 0x46] { regs0 with h := 0xC1, l := 0x00 } [(0xC100, 0xFE)])
      (fun t => (t.regs.f, t.regs.pc, t.ticksRemaining)) =
    some (0xA0, 0xC002, 11) := by decide

/-- V111: `RES 7,A`, rule R223. -/
theorem test_V111_resBR :
    after (start [0xCB, 0xBF] { regs0 with a := 0x80, flags := .ofByte 0xF0 } [])
      (fun t => (t.regs.a, t.regs.f, t.regs.pc, t.ticksRemaining)) =
    some (0x00, 0xF0, 0xC002, 7) := by decide

/-- V112: `RES 0,(HL)`, rule R223. -/
theorem test_V112_resBHl :
    after (start [0xCB, 0x86] { regs0 with h := 0xC1, l := 0x00 } [(0xC100, 0xFF)])
      (fun t => (t.regs.f, t.regs.pc, readCell t.bus.mem 0xC100, t.ticksRemaining)) =
    some (0x00, 0xC002, some 0xFE, 15) := by decide

/-- V113: `SET 3,A`, rule R224. -/
theorem test_V113_setBR :
    after (start [0xCB, 0xDF] { regs0 with a := 0x80 } [])
      (fun t => (t.regs.a, t.regs.f, t.regs.pc, t.ticksRemaining)) =
    some (0x88, 0x00, 0xC002, 7) := by decide

/-- V114: `SET 7,(HL)`, rule R224. -/
theorem test_V114_setBHl :
    after (start [0xCB, 0xFE] { regs0 with h := 0xC1, l := 0x00 } [(0xC100, 0x00)])
      (fun t => (t.regs.f, t.regs.pc, readCell t.bus.mem 0xC100, t.ticksRemaining)) =
    some (0x00, 0xC002, some 0x80, 15) := by decide

/-- V115: `JP 0x0150`, rule R240. -/
theorem test_V115_jpNn :
    after (start [0xC3, 0x50, 0x01] regs0 [])
      (fun t => (t.regs.f, t.regs.pc, t.ticksRemaining)) =
    some (0x00, 0x0150, 15) := by decide

/-- V116: `JP Z,0x8000 (taken)`, rule R241. -/
theorem test_V116_jpCcNn :
    after (start [0xCA, 0x00, 0x80] { regs0 with flags := .ofByte 0x80 } [])
      (fun t => (t.regs.f, t.regs.pc, t.ticksRemaining)) =
    some (0x80, 0x8000, 15) := by decide

/-- V117: `JP Z,0x8000 (not taken)`, rule R241. -/
theorem test_V117_jpCcNn :
    after (start [0xCA, 0x00, 0x80] regs0 [])
      (fun t => (t.regs.f, t.regs.pc, t.ticksRemaining)) =
    some (0x00, 0xC003, 11) := by decide

/-- V119: `JP HL`, rule R242. -/
theorem test_V119_jpHl :
    after (start [0xE9] { regs0 with h := 0xC1, l := 0x23 } [])
      (fun t => (t.regs.f, t.regs.pc, t.ticksRemaining)) =
    some (0x00, 0xC123, 3) := by decide

/-- V120: `JR +5`, rule R243. -/
theorem test_V120_jrE :
    after (start [0x18, 0x05] regs0 [])
      (fun t => (t.regs.f, t.regs.pc, t.ticksRemaining)) =
    some (0x00, 0xC007, 11) := by decide

/-- V121: `JR -2 (to itself)`, rule R243. -/
theorem test_V121_jrE :
    after (start [0x18, 0xFE] regs0 [])
      (fun t => (t.regs.f, t.regs.pc, t.ticksRemaining)) =
    some (0x00, 0xC000, 11) := by decide

/-- V124: `JR NZ,-4 (taken)`, rule R244. -/
theorem test_V124_jrCcE :
    after (start [0x20, 0xFC] regs0 [])
      (fun t => (t.regs.f, t.regs.pc, t.ticksRemaining)) =
    some (0x00, 0xBFFE, 11) := by decide

/-- V125: `JR NZ,-4 (not taken)`, rule R244. -/
theorem test_V125_jrCcE :
    after (start [0x20, 0xFC] { regs0 with flags := .ofByte 0x80 } [])
      (fun t => (t.regs.f, t.regs.pc, t.ticksRemaining)) =
    some (0x80, 0xC002, 7) := by decide

/-- V127: `CALL 0x0200`, rule R245. -/
theorem test_V127_callNn :
    after (start [0xCD, 0x00, 0x02] regs0 [])
      (fun t => ((t.regs.f, t.regs.sp, t.regs.pc), readCell t.bus.mem 0xFFFD, readCell t.bus.mem 0xFFFC, t.ticksRemaining)) =
    some ((0x00, 0xFFFC, 0x0200), some 0xC0, some 0x03, 23) := by decide

/-- V128: `CALL NC,0x0200 (not taken)`, rule R246. -/
theorem test_V128_callCcNn :
    after (start [0xD4, 0x00, 0x02] { regs0 with flags := .ofByte 0x10 } [])
      (fun t => (t.regs.f, t.regs.pc, t.ticksRemaining)) =
    some (0x10, 0xC003, 11) := by decide

/-- V129: `CALL NZ,0x0200 (taken)`, rule R246. -/
theorem test_V129_callCcNn :
    after (start [0xC4, 0x00, 0x02] regs0 [])
      (fun t => ((t.regs.f, t.regs.sp, t.regs.pc), readCell t.bus.mem 0xFFFD, readCell t.bus.mem 0xFFFC, t.ticksRemaining)) =
    some ((0x00, 0xFFFC, 0x0200), some 0xC0, some 0x03, 23) := by decide

/-- V130: `RET`, rule R247. -/
theorem test_V130_ret :
    after (start [0xC9] { regs0 with sp := 0xFFFC } [(0xFFFC, 0x53), (0xFFFD, 0x01)])
      (fun t => (t.regs.f, t.regs.sp, t.regs.pc, t.ticksRemaining)) =
    some (0x00, 0xFFFE, 0x0153, 15) := by decide

/-- V131: `RET Z (taken)`, rule R248. -/
theorem test_V131_retCc :
    after (start [0xC8] { regs0 with flags := .ofByte 0x80, sp := 0xFFFC } [(0xFFFC, 0x53), (0xFFFD, 0x01)])
      (fun t => (t.regs.f, t.regs.sp, t.regs.pc, t.ticksRemaining)) =
    some (0x80, 0xFFFE, 0x0153, 19) := by decide

/-- V132: `RET Z (not taken)`, rule R248. -/
theorem test_V132_retCc :
    after (start [0xC8] { regs0 with sp := 0xFFFC } [(0xFFFC, 0x53), (0xFFFD, 0x01)])
      (fun t => (t.regs.f, t.regs.pc, t.ticksRemaining)) =
    some (0x00, 0xC001, 7) := by decide

/-- V133: `RETI`, rule R249. -/
theorem test_V133_reti :
    after (start [0xD9] { regs0 with sp := 0xFFFC } [(0xFFFC, 0x53), (0xFFFD, 0x01)])
      (fun t => (t.regs.f, t.regs.sp, t.regs.pc, t.ime, t.ticksRemaining)) =
    some (0x00, 0xFFFE, 0x0153, true, 15) := by decide

/-- V134: `RST 0x28`, rule R252. -/
theorem test_V134_rstT :
    after (start [0xEF] regs0 [])
      (fun t => ((t.regs.f, t.regs.sp, t.regs.pc), readCell t.bus.mem 0xFFFD, readCell t.bus.mem 0xFFFC, t.ticksRemaining)) =
    some ((0x00, 0xFFFC, 0x0028), some 0xC0, some 0x01, 15) := by decide

/-- V135: `RST 0x38`, rule R252. -/
theorem test_V135_rstT :
    after (start [0xFF] { regs0 with sp := 0xD000 } [])
      (fun t => ((t.regs.f, t.regs.sp, t.regs.pc), readCell t.bus.mem 0xCFFF, readCell t.bus.mem 0xCFFE, t.ticksRemaining)) =
    some ((0x00, 0xCFFE, 0x0038), some 0xC0, some 0x01, 15) := by decide

/-- V136: `NOP`, rule R260. -/
theorem test_V136_nop :
    after (start [0x00] { regs0 with flags := .ofByte 0xF0 } [])
      (fun t => (t.regs.f, t.regs.pc, t.ticksRemaining)) =
    some (0xF0, 0xC001, 3) := by decide

/-- V137: `HALT (nothing pending)`, rule R261. -/
theorem test_V137_halt :
    after ({ withIrq (start [0x76] regs0 []) 0x00 0x01 with ime := true, imePending := false })
      (fun t => ((t.regs.f, t.regs.pc, t.ime), t.imePending, t.halted, t.haltBug, t.ticksRemaining)) =
    some ((0x00, 0xC001, true), false, true, false, 3) := by decide

/-- V138: `HALT (halt bug)`, rule R261. -/
theorem test_V138_halt :
    after (withIrq (start [0x76] regs0 []) 0x01 0x01)
      (fun t => ((t.regs.f, t.regs.pc, t.ime), t.imePending, t.halted, t.haltBug, t.ticksRemaining)) =
    some ((0x00, 0xC001, false), false, true, true, 3) := by decide

/-- V140: `STOP`, rule R262. -/
theorem test_V140_stop :
    after (start [0x10, 0x00] regs0 [])
      (fun t => (t.regs.f, t.regs.pc, t.ticksRemaining)) =
    some (0x00, 0xC002, 3) := by decide

/-- V141: `DI`, rule R263. -/
theorem test_V141_di :
    after ({ start [0xF3] regs0 [] with ime := true, imePending := true })
      (fun t => ((t.regs.f, t.regs.pc, t.ime), t.imePending, t.halted, t.haltBug, t.ticksRemaining)) =
    some ((0x00, 0xC001, false), false, false, false, 3) := by decide

/-- V142: `EI`, rule R264. -/
theorem test_V142_ei :
    after (start [0xFB] regs0 [])
      (fun t => ((t.regs.f, t.regs.pc, t.ime), t.imePending, t.halted, t.haltBug, t.ticksRemaining)) =
    some ((0x00, 0xC001, false), true, false, false, 3) := by decide

/-- V143: `INVALID 0xDD`, rule R267. -/
theorem test_V143_invalidDD :
    after (start [0xDD] regs0 [])
      (fun t => (t.regs.f, t.regs.pc, t.ticksRemaining)) =
    some (0x00, 0xC001, 0) := by decide

/-- V144: `INVALID 0xFC`, rule R267. -/
theorem test_V144_invalidFC :
    after (start [0xFC] { regs0 with flags := .ofByte 0xF0 } [])
      (fun t => (t.regs.f, t.regs.pc, t.ticksRemaining)) =
    some (0xF0, 0xC001, 0) := by decide


/-! ## The CPU's step: interrupts, halt, prefix (Part 3 of the vectors) -/

/-- S1, t=4: the instruction after `EI` runs with the request pending, and `IME` is then 1. -/
theorem test_S1_ei_delay :
    after { withIrq (start [0x3C, 0x3C] regs0 []) 0x01 0x01 with imePending := true }
      (fun t => (t.regs.a, t.ime, t.imePending, t.bus.ifReg)) = some (0x02, true, false, 0x01) := by decide

/-- S1, t=8: the dispatch of source 0. -/
theorem test_S1_dispatch :
    after { withIrq (start [] { regs0 with pc := 0xC002 } []) 0x01 0x01 with ime := true }
      (fun t => ((t.regs.sp, t.regs.pc, readCell t.bus.mem 0xFFFD, readCell t.bus.mem 0xFFFC), t.ime, t.bus.ifReg,
        t.ticksRemaining)) =
    some ((0xFFFC, 0x0040, some 0xC0, some 0x02), false, 0x00, 19) := by decide

/-- S2, t=4: the halt-bug fetch does not move `PC`. -/
theorem test_S2_halt_bug :
    after { withIrq (start [0x3C] { regs0 with a := 0x00 } []) 0x01 0x01 with halted := true, haltBug := true }
      (fun t => (t.regs.a, t.regs.pc, t.halted, t.haltBug, t.bus.ifReg)) =
    some (0x01, 0xC000, false, false, 0x01) := by decide

/-- S3, t=4: `DI` after `EI` leaves interrupts off. -/
theorem test_S3_ei_di :
    after { withIrq (start [0xF3] regs0 []) 0x01 0x01 with imePending := true }
      (fun t => (t.ime, t.imePending, t.regs.sp)) = some (false, false, 0xFFFE) := by decide

/-- S4, ticks 4 to 9: a halted CPU with nothing pending idles. -/
theorem test_S4_idle :
    after { withIrq (start [0x3C] regs0 []) 0x00 0x04 with halted := true }
      (fun t => (t.regs.pc, t.halted, t.ticksRemaining)) = some (0xC000, true, 0) := by decide

/-- S4, t=10: with `IME = 0` it wakes and goes on, servicing nothing. -/
theorem test_S4_wake :
    after { withIrq (start [0x3C] regs0 []) 0x04 0x04 with halted := true }
      (fun t => (t.regs.a, t.regs.pc, t.halted, t.bus.ifReg)) = some (0x02, 0xC001, false, 0x04) := by decide

/-- S5, t=10: with `IME = 1` it wakes into the handler of source 2. -/
theorem test_S5_halt_dispatch :
    after { withIrq (start [0x3C] { regs0 with pc := 0xC001 } []) 0x04 0x04 with halted := true, ime := true }
      (fun t => (t.halted, t.regs.pc, t.bus.ifReg, readCell t.bus.mem 0xFFFC)) =
    some (false, 0x0050, 0x00, some 0x01) := by decide

/-- S7(b): the lowest bit of `IE & IF` wins. -/
theorem test_S7_priority :
    after { withIrq (start [0x00] regs0 []) 0x1F 0x1A with ime := true } (fun t => (t.regs.pc, t.bus.ifReg)) =
    some (0x0048, 0x1D) := by decide

/-- S8, t=4: the halt bug on a prefix reads the prefix byte again as the second byte: `SET 1,E`. -/
theorem test_S8_halt_bug_prefix :
    after { withIrq (start [0xCB, 0x37] { regs0 with e := 0x00 } []) 0x01 0x01 with halted := true, haltBug := true }
      (fun t => (t.regs.e, t.regs.pc, t.ticksRemaining)) = some (0x02, 0xC001, 7) := by decide

/-- The same with another `PREFIX_CODE` and `INVALID_SET`. -/
def withParams (s : State) (pre : Byte) (invalid : List Byte) : State :=
  { s with params := { s.params with prefixCode := pre, invalidSet := invalid } }

/-- R6, R101: with `PREFIX_CODE` at `FD` the bytes `FD 37` are `SWAP A`; with `CB` they are the invalid code `FD`. -/
theorem test_prefix_is_a_parameter :
    after (withParams (start [0xFD, 0x37] { regs0 with a := 0x12 } []) 0xFD []) (fun t => (t.regs.a, t.regs.pc)) =
      some (0x21, 0xC002) ∧
    after (start [0xFD, 0x37] { regs0 with a := 0x12 } []) (fun t => (t.regs.a, t.regs.pc)) = some (0x12, 0xC001) := by
  decide

/-- R6, R267: with `01` in `INVALID_SET` the byte `01` consumes no operand byte; without it three bytes are `LD BC,nn`. -/
theorem test_invalid_set_is_a_parameter :
    after (withParams (start [0x01, 0x34, 0x12] regs0 []) 0xCB [0x01]) (fun t => (t.regs.bc, t.regs.pc)) =
      some (0x0013, 0xC001) ∧
    after (withParams (start [0x01, 0x34, 0x12] regs0 []) 0xCB []) (fun t => (t.regs.bc, t.regs.pc)) =
      some (0x1234, 0xC003) := by
  decide

/-- S6: an invalid code occupies one tick. -/
theorem test_S6_invalid :
    after (start [0xD3] regs0 []) (fun t => (t.regs.pc, t.ticksRemaining)) = some (0xC001, 0) := by decide

/-- R301: ticks remaining count down. -/
theorem test_count_down :
    after { start [0x3C] regs0 [] with ticksRemaining := 3 } (fun t => (t.regs.pc, t.ticksRemaining)) =
    some (0xC000, 2) := by decide

/-- S4, tick 9: the request input sets `IF` after the CPU's and the display's steps. -/
theorem test_S4_ext_irq :
    (match step { withIrq (start [0x76] regs0 []) 0x00 0x04 with ticksRemaining := 1, extIrq := [0x04] } with
      | .next t => some (t.bus.ifReg, t.extIrq, t.frameTick)
      | _ => none) = some (0x04, [], 1) := by decide

/-! ## The bus -/

/-- S10: the DMA copy. -/
theorem test_S10_dma :
    let b := (start [] regs0 [(0xC100, 0x5A), (0xC101, 0x5B), (0xC19F, 0xC5), (0xC1A0, 0x77)]).bus.write defaultParams 0xFF46 0xC1
    (readCell b.mem 0xFE00, readCell b.mem 0xFE01, readCell b.mem 0xFE9F, readCell b.mem 0xFEA0, b.ppu.dma) =
    (some 0x5A, some 0x5B, some 0xC5, none, 0xC1) := by decide +kernel

/-- A machine with one byte in the overlay and one in the cartridge. -/
def overlaid : Bus :=
  (State.launch .powerOn defaultParams [] [(0, 0x31)] (.romOnly [(0, 0xA5)]) .null .null .null []).bus

/-- S11: the overlay hides the cartridge until `FF50` is written. -/
theorem test_S11_overlay :
    overlaid.read defaultParams 0x0000 = 0x31 ∧
    (overlaid.write defaultParams 0xFF50 0x01).read defaultParams 0x0000 = 0xA5 ∧
    overlaid.read defaultParams 0xFF50 = 0xFF := by decide

/-- S12: `STAT` and `LY` as the bus sees them. -/
theorem test_S12_stat_ly :
    let b := { overlaid with ppu := { overlaid.ppu with lycEqual := false } }
    (b.write defaultParams 0xFF41 0xFF).read defaultParams 0xFF41 = 0xF8 ∧
    (b.write defaultParams 0xFF44 0x55).read defaultParams 0xFF44 = 0x00 ∧
    (b.write defaultParams 0xFF41 0x00).read defaultParams 0xFF41 = 0x80 := by decide

/-- S13: `IF` and `IE` as the bus sees them. -/
theorem test_S13_if_ie :
    (overlaid.write defaultParams 0xFF0F 0xFF).read defaultParams 0xFF0F = 0xFF ∧
    (overlaid.write defaultParams 0xFFFF 0xE0).read defaultParams 0xFFFF = 0x00 := by decide

/-- Program P5: video memory while the display draws. -/
theorem test_P5_gate :
    let p := { overlaid.ppu with lcdc := 0x91, mode := .draw }
    let b := { overlaid with ppu := p, mem := [(0x8000, 0x11)] }
    b.read defaultParams 0x8000 = 0xFF ∧ (b.write defaultParams 0x8000 0x22).mem = [(0x8000, 0x11)] ∧
    ({ b with ppu := { p with mode := .oamScan } } : Bus).read defaultParams 0x8000 = 0x11 := by decide

/-! ## The display engine (E4, E5, E7, Part 4) -/

/-- The display engine of `post_boot` at a line, a mode and a tick of it. -/
def displayAt (ly : Byte) (m : Mode) (n : Nat) : Bus :=
  { (start [] regs0 []).bus with
    ppu := { resetPpu .postBoot with ly := ly, mode := m, modeTicks := n, lycEqual := ly == 0 } }

/-- E4: ticks 79, 251 and 455. -/
theorem test_E4_line :
    (displayAt 0 .oamScan 79).ppuStep.ppu.mode = .draw ∧ (displayAt 0 .draw 171).ppuStep.ppu.mode = .hblank ∧
    (displayAt 0 .hblank 203).ppuStep.ppu.mode = .oamScan ∧ (displayAt 0 .hblank 203).ppuStep.ppu.ly = 1 := by
  decide

/-- E4: tick 65663 enters mode 1 and requests VBlank; tick 70223 goes back to line 0. -/
theorem test_E4_frame :
    (displayAt 143 .hblank 203).ppuStep.ppu.mode = .vblank ∧ (displayAt 143 .hblank 203).ppuStep.ppu.ly = 144 ∧
    (displayAt 143 .hblank 203).ppuStep.ifReg = 0x01 ∧ (displayAt 152 .vblank 455).ppuStep.ppu.ly = 153 ∧
    (displayAt 153 .vblank 455).ppuStep.ppu.ly = 0 ∧ (displayAt 153 .vblank 455).ppuStep.ppu.mode = .oamScan := by
  decide

/-- The same with `STAT` select bits and `LYC`. -/
def selecting (b : Bus) (sel : BitVec 4) (lyc : Byte) : Bus :=
  { b with ppu := { b.ppu with statSelect := sel, lyc := lyc, lycEqual := b.ppu.ly == lyc } }

/-- E5: the mode 0 source at tick 251, not at 250, and not with the bit clear. -/
theorem test_E5_mode0 :
    (selecting (displayAt 0 .draw 171) 0b0001 0xFF).ppuStep.ifReg = 0x02 ∧
    (selecting (displayAt 0 .draw 170) 0b0001 0xFF).ppuStep.ifReg = 0x00 ∧
    (selecting (displayAt 0 .draw 171) 0b0110 0xFF).ppuStep.ifReg = 0x00 := by decide

/-- E5, last row: the mode 1 entry and the `LYC = 144` match in tick 65663. -/
theorem test_E5_lyc :
    (selecting (displayAt 143 .hblank 203) 0b1111 0x90).ppuStep.ifReg = 0x03 ∧
    (selecting (displayAt 144 .vblank 7) 0b1000 0x90).ppuStep.ifReg = 0x00 := by decide

/-- E7: the display off forces line 0 and mode 0 at once. -/
theorem test_E7_off :
    let b := displayAt 2 .draw 16
    let q := ({ b with ppu := { b.ppu with lcdc := 0x11 } } : Bus).ppuStep.ppu
    q.ly = 0 ∧ q.mode = .hblank ∧ q.modeTicks = 0 := by decide

/-- Object entries at bus addresses. -/
def objectTable (m : Memory) (entries : List (List Byte)) : Memory := bytesAt m 0xFE00 entries.flatten

/-- L1: the object scan, with three objects on line 0, and with forty. -/
theorem test_L1_scan :
    (Bus.scannedObjs
      { displayAt 0 .oamScan 0 with
        mem := objectTable [] (List.replicate 3 [0x10, 0, 0, 0] ++ List.replicate 37 [0x00, 0, 0, 0]) }) = [0, 1, 2] ∧
    (Bus.scannedObjs
      { displayAt 0 .oamScan 0 with mem := objectTable [] (List.replicate 40 [0x10, 0, 0, 0]) }) =
      [0, 1, 2, 3, 4, 5, 6, 7, 8, 9] := by decide +kernel

/-- The line of L2: the tile and map bytes the line reads, and three objects. -/
def lineL2 (lcdc scx wx attr0 : Byte) (map1 : Byte) : Bus :=
  let vram := cellsAt (bytesAt (bytesAt [] 0x9800 ([0x01] ++ List.replicate 31 0x00)) 0x9C00 ([map1] ++ List.replicate 31 0x00))
    [(0x8000, 0x00), (0x8001, 0x00), (0x8010, 0xF0), (0x8011, 0xCC), (0x9000, 0x00), (0x9001, 0x00), (0x9010, 0x0F), (0x9011, 0x00)]
  { displayAt 0 .draw 0 with
    mem := objectTable vram [[0x10, 0x0C, 0x01, attr0], [0x10, 0x0E, 0x01, 0x80], [0x10, 0x08, 0x01, 0x80]]
    ppu :=
      { resetPpu .postBoot with
        lcdc := lcdc, scx := scx, wx := wx, bgp := 0xE4, obp0 := 0xE4, obp1 := 0x1B, lineObjs := [0, 1, 2] } }

/-- L2: background and objects. -/
theorem test_L2_line :
    (List.range 16).map (lineL2 0x93 0 0 0x10 0).pixel = [3, 3, 1, 1, 0, 0, 2, 2, 1, 1, 2, 2, 0, 0, 0, 0] := by
  decide +kernel

/-- L3: scroll and X flip. -/
theorem test_L3_line :
    (List.range 16).map (lineL2 0x93 4 0 0x30 0).pixel = [2, 2, 1, 1, 2, 2, 1, 1, 2, 2, 0, 0, 0, 0, 0, 0] := by
  decide +kernel

/-- L4(a): the window; L4(b): signed tile numbers. -/
theorem test_L4_lines :
    (List.range 16).map (lineL2 0xF1 0 0x0F 0x10 1).pixel = [3, 3, 1, 1, 2, 2, 0, 0, 3, 3, 1, 1, 2, 2, 0, 0] ∧
    (List.range 8).map (lineL2 0x81 0 0 0x10 0).pixel = [0, 0, 0, 0, 1, 1, 1, 1] := by decide +kernel

/-! ## Witnesses: for each statement with hypotheses, a state and operands that meet them -/

theorem witness_DecodeOfEncode : (Instr.ldRrNn .sp 0xFFFF).wf = true ∧ Instr.ldRrNn .sp 0xFFFF ≠ .prefixCb := by decide

/-- The condition on another prefix code, met by a primary and by an extended instruction. -/
theorem witness_DecodeOfEncode_prefix :
    (Instr.opcode .nop ≠ 0xFD) ∧ (Instr.rlcHl).isExtended = true ∧ Instr.opcode .prefixCb ≠ 0xFD := by decide

theorem witness_EncodeOfDecode : decodeWith 0xCB [0x01, 0x34, 0x12, 0x99] = .ok (.ldRrNn .bc 0x1234, [0x99]) := rfl

theorem witness_InvalidCodes : Instr.invalidFD ∈ invalidInstrs ∧ State.reset.params = defaultParams := ⟨by decide, rfl⟩

/-- The tick that fetches an invalid code, by the default set and by one that holds the code of `INC A`. -/
theorem witness_InvalidCodes_step :
    let s := start [0xDD] regs0 []
    let t := withParams (start [0x3C] regs0 []) 0xCB [0x3C]
    s.fetches ∧ 0xDD ∈ s.params.invalidSet ∧ (0xDD : Byte) ≠ s.params.prefixCode ∧ s.read s.regs.pc = 0xDD ∧
    t.fetches ∧ 0x3C ∈ t.params.invalidSet ∧ t.read t.regs.pc = 0x3C := by
  simp only [State.fetches]; decide

/-- The four ends of the two ranges, by the bytes below `SP`. -/
theorem witness_PushThenPop :
    inRam (0xC002 - 1) ∧ inRam (0xC002 - 2) ∧ inRam (0xE000 - 1) ∧ inRam (0xE000 - 2) ∧
    inRam (0xFF82 - 1) ∧ inRam (0xFF82 - 2) ∧ inRam (0xFFFF - 1) ∧ inRam (0xFFFF - 2) ∧
    ¬ inRam (0xE000 : Word) ∧ ¬ inRam (0xFFFF : Word) := by simp only [inRam]; decide

/-- The hypotheses of the return statement, in one state. -/
theorem witness_ReturnComesBack :
    inRam ((start [0xCD] regs0 []).regs.sp - 1) ∧ inRam ((start [0xCD] regs0 []).regs.sp - 2) := by
  simp only [inRam]; decide

theorem witness_DaaMakesPackedDecimal :
    let s := start [0x88] { regs0 with a := 0x99, b := 0x00 } []
    s.regs.a = BitVec.ofNat 8 (16 * (99 / 10) + 99 % 10) ∧ s.get8 .b = BitVec.ofNat 8 (16 * (0 / 10) + 0 % 10) ∧
    s.get8 .a = BitVec.ofNat 8 (16 * (99 / 10) + 99 % 10) := by decide

/-- Each condition both ways, for the conditional jumps, calls and returns. -/
theorem witness_Conditional :
    (∀ cc, Flags.holds ⟨cc == .z, false, false, cc == .c⟩ cc = true) ∧
    (∀ cc, Flags.holds ⟨cc == .nz, false, false, cc == .nc⟩ cc = false) :=
  ⟨fun cc => by cases cc <;> rfl, fun cc => by cases cc <;> rfl⟩

theorem witness_DefaultTables :
    (Instr.retCc .c).wf = true ∧ ruleExtra (.retCc .c) ≠ 0 ∧ (Instr.popRr .hl).wf = true := by decide

/-- A state that fetches `SWAP A`. -/
def fetching : State := start [0xCB, 0x37, 0x00] regs0 []

theorem witness_StepRuns :
    fetching.fetches ∧ fetching.haltBug = false ∧
    decodeWith fetching.params.prefixCode
      [fetching.read fetching.regs.pc, fetching.read (fetching.regs.pc + 1), fetching.read (fetching.regs.pc + 2)] =
      .ok (.swapR .a, [0x00]) ∧
    fetching.invalidAt = false := ⟨⟨rfl, .inl rfl, .inl rfl⟩, rfl, rfl, by decide⟩

/-- The same for an invalid code, which the tables decode to its own instruction. -/
theorem witness_StepRuns_invalid :
    let s := start [0xDD, 0x00, 0x00] regs0 []
    s.fetches ∧ s.haltBug = false ∧ s.invalidAt = true ∧ .invalidDD ∈ invalidInstrs ∧
    decodeWith s.params.prefixCode [s.read s.regs.pc, s.read (s.regs.pc + 1), s.read (s.regs.pc + 2)] =
      .ok (.invalidDD, [0x00, 0x00]) := ⟨⟨rfl, .inl rfl, .inl rfl⟩, rfl, by decide, by decide, rfl⟩

/-- The same woken from `HALT` by a request. -/
theorem witness_StepRuns_woken :
    State.fetches { withIrq fetching 0x04 0x04 with halted := true } :=
  ⟨rfl, .inl rfl, .inr (by decide)⟩

/-- A state with the halt bug at `INC A`. -/
def bugged : State := { withIrq (start [0x3C, 0x00] regs0 []) 0x01 0x01 with halted := true, haltBug := true }

theorem witness_HaltBug :
    bugged.fetches ∧ bugged.haltBug = true ∧
    decodeWith bugged.params.prefixCode
      [bugged.read bugged.regs.pc, bugged.read bugged.regs.pc, bugged.read (bugged.regs.pc + 1)] =
      .ok (.incR .a, [0x3C, 0x00]) ∧
    bugged.invalidAt = false := ⟨⟨rfl, .inl rfl, .inr (by decide)⟩, rfl, rfl, by decide⟩

theorem witness_TickRunsItsPhases : ∃ u, cpuStep fetching = .next u := ⟨_, rfl⟩

theorem witness_CountDown : { fetching with ticksRemaining := 1 }.ticksRemaining ≠ 0 := by decide

theorem witness_Idle :
    let s := { fetching with halted := true }
    s.ticksRemaining = 0 ∧ s.halted = true ∧ s.pending = 0 := by decide

theorem witness_Wake :
    let s := { withIrq fetching 0x10 0x1F with halted := true }
    s.ticksRemaining = 0 ∧ s.halted = true ∧ s.pending ≠ 0 ∧ s.ime = false := by decide

/-- A state that dispatches source 4. -/
def dispatching : State := { withIrq fetching 0x10 0x1F with ime := true }

theorem witness_Dispatch :
    dispatching.ticksRemaining = 0 ∧ dispatching.ime = true ∧ dispatching.pending ≠ 0 := by decide

theorem witness_DispatchSaves :
    inRam (dispatching.regs.sp - 1) ∧ inRam (dispatching.regs.sp - 2) ∧ ∃ t, cpuStep dispatching = .next t :=
  ⟨by simp only [inRam]; decide, by simp only [inRam]; decide, _, rfl⟩

/-- A state one instruction after `EI`. -/
def afterEi : State := { withIrq (start [0x3C, 0x00, 0x00] regs0 []) 0x01 0x01 with imePending := true }

theorem witness_EiWaits :
    afterEi.ticksRemaining = 0 ∧ afterEi.halted = false ∧ afterEi.haltBug = false ∧ afterEi.ime = false ∧
    afterEi.imePending = true ∧
    decodeWith afterEi.params.prefixCode
      [afterEi.read afterEi.regs.pc, afterEi.read (afterEi.regs.pc + 1), afterEi.read (afterEi.regs.pc + 2)] =
      .ok (.incR .a, [0x00, 0x00]) ∧
    afterEi.invalidAt = false := ⟨rfl, rfl, rfl, rfl, rfl, rfl, by decide⟩

theorem witness_ImeRises_ei : ∃ t, step afterEi = .next t ∧ afterEi.ime = false ∧ t.ime = true := ⟨_, rfl, rfl, rfl⟩

theorem witness_ImeRises_reti :
    let s := start [0xD9] { regs0 with sp := 0xC100 } [(0xC100, 0x00), (0xC101, 0xC0)]
    ∃ t, step s = .next t ∧ s.ime = false ∧ t.ime = true := ⟨_, rfl, rfl, rfl⟩

theorem witness_StepsKeep :
    (∃ t, step fetching = .next t) ∧ fetching.bus.cart = .romOnly [(0, 0)] ∧ fetching.bus.bootMapped = false :=
  ⟨⟨_, rfl⟩, rfl, rfl⟩

/-- The ends of the ranges of the map's statement: which owner each end has, one clause for each. -/
theorem witness_MapRoutes :
    ([0x0000, 0x00FF, 0x0100, 0x7FFF, 0xA000, 0xBFFF, 0xFF00, 0xFF01, 0xFF02, 0xFF04, 0xFF07, 0xFF50].map ownerOf =
      [.overlay, .overlay, .cart, .cart, .cart, .cart, .joypad, .serial, .serial, .timer, .timer, .bootUnmap]) ∧
    ([0xE000, 0xFDFF, 0xFEA0, 0xFEFF, 0xFF03, 0xFF08, 0xFF0E, 0xFF10, 0xFF3F, 0xFF4C, 0xFF4F, 0xFF51, 0xFF7F].all
      (ownerOf · == .unmapped)) = true ∧
    inRam 0xC000 ∧ inRam 0xDFFF ∧ inRam 0xFF80 ∧ inRam 0xFFFE ∧
    overlaid.bootMapped = true ∧ fetching.bus.bootMapped = false := by simp only [inRam]; decide

/-- Video memory shut, open by its mode, open with the display off; both memories, at their ends. -/
theorem witness_VideoMemory :
    (displayAt 0 .draw 0).ppu.lcdc.getLsbD 7 = true ∧ (displayAt 0 .draw 0).ppu.mode = .draw ∧
    (displayAt 0 .oamScan 0).ppu.mode = .oamScan ∧ fetching.bus.ppu.lcdc.getLsbD 7 = false ∧
    [0x8000, 0x9FFF].map ownerOf = [.vram, .vram] ∧ [0xFE00, 0xFE9F].map ownerOf = [.oam, .oam] := by decide

theorem witness_WriteChangesOnlyItsReach :
    mayChange 0xC000 0xC001 = false ∧ mayChange 0xFF46 0xFDFF = false ∧ mayChange 0xFF40 0xC000 = false ∧
    mayChange 0xFF50 0x0100 = false ∧ mayChange 0xE000 0xE000 = false ∧ mayChange 0x4000 0x8000 = false := by decide

theorem witness_DisabledDisplay : fetching.bus.ppu.lcdc.getLsbD 7 = false := by decide

/-- Each mode of the enabled display at the last line and the last tick of its range. -/
theorem witness_ModesFollow :
    (displayAt 143 .oamScan 79).ppu.rangesOk ∧ (displayAt 143 .draw 171).ppu.rangesOk ∧
    (displayAt 143 .hblank 203).ppu.rangesOk ∧ (displayAt 144 .vblank 0).ppu.rangesOk ∧
    (displayAt 153 .vblank 455).ppu.rangesOk ∧ (displayAt 153 .vblank 455).ppu.lcdc.getLsbD 7 = true := by
  simp only [Ppu.rangesOk, displayAt]; decide

/-- The hypotheses of the request statement, in the states where each source raises one. -/
theorem witness_DisplayRaises :
    (selecting (displayAt 143 .hblank 203) 0b1111 0x90).ppu.rangesOk ∧
    (selecting (displayAt 143 .hblank 203) 0b1111 0x90).ppu.lcdc.getLsbD 7 = true ∧
    (selecting (displayAt 0 .draw 171) 0b0001 0xFF).ppu.rangesOk := by
  simp only [Ppu.rangesOk, selecting, displayAt]; decide

/-- Column 10 of L2: object 0 is transparent there, object 1 is not. -/
theorem witness_EarliestObject :
    let b := lineL2 0x93 0 0 0x10 0
    b.ppu.lcdc.getLsbD 1 = true ∧ b.ppu.lineObjs = [0] ++ 1 :: [2] ∧ (∀ j ∈ [0], b.objIndex j 10 = 0) ∧
    b.objIndex 1 10 ≠ 0 := by decide +kernel

/-- The steps that enter mode 2, from a line's end and from the frame's, the step that enters mode 3, and one that stays. -/
theorem witness_ObjectScan_and_Render :
    (displayAt 0 .hblank 203).ppuStep.ppu.mode = .oamScan ∧ (displayAt 153 .vblank 455).ppuStep.ppu.mode = .oamScan ∧
    (displayAt 0 .oamScan 79).ppuStep.ppu.mode = .draw ∧ (displayAt 0 .oamScan 78).ppuStep.ppu.mode = .oamScan := by
  decide

theorem witness_FrameTakes :
    let b := displayAt 0 .oamScan 0
    b.ppu.lcdc.getLsbD 7 = true ∧ b.ppu.mode = .oamScan ∧ b.ppu.modeTicks = 0 ∧ b.ppu.ly = 0 := by decide

theorem witness_NothingReadsTheFrame : ∃ t, step fetching = .next t := ⟨_, rfl⟩

/-- A state in the middle of drawing line 100, with a memory and a row of the frame, meets the invariant and steps. -/
def midFrame : State :=
  { start [0x3C, 0x00, 0x00] regs0 [(0x8000, 0x12), (0xFE00, 0x10), (0xFF80, 0x99)] with
    bus :=
      { (start [0x3C, 0x00, 0x00] regs0 [(0x8000, 0x12), (0xFE00, 0x10), (0xFF80, 0x99)]).bus with
        ppu :=
          { (displayAt 100 .draw 171).ppu with lineObjs := [3, 17], frame := [(100, List.replicate 160 2)] } }
    frameTick := 70223 }

theorem witness_EveryStepKeepsTheInvariant : midFrame.Inv ∧ ∃ t, step midFrame = .next t := by
  refine ⟨⟨by decide, by decide, ⟨?_, ?_, ?_⟩, ?_, by decide, ?_, by decide⟩, _, rfl⟩
  · simp only [Ppu.rangesOk, midFrame, displayAt]; decide
  · exact ⟨by decide, by decide, by decide⟩
  · refine ⟨by decide, fun row h => ?_⟩
    simp only [midFrame, List.mem_singleton] at h
    subst h
    exact ⟨by decide, List.length_replicate⟩
  · intro h; exact absurd h (by decide)
  · intro h; exact absurd h (by decide)

theorem witness_LaunchMeetsTheInvariant :
    Memory.wf [(0x8000, 0x12), (0xC000, 0x00), (0xFFFE, 0x01)] = true ∧
    Memory.inStorage [(0x8000, 0x12), (0xC000, 0x00), (0xFFFE, 0x01)] = true := by decide

end Sys2Proof.Tests
end

section
/-! SUPPORT. Proofs of the scope family (00_scope.md). First the opcode byte a decoded instruction has, the tick tables at their
defaults and the tick that fetches, which other families need too; then the statements. -/

namespace Sys2Proof

/-! ## The opcode byte of a decoded instruction (R112, R113) -/

theorem opcode_decodeX0_operands (y z p q : Nat) (n : Byte) (nn : Word) :
    (decodeX0 y z p q n nn).opcode = (decodeX0 y z p q 0 0).opcode := by
  unfold decodeX0
  split <;> split <;> rfl

theorem opcode_decodeAluImm_operand (y : Nat) (n : Byte) : (decodeAluImm y n).opcode = (decodeAluImm y 0).opcode := by
  unfold decodeAluImm
  split <;> rfl

theorem opcode_decodeX3_operands (y z p q : Nat) (n : Byte) (nn : Word) :
    (decodeX3 y z p q n nn).opcode = (decodeX3 y z p q 0 0).opcode := by
  unfold decodeX3
  split
  case h_7 => exact opcode_decodeAluImm_operand y n
  case h_8 => rfl
  case h_1 | h_2 | h_3 | h_4 | h_5 | h_6 => split <;> rfl

/-- The bytes after it have no part in which opcode byte the instruction has. -/
theorem opcode_decodePrimary_operands (op b1 b2 : Byte) : (decodePrimary op b1 b2).opcode = (decodePrimary op 0 0).opcode := by
  unfold decodePrimary
  split
  · exact opcode_decodeX0_operands ..
  · rfl
  · rfl
  · exact opcode_decodeX3_operands ..

/-- The primary table is read by the opcode byte: its entry has that byte back. -/
@[simp] theorem opcode_decodePrimary (op b1 b2 : Byte) : (decodePrimary op b1 b2).opcode = op := by
  have key : ∀ op : Byte, (decodePrimary op 0 0).opcode = op := by decide +kernel
  rw [opcode_decodePrimary_operands, key]

theorem isExtended_decodeShift (y z : Nat) : (decodeShift y z).isExtended = true := by
  unfold decodeShift
  split <;> rfl

/-- The extended table holds extended instructions only. -/
@[simp] theorem isExtended_decodeExtended (op2 : Byte) : (decodeExtended op2).isExtended = true := by
  unfold decodeExtended
  dsimp only
  split
  case h_1 => exact isExtended_decodeShift ..
  all_goals rfl

end Sys2Proof

namespace Sys2Proof.Machine

/-! ## The tick tables at their defaults (R6, R420, R421) -/

theorem baseTicks_defaultParams (i : Instr) : baseTicks defaultParams i = ruleTicks i := by
  cases i
  case ldRR rd rs => cases rd <;> cases rs <;> rfl
  case incR r | decR r | ldRN r _ | ldRHl r | ldHlR r | addAR r | adcAR r | subR r | sbcAR r | andR r | xorR r | orR r | cpR r
      | rlcR r | rrcR r | rlR r | rrR r | slaR r | sraR r | swapR r | srlR r => cases r <;> rfl
  case ldRrNn p _ | incRr p | decRr p | addHlRr p => cases p <;> rfl
  case popRr p | pushRr p => cases p <;> rfl
  case jrCcE cc _ | jpCcNn cc _ | callCcNn cc _ | retCc cc => cases cc <;> rfl
  case rstT t => revert t; decide
  case bitBR b r | resBR b r | setBR b r => revert b; cases r <;> decide
  case bitBHl b | resBHl b | setBHl b => revert b; decide
  all_goals rfl

theorem takenExtra_defaultParams {i : Instr} (h : ruleExtra i ≠ 0) : takenExtra defaultParams i = ruleExtra i := by
  cases i
  case jrCcE cc _ | jpCcNn cc _ | callCcNn cc _ | retCc cc => cases cc <;> rfl
  all_goals exact absurd rfl h

/-! ## The tick that fetches (R300, R304, R305, R307) -/

theorem step_of_cpuStep {s t : State} (h : cpuStep s = .next t) : step s = .next t.afterCpu := by
  unfold step tick
  rw [h]

theorem cpuStep_of_fetches {s : State} (h : s.fetches) :
    cpuStep s = State.runFetched (State.commitIme { s with halted := false }) := by
  obtain ⟨hticks, hime, hhalted⟩ := h
  have hawake : ¬(s.halted = true ∧ s.pending = 0) := by
    rintro ⟨hset, hnone⟩
    rcases hhalted with hclear | hsome
    · simp [hset] at hclear
    · exact hsome hnone
  unfold cpuStep
  rw [if_neg (fun hne => hne hticks)]
  split
  case h_1 i hi hsrc =>
    rcases hime with hime | hpend
    · simp [hime] at hi
    · rw [lowestSource_eq_none.2 hpend] at hsrc
      cases hsrc
  case h_2 => rw [if_neg hawake]

theorem passOpcode_commitIme (s : State) :
    (State.commitIme { s with halted := false }).passOpcode = s.atExecute (if s.haltBug then 0 else 1) := by
  unfold State.passOpcode State.commitIme State.atExecute
  cases hp : s.imePending <;> cases hb : s.haltBug <;> simp [State.setPc]

theorem opcodeAt_commitIme (s : State) :
    (State.commitIme { s with halted := false }).opcodeAt = s.read s.regs.pc := by
  simp [State.opcodeAt, State.read]

theorem runFetched_of_invalidAt {s : State} (h : s.invalidAt = true) :
    s.runFetched = invalidEntry s.opcodeAt s.passOpcode := if_pos h

/-! ## The invalid codes (R114, R267) -/

theorem map_opcode_invalidInstrs : invalidInstrs.map Instr.opcode = invalidCodes := rfl

theorem map_decodeFetched_invalidCodes (b1 b2 : Byte) :
    invalidCodes.map (decodeFetched 0xCB · b1 b2) = invalidInstrs := rfl

theorem isExtended_of_mem_invalidInstrs : ∀ i ∈ invalidInstrs, i.isExtended = false := by decide

theorem ruleTicks_of_mem_invalidInstrs : ∀ i ∈ invalidInstrs, ruleTicks i = 0 := by decide

theorem decodeFetched_mem_invalidInstrs (op b1 b2 : Byte) :
    decodeFetched 0xCB op b1 b2 ∈ invalidInstrs ↔ op ∈ invalidCodes := by
  constructor
  · intro h
    unfold decodeFetched at h
    split at h
    · simpa using isExtended_of_mem_invalidInstrs _ h
    · simpa [map_opcode_invalidInstrs] using List.mem_map_of_mem (f := Instr.opcode) h
  · intro h
    rw [← map_decodeFetched_invalidCodes b1 b2]
    exact List.mem_map_of_mem h

theorem exec_of_mem_invalidInstrs {i : Instr} (hi : i ∈ invalidInstrs) (s : State) : exec i s = invalidEntry i.opcode s := by
  have key : invalidInstrs.map (exec · s) = invalidInstrs.map (fun i => invalidEntry i.opcode s) := rfl
  exact List.map_inj_left.1 key i hi

theorem leavesRegs_of_mem_invalidInstrs {i : Instr} (hi : i ∈ invalidInstrs) (s : State) : LeavesRegs i s s.regs := by
  refine ⟨?_, State.withRegs_read s s.regs _⟩
  rw [exec_of_mem_invalidInstrs hi]
  simp [invalidEntry, State.charge, State.withRegs, chargeOf, baseTicks, isExtended_of_mem_invalidInstrs i hi]

theorem chargeOf_of_mem_invalidInstrs {i : Instr} (hi : i ∈ invalidInstrs) {s : State} (hs : s.params = defaultParams) :
    chargeOf s i = 0 := by
  simp [chargeOf, hs, baseTicks_defaultParams, ruleTicks_of_mem_invalidInstrs i hi]

theorem step_of_fetches_invalid {s : State} (hf : s.fetches) (hmem : s.read s.regs.pc ∈ s.params.invalidSet)
    (hpre : s.read s.regs.pc ≠ s.params.prefixCode) :
    step s =
      .next
        ((s.atExecute (if s.haltBug then 0 else 1)).charge
          (s.params.ticksPrimary.getD (s.read s.regs.pc).toNat 0)).afterCpu := by
  have hinv : (State.commitIme { s with halted := false }).invalidAt = true := by
    simp [State.invalidAt, opcodeAt_commitIme, hmem, hpre]
  apply step_of_cpuStep
  rw [cpuStep_of_fetches hf, runFetched_of_invalidAt hinv, invalidEntry, opcodeAt_commitIme, passOpcode_commitIme]
  rfl

/-! ## The statements -/

/-- Settles O33: the tables agree with every rule's `Ticks:` line, instruction by instruction. -/
theorem defaultTablesGiveTheRulesTicks : Obligations.DefaultTablesGiveTheRulesTicks :=
  fun i _ => ⟨baseTicks_defaultParams i, takenExtra_defaultParams⟩

/-- Settles O58: `State.reset` is defined as that launch. -/
theorem resetStateIsThePowerOnLaunch : Obligations.ResetStateIsThePowerOnLaunch := rfl

/-- Settles O5: the table's entry has its opcode byte back, so the eleven bytes alone give the eleven instructions; each runs the
invalid handler, and so does a fetched byte of `INVALID_SET`. -/
theorem invalidCodesDoNothing : Obligations.InvalidCodesDoNothing :=
  ⟨decodeFetched_mem_invalidInstrs, fun _ hi s => leavesRegs_of_mem_invalidInstrs hi s,
    fun _ hi _ hs => chargeOf_of_mem_invalidInstrs hi hs, rfl, fun _ => Iff.rfl, by decide,
    fun _ hf hmem hpre => step_of_fetches_invalid hf hmem hpre⟩

end Sys2Proof.Machine
end

section
/-! SUPPORT. Proofs of the state family (10_state.md), first part: which later reads a store can change (`mayChange`), and
the instruction a fetch runs. Other families need these too. -/

namespace Sys2Proof.Machine

/-! ## What a store changes for later reads (R61, R77, R82) -/

/-- Two buses answer a read of the address `x` from equal contents. -/
structure Bus.AgreesAt (b c : Bus) (x : Nat) : Prop where
  boot : ownerOf x = .overlay → c.boot = b.boot := by exact fun _ => rfl
  mapped : ownerOf x = .overlay → c.bootMapped = b.bootMapped := by exact fun _ => rfl
  cart : ownerOf x = .overlay ∨ ownerOf x = .cart → c.cart = b.cart := by exact fun _ => rfl
  stored : storedByte c.mem x = storedByte b.mem x := by exact rfl
  vram : ownerOf x = .vram → c.ppu.vramBlocked = b.ppu.vramBlocked := by exact fun _ => rfl
  oam : ownerOf x = .oam → c.ppu.oamBlocked = b.ppu.oamBlocked := by exact fun _ => rfl
  display : ownerOf x = .display → c.ppu.readReg x = b.ppu.readReg x := by exact fun _ => rfl
  joypad : ownerOf x = .joypad → c.joypad = b.joypad := by exact fun _ => rfl
  serial : ownerOf x = .serial → c.serial = b.serial := by exact fun _ => rfl
  timer : ownerOf x = .timer → c.timer = b.timer := by exact fun _ => rfl
  ifReg : ownerOf x = .ifReg → c.ifReg = b.ifReg := by exact fun _ => rfl
  ieReg : ownerOf x = .ieReg → c.ieReg = b.ieReg := by exact fun _ => rfl

theorem Bus.AgreesAt.refl (b : Bus) (x : Nat) : b.AgreesAt b x := {}

theorem Bus.AgreesAt.read {b c : Bus} {x : Word} (h : b.AgreesAt c x.toNat) (p : Params) : c.read p x = b.read p x := by
  unfold Bus.read
  dsimp only
  cases e : ownerOf x.toNat <;> dsimp only
  case overlay => rw [h.mapped e, h.boot e, h.cart (.inl e)]
  case cart => rw [h.cart (.inr e)]
  case vram => rw [h.vram e, h.stored]
  case oam => rw [h.oam e, h.stored]
  case wram | hram => exact h.stored
  case display => exact h.display e
  case joypad => rw [h.joypad e]
  case serial => rw [h.serial e]
  case timer => rw [h.timer e]
  case ifReg => rw [h.ifReg e]
  case ieReg => rw [h.ieReg e]

theorem Bus.store_agreesAt (b : Bus) {a x : Nat} (v : Byte) (h : x ≠ a) : b.AgreesAt (b.store a v) x :=
  { stored := storedByte_writeCell_other b.mem v h }

theorem Ppu.readReg_writeReg_other (p : Ppu) {a x : Nat} (v : Byte) (ha : ownerOf a = .display) (hx : ownerOf x = .display)
    (h : x ≠ a) : (p.writeReg a v).readReg x = p.readReg x := by
  rw [ownerOf_display_iff] at ha hx
  unfold Ppu.writeReg
  iterate 11
    refine iteInduction (motive := fun q : Ppu => q.readReg x = p.readReg x)
      (fun e => by subst e; simp only [Ppu.readReg, Ppu.stat, if_neg h]) fun _ => ?_
  unfold Ppu.readReg
  iterate 11 refine ite_congr rfl (fun _ => rfl) fun _ => ?_
  omega

theorem Ppu.writeReg_lcdc_other (p : Ppu) {a : Nat} (v : Byte) (h : a ≠ 0xFF40) : (p.writeReg a v).lcdc = p.lcdc := by
  unfold Ppu.writeReg
  rw [if_neg h]
  iterate 10 refine iteInduction (motive := fun q : Ppu => q.lcdc = p.lcdc) (fun _ => rfl) fun _ => ?_
  rfl

theorem Bus.writeDisplay_agreesAt (p : Params) (b : Bus) {a x : Nat} (v : Byte) (ha : ownerOf a = .display) (hx : x ≠ a)
    (hgate : a = 0xFF40 → ownerOf x ≠ .vram ∧ ownerOf x ≠ .oam) (hdma : a = 0xFF46 → ownerOf x ≠ .oam) :
    b.AgreesAt (b.writeDisplay p a v) x := by
  have hregs (hown : ownerOf x = .display) : (b.ppu.writeReg a v).readReg x = b.ppu.readReg x :=
    b.ppu.readReg_writeReg_other v ha hown hx
  have hgates (hown : ownerOf x = .vram ∨ ownerOf x = .oam) :
      (b.ppu.writeReg a v).vramBlocked = b.ppu.vramBlocked ∧ (b.ppu.writeReg a v).oamBlocked = b.ppu.oamBlocked := by
    have hlcdc : a ≠ 0xFF40 := fun e => by
      obtain ⟨hv, ho⟩ := hgate e
      exact hown.elim hv ho
    simp only [Ppu.vramBlocked, Ppu.oamBlocked, Ppu.enabled, b.ppu.writeReg_lcdc_other v hlcdc,
      (b.ppu.writeReg_hidden a v).mode, and_self]
  unfold Bus.writeDisplay
  dsimp only
  split
  case isTrue e =>
    obtain ⟨m, hm⟩ := Bus.dmaCopy_shape p v { b with ppu := b.ppu.writeReg a v }
    have hstored : storedByte m x = storedByte b.mem x := by
      have houtside (k : Nat) (hk : k < 160) : x ≠ 0xFE00 + k := fun hin => hdma e (ownerOf_oam_iff.2 (by omega))
      have hcopy := Bus.dmaCopy_mem (fun m => storedByte m x = storedByte b.mem x) p v
        { b with ppu := b.ppu.writeReg a v }
        (fun m k w hk hm => (storedByte_writeCell_other m w (houtside k hk)).trans hm) rfl
      rwa [hm] at hcopy
    rw [hm]
    exact
      { stored := hstored, display := hregs
        vram := fun h => (hgates (.inl h)).1, oam := fun h => (hgates (.inr h)).2 }
  case isFalse =>
    exact
      { display := hregs
        vram := fun h => (hgates (.inl h)).1, oam := fun h => (hgates (.inr h)).2 }

/-- The addresses `mayChange` does not list agree across the write. -/
theorem Bus.write_agreesAt (p : Params) (b : Bus) {a x : Word} (v : Byte) (h : mayChange a x = false) :
    b.AgreesAt (b.write p a v) x.toNat := by
  have hne (e : (x == a) = false) : x.toNat ≠ a.toNat := fun e' => by simp [BitVec.eq_of_toNat_eq e'] at e
  unfold mayChange at h
  unfold Bus.write
  dsimp only
  cases ha : ownerOf a.toNat <;> simp only [ha, Bool.or_eq_false_iff, Bool.and_eq_false_iff] at h ⊢
  case overlay =>
    have hcart : ¬(ownerOf x.toNat = .overlay ∨ ownerOf x.toNat = .cart) := by simpa using h
    split
    · exact .refl b _
    · exact { cart := fun hx => absurd hx hcart }
  case cart =>
    have hcart : ¬(ownerOf x.toNat = .overlay ∨ ownerOf x.toNat = .cart) := by simpa using h
    exact { cart := fun hx => absurd hx hcart }
  case vram | oam =>
    split
    · exact .refl b _
    · exact b.store_agreesAt v (hne h)
  case wram | hram => exact b.store_agreesAt v (hne h)
  case joypad => exact { joypad := fun hx => by simp [hx] at h }
  case serial => exact { serial := fun hx => by simp [hx] at h }
  case timer => exact { timer := fun hx => by simp [hx] at h }
  case ifReg =>
    rw [ownerOf_ifReg_iff] at ha
    exact { ifReg := fun hx => absurd ((ownerOf_ifReg_iff.1 hx).trans ha.symm) (hne h) }
  case ieReg =>
    rw [ownerOf_ieReg_iff] at ha
    exact { ieReg := fun hx => absurd ((ownerOf_ieReg_iff.1 hx).trans ha.symm) (hne h) }
  case bootUnmap => exact { mapped := fun hx => by simp [hx] at h }
  case unmapped => exact .refl b _
  case display =>
    obtain ⟨⟨hsame, hgate⟩, hdma⟩ := h
    refine b.writeDisplay_agreesAt p v ha (hne hsame) (fun e => ?_) (fun e => ?_)
    · have hlcdc : a = 0xFF40 := BitVec.eq_of_toNat_eq e
      simpa [hlcdc] using hgate
    · have hcopies : a = 0xFF46 := BitVec.eq_of_toNat_eq e
      simpa [hcopies] using hdma

theorem Bus.write_read_of_mayChange (p : Params) (b : Bus) {a x : Word} (v : Byte) (h : mayChange a x = false) :
    (b.write p a v).read p x = b.read p x :=
  (b.write_agreesAt p v h).read p

theorem Bus.stores_read_of_mayChange (p : Params) {x : Word} (sts : List (Word × Byte)) (b : Bus)
    (h : ∀ st ∈ sts, mayChange st.1 x = false) : (b.stores p sts).read p x = b.read p x := by
  induction sts generalizing b with
  | nil => rfl
  | cons st sts ih =>
    rw [List.forall_mem_cons] at h
    exact (ih _ h.2).trans (b.write_read_of_mayChange p st.2 h.1)

/-- An instruction that leaves a register file and makes stores leaves every other address reading as before. -/
theorem leavesStores_of_exec {i : Instr} {s : State} {r : Regs} {sts : List (Word × Byte)}
    (h : exec i s = .next (s.withStores r (chargeOf s i) sts)) : LeavesStores i s r sts :=
  ⟨h, fun _ hx => Bus.stores_read_of_mayChange s.params sts s.bus hx⟩

/-! ## PUSH (R21, R164) -/

theorem pushRr_leavesStores (p : StackPair) (s : State) :
    LeavesStores (.pushRr p) s { s.regs with sp := s.regs.sp - 2 }
      [(s.regs.sp - 1, hiByte (s.regs.getStack p)), (s.regs.sp - 2, loByte (s.regs.getStack p))] := by
  have hsp : s.regs.sp - 1 - 1 = s.regs.sp - 2 := BitVec.sub_sub ..
  apply leavesStores_of_exec
  rw [← hsp]
  rfl

/-- The flags stand in bits 7 to 4 of `F` (R21). -/
theorem Flags.getLsbD_toByte (f : Flags) :
    f.toByte.getLsbD 7 = f.z ∧ f.toByte.getLsbD 6 = f.n ∧ f.toByte.getLsbD 5 = f.h ∧ f.toByte.getLsbD 4 = f.c := by
  obtain ⟨z, n, h, c⟩ := f
  revert z n h c
  decide

end Sys2Proof.Machine

namespace Sys2Proof

/-! ## The decoder and the fetch agree (R100, R305) -/

theorem decodeX0_congr {y z p q : Nat} {n n' : Byte} {nn nn' : Word}
    (h1 : 1 ≤ (decodeX0 y z p q 0 0).operandBytes → n = n') (h2 : 2 ≤ (decodeX0 y z p q 0 0).operandBytes → nn = nn') :
    decodeX0 y z p q n nn = decodeX0 y z p q n' nn' := by
  revert h1 h2
  unfold decodeX0
  split <;> split <;> simp +contextual [Instr.operandBytes]

theorem decodeAluImm_operandBytes (y : Nat) (n : Byte) : (decodeAluImm y n).operandBytes = 1 := by
  unfold decodeAluImm
  split <;> rfl

theorem decodeX3_congr {y z p q : Nat} {n n' : Byte} {nn nn' : Word}
    (h1 : 1 ≤ (decodeX3 y z p q 0 0).operandBytes → n = n') (h2 : 2 ≤ (decodeX3 y z p q 0 0).operandBytes → nn = nn') :
    decodeX3 y z p q n nn = decodeX3 y z p q n' nn' := by
  revert h1 h2
  unfold decodeX3
  split
  case h_7 => simp +contextual [decodeAluImm_operandBytes]
  case h_8 => exact fun _ _ => rfl
  case h_1 | h_2 | h_3 | h_4 | h_5 | h_6 => split <;> simp +contextual [Instr.operandBytes]

/-- A primary entry depends on the bytes after its opcode byte only as far as it has operand bytes (R100). -/
theorem decodePrimary_congr {op b1 b2 b1' b2' : Byte} (h1 : 1 ≤ (decodePrimary op 0 0).operandBytes → b1 = b1')
    (h2 : 2 ≤ (decodePrimary op 0 0).operandBytes → b2 = b2') : decodePrimary op b1 b2 = decodePrimary op b1' b2' := by
  revert h1 h2
  unfold decodePrimary
  split
  case h_1 => exact fun h1 h2 => decodeX0_congr h1 fun h => by rw [h1 (Nat.le_of_succ_le h), h2 h]
  case h_2 | h_3 => exact fun _ _ => rfl
  case h_4 => exact fun h1 h2 => decodeX3_congr h1 fun h => by rw [h1 (Nat.le_of_succ_le h), h2 h]

/-- Of three bytes the decoder makes what a fetch of them makes. -/
theorem decodeFetched_of_decodeWith {pre op b1 b2 : Byte} {i : Instr} {rest : List Byte}
    (h : decodeWith pre [op, b1, b2] = .ok (i, rest)) : decodeFetched pre op b1 b2 = i := by
  unfold decodeWith at h
  unfold decodeFetched
  dsimp only at h
  split
  case isTrue e =>
    rw [if_pos e] at h
    injection h with h
    exact congrArg Prod.fst h
  case isFalse e =>
    rw [if_neg e] at h
    split at h
    case h_1 hk =>
      injection h with h
      injection h with hi
      rw [← hi]
      exact decodePrimary_congr (by omega) (by omega)
    case h_2 n rest' hk hrest =>
      injection h with h
      injection hrest with hn
      injection h with hi
      rw [← hi, hn]
      exact decodePrimary_congr (fun _ => rfl) (by omega)
    case h_3 lo hi rest' hk hrest =>
      injection h with h
      injection hrest with hlo hrest
      injection hrest with hhi
      injection h with hi
      rw [← hi, hlo, hhi]
    case h_4 => cases h

end Sys2Proof

namespace Sys2Proof.Machine

/-! ## Every instruction completes (R320) -/

theorem execExtendedEntry_next (op : Byte) (s : State) : ∃ t, execExtendedEntry op s = .next t := by
  unfold execExtendedEntry
  dsimp only
  split
  case h_1 | h_2 => split <;> exact ⟨_, rfl⟩
  all_goals exact ⟨_, rfl⟩

theorem ite_next {c : Prop} [Decidable c] (t u : State) : ∃ v, (if c then .next t else .next u : Result) = .next v :=
  ⟨if c then t else u, (apply_ite _ c t u).symm⟩

/-- Every instruction completes in every state (R320). -/
theorem exec_next (i : Instr) (s : State) : ∃ t, exec i s = .next t := by
  cases i
  case prefixCb => exact execExtendedEntry_next ..
  case jpCcNn | jrCcE | callCcNn | retCc => exact ite_next _ _
  all_goals exact ⟨_, rfl⟩

/-! ## The instruction a tick fetches (R305, R307) -/

/-- Waking and committing an enable have no part in which instruction is fetched. -/
theorem State.fetched_commitIme (s : State) : (State.commitIme { s with halted := false }).fetched = s.fetched := by
  simp [State.fetched, State.opcodeAt, State.read]

theorem State.invalidAt_commitIme (s : State) :
    (State.commitIme { s with halted := false }).invalidAt = s.invalidAt := by
  simp [State.invalidAt, State.opcodeAt, State.read]

theorem opcode_fetched_of_invalidAt {s : State} (h : s.invalidAt = true) : s.fetched.opcode = s.opcodeAt := by
  have hop : s.opcodeAt ≠ s.params.prefixCode := by
    unfold State.invalidAt at h
    simpa using (Bool.and_eq_true_iff.1 h).1
  rw [State.fetched, decodeFetched, if_neg hop, opcode_decodePrimary]

/-- A fetch runs the instruction of the tables, also where the invalid handler runs an invalid one. -/
theorem runFetched_eq_exec {s : State} (h : s.invalidAt = true → s.fetched ∈ invalidInstrs) :
    s.runFetched = exec s.fetched (s.passOpcodes s.fetched) := by
  cases hinv : s.invalidAt
  case false => exact if_neg (by simp [hinv])
  case true =>
    have hpass : s.passOpcodes s.fetched = s.passOpcode := if_neg (by simp [isExtended_of_mem_invalidInstrs _ (h hinv)])
    rw [runFetched_of_invalidAt hinv, exec_of_mem_invalidInstrs (h hinv), hpass, opcode_fetched_of_invalidAt hinv]

theorem State.fetched_of_haltBug {s : State} (h : s.haltBug = true) :
    s.fetched = decodeFetched s.params.prefixCode (s.read s.regs.pc) (s.read s.regs.pc) (s.read (s.regs.pc + 1)) := by
  simp [State.fetched, State.opcodeAt, State.read, h]

theorem State.atExecute_imm8 (s : State) (n : Word) : (s.atExecute n).imm8 = s.atExecute (n + 1) := by
  simp [State.atExecute, State.imm8, State.setPc, BitVec.add_assoc]

theorem passOpcodes_commitIme (s : State) (i : Instr) :
    (State.commitIme { s with halted := false }).passOpcodes i =
      s.atExecute ((if s.haltBug then 0 else 1) + if i.isExtended then 1 else 0) := by
  unfold State.passOpcodes
  rw [passOpcode_commitIme]
  split
  · exact State.atExecute_imm8 ..
  · simp

/-- A tick that fetches is the fetched instruction executed, then the tick's other phases (R300, R305). -/
theorem step_of_fetches {s t : State} (hf : s.fetches) (hinv : s.invalidAt = true → s.fetched ∈ invalidInstrs)
    (ht : exec s.fetched (s.atExecute ((if s.haltBug then 0 else 1) + if s.fetched.isExtended then 1 else 0)) = .next t) :
    step s = .next t.afterCpu := by
  have hrun := runFetched_eq_exec (s := State.commitIme { s with halted := false })
    (by rw [State.invalidAt_commitIme, State.fetched_commitIme]; exact hinv)
  rw [State.fetched_commitIme, passOpcodes_commitIme, ht] at hrun
  exact step_of_cpuStep ((cpuStep_of_fetches hf).trans hrun)

end Sys2Proof.Machine
end

section
/-! SUPPORT. Proofs of the state family (10_state.md), second part: what a CPU step and the phases after it keep, which the
invariant, the parameters and images, and `IME` rest on. -/

namespace Sys2Proof.Machine

/-! ## What a CPU step does to the bus -/

/-- The bus of a dispatch: the request bit cleared, then two byte stores. -/
theorem State.dispatch_bus (s : State) (i : Nat) :
    (s.dispatch i).bus =
      Bus.stores s.params { s.bus with ifReg := s.bus.ifReg &&& ~~~BitVec.twoPow 5 i }
        [(s.regs.sp - 1, hiByte s.regs.pc), (s.regs.sp - 1 - 1, loByte s.regs.pc)] := rfl

/-- A CPU step may clear a request, then stores bytes; the parameters stay. -/
theorem cpuStep_stores {s t : State} (h : cpuStep s = .next t) :
    t.params = s.params ∧
      ∃ (f : BitVec 5) (sts : List (Word × Byte)), t.bus = Bus.stores s.params { s.bus with ifReg := f } sts := by
  rcases cpuStep_cases h with ⟨-, rfl⟩ | ⟨-, -, i, -, rfl⟩ | ⟨-, -, -, rfl⟩ | ⟨-, -, -, hrun⟩
  · exact ⟨rfl, s.bus.ifReg, [], rfl⟩
  · exact ⟨rfl, _, _, s.dispatch_bus i⟩
  · exact ⟨rfl, t.bus.ifReg, [], rfl⟩
  · rcases runFetched_cases hrun with ⟨-, rfl⟩ | ⟨-, hexec⟩
    · exact ⟨by simp, s.bus.ifReg, [], by simp [Bus.stores]⟩
    · have hmoves := exec_moves hexec
      obtain ⟨sts, -, hbus⟩ := hmoves.bus
      exact ⟨by simpa using hmoves.params, s.bus.ifReg, sts, by simpa using hbus⟩

theorem cpuStep_kept {s t : State} (h : cpuStep s = .next t) : s.bus.Kept t.bus := by
  obtain ⟨-, f, sts, hbus⟩ := cpuStep_stores h
  have hclear : s.bus.Kept { s.bus with ifReg := f } := ⟨.refl _, rfl, id, fun _ => id⟩
  rw [hbus]
  exact hclear.trans (Bus.stores_kept ..)

theorem cpuStep_wf {s t : State} (h : cpuStep s = .next t) (hwf : Memory.wf s.bus.mem = true) :
    Memory.wf t.bus.mem = true := by
  obtain ⟨-, f, sts, hbus⟩ := cpuStep_stores h
  rw [hbus]
  exact Bus.stores_wf _ sts { s.bus with ifReg := f } hwf

theorem cpuStep_inStorage {s t : State} (h : cpuStep s = .next t) (hin : Memory.inStorage s.bus.mem = true) :
    Memory.inStorage t.bus.mem = true := by
  obtain ⟨-, f, sts, hbus⟩ := cpuStep_stores h
  rw [hbus]
  exact Bus.stores_inStorage _ sts { s.bus with ifReg := f } hin

/-- The display's part of the invariant is about fields no bus write reaches. -/
theorem Ppu.SameHidden.ok {p q : Ppu} (h : p.SameHidden q) (hp : p.Ok) : q.Ok := by
  obtain ⟨hmode, hticks, hly, -, hobjs, hframe⟩ := h
  obtain ⟨hr, ho, hf⟩ := hp
  unfold Ppu.rangesOk at hr
  unfold Ppu.lineObjsOk at ho
  unfold Ppu.frameOk at hf
  rw [← hmode, ← hticks, ← hly] at hr
  rw [← hobjs] at ho
  rw [← hframe] at hf
  exact ⟨hr, ho, hf⟩

/-! ## The halt bug (R31) -/

theorem exec_halt_bus {s t : State} (h : exec .halt s = .next t) : t.bus = s.bus := by
  injection h with h
  rw [← h]
  rfl

/-- An instruction sets the halt bug only as `HALT`, with `IME` 0 and a request pending. -/
theorem exec_haltBugOk {i : Instr} {s t : State} (h : exec i s = .next t) (hbug : s.haltBug = false)
    (hpend : s.imePending = false) : t.haltBugOk := by
  intro ht
  have hm := exec_moves h
  by_cases hi : i = .halt
  · subst hi
    have hset : s.ime = false ∧ s.pending ≠ 0 := by
      refine Decidable.byContradiction fun hunset => ?_
      have hkept := hm.haltBug
      simp only [controlAfter, if_neg hunset] at hkept
      simp [ht, hbug] at hkept
    refine ⟨hm.halted, hm.ime.trans hset.1, hm.imePending.trans hpend, ?_⟩
    rw [State.pending, exec_halt_bus h]
    exact hset.2
  · have hcontrol : (controlAfter i s).2.2.2 = s.haltBug := by
      cases i
      case halt => exact absurd rfl hi
      all_goals rfl
    have hclear := hm.haltBug
    rw [hcontrol, hbug, ht] at hclear
    cases hclear

theorem cpuStep_haltBugOk {s t : State} (h : cpuStep s = .next t) (hs : s.haltBugOk) : t.haltBugOk := by
  rcases cpuStep_cases h with ⟨-, rfl⟩ | ⟨-, hime, i, -, rfl⟩ | ⟨-, -, -, rfl⟩ | ⟨-, -, -, hrun⟩
  · exact hs
  · intro hbug
    obtain ⟨-, hoff, -⟩ := hs hbug
    rw [hime] at hoff
    cases hoff
  · exact hs
  · rcases runFetched_cases hrun with ⟨-, rfl⟩ | ⟨-, hexec⟩
    · intro hbug
      simp at hbug
    · exact exec_haltBugOk hexec (by simp) (by simp)

/-! ## The phases after the CPU's -/

/-- The display engine's step compares the line it leaves (R347). -/
theorem Bus.ppuStep_lycEqual (b : Bus) : b.ppuStep.ppu.lycEqual = (b.ppuStep.ppu.ly == b.ppuStep.ppu.lyc) := by
  rw [Bus.ppuStep, Bus.compareLyc_hidden]

/-- A disabled display's step leaves line 0 and mode 0 (R341). -/
theorem Bus.ppuStep_disabledOk (b : Bus) : b.ppuStep.ppu.disabledOk := by
  intro hoff
  have hlcdc : b.ppu.enabled = false := by rw [Ppu.enabled, ← b.ppuStep_rest.lcdc]; exact hoff
  rw [Bus.ppuStep, Bus.compareLyc_hidden, Bus.modeMachine, if_neg (by simp [hlcdc])]
  exact ⟨rfl, rfl, rfl⟩

/-- No request is lost after the CPU's step (R310). -/
theorem State.afterCpu_pending_ne_zero {s : State} (h : s.pending ≠ 0) : s.afterCpu.pending ≠ 0 := by
  intro hnone
  cases hsource : lowestSource s.pending with
  | none => exact h (lowestSource_eq_none.1 hsource)
  | some i =>
    obtain ⟨-, hbit, -⟩ := lowestSource_eq_some hsource
    have hkept := s.bus.ppuStep_rest
    have hreq := hkept.requests i
    have hafter : s.afterCpu.pending.getLsbD i = true := by
      simp only [State.pending, BitVec.getLsbD_and, Bool.and_eq_true] at hbit
      simp [State.pending, hkept.ieReg, hbit.1, hreq hbit.2]
    rw [hnone] at hafter
    simp at hafter

theorem State.haltBugOk_afterCpu {s : State} (h : s.haltBugOk) : s.afterCpu.haltBugOk := by
  intro hbug
  obtain ⟨hhalted, hime, himePending, hpending⟩ := h hbug
  exact ⟨hhalted, hime, himePending, s.afterCpu_pending_ne_zero hpending⟩

/-- The phases after the CPU's step keep the parts of the invariant it keeps, and make the others true from any state. -/
theorem State.afterCpu_inv {s : State} (hwf : Memory.wf s.bus.mem = true) (hin : Memory.inStorage s.bus.mem = true)
    (hppu : s.bus.ppu.Ok) (hbug : s.haltBugOk) : s.afterCpu.Inv where
  memWf := by rw [State.afterCpu_bus_mem, s.bus.ppuStep_rest.mem]; exact hwf
  memStorage := by rw [State.afterCpu_bus_mem, s.bus.ppuStep_rest.mem]; exact hin
  ppu := s.bus.ppuStep_ok hppu
  disabled := s.bus.ppuStep_disabledOk
  lycEqual := s.bus.ppuStep_lycEqual
  haltBug := State.haltBugOk_afterCpu hbug
  frameTick := Nat.mod_lt _ (by decide)

/-! ## The interrupt enable (R28, R306) -/

theorem State.fetches_iff {s : State} :
    s.fetches ↔
      s.ticksRemaining = 0 ∧ (s.ime = false ∨ s.pending = 0) ∧ ¬(s.halted = true ∧ s.pending = 0) := by
  unfold State.fetches
  rw [Decidable.not_and_iff_not_or_not, Bool.not_eq_true]

theorem reti_of_ime_rises {i : Instr} {s t : State} (h : exec i s = .next t) (hs : s.ime = false) (ht : t.ime = true) :
    i = .reti := by
  refine Decidable.byContradiction fun hi => ?_
  have hcontrol : (controlAfter i s).1 = true → s.ime = true := by
    cases i
    case reti => exact absurd rfl hi
    case di => exact nofun
    all_goals exact id
  have hon := hcontrol ((exec_moves h).ime.symm.trans ht)
  rw [hs] at hon
  cases hon

/-! ## Reset (R55, R403) -/

theorem resetRegs_powerOn : let r := resetRegs .powerOn
    r.af = 0x0000 ∧ r.bc = 0x0000 ∧ r.de = 0x0000 ∧ r.hl = 0x0000 ∧ r.sp = 0x0000 ∧ r.pc = 0x0000 := by decide

theorem resetRegs_postBoot : let r := resetRegs .postBoot
    r.af = 0x01B0 ∧ r.bc = 0x0013 ∧ r.de = 0x00D8 ∧ r.hl = 0x014D ∧ r.sp = 0xFFFE ∧ r.pc = 0x0100 := by decide

/-- What the display has at reset in either profile (R55, R405). -/
theorem resetPpu_both (pr : ResetProfile) : let q := resetPpu pr
    q.statSelect = 0 ∧ q.lycEqual = true ∧ q.modeTicks = 0 ∧ q.ly = 0 ∧ q.lyc = 0 ∧ q.scy = 0 ∧ q.scx = 0 ∧ q.wy = 0 ∧
      q.wx = 0 ∧ q.lineObjs = [] ∧ ∀ y x, q.framePixel y x = Config.initFrame y x := by
  cases pr <;> exact ⟨rfl, rfl, rfl, rfl, rfl, rfl, rfl, rfl, rfl, rfl, fun _ _ => rfl⟩

theorem resetPpu_ok (pr : ResetProfile) : (resetPpu pr).Ok := by
  have hobjs : (resetPpu pr).lineObjs = [] := by cases pr <;> rfl
  have hframe : (resetPpu pr).frame = [] := by cases pr <;> rfl
  constructor
  · cases pr
    case powerOn => exact show (0 : Byte).toNat ≤ 143 ∧ 0 < 204 by decide
    case postBoot => exact show (0 : Byte).toNat ≤ 143 ∧ 0 < 80 by decide
  · simp [Ppu.lineObjsOk, hobjs]
  · simp [Ppu.frameOk, hframe]

theorem resetPpu_disabledOk (pr : ResetProfile) : (resetPpu pr).disabledOk := by
  intro hoff
  cases pr
  case powerOn => exact ⟨rfl, rfl, rfl⟩
  case postBoot => exact absurd hoff (by decide)

theorem State.launch_inv (pr : ResetProfile) (p : Params) {mem : Memory} (boot : Memory) (cart : Cart) (tm se jo : Device)
    (ext : List (BitVec 5)) (hwf : Memory.wf mem = true) (hin : Memory.inStorage mem = true) :
    (State.launch pr p mem boot cart tm se jo ext).Inv where
  memWf := hwf
  memStorage := hin
  ppu := resetPpu_ok pr
  disabled := resetPpu_disabledOk pr
  lycEqual := by cases pr <;> rfl
  haltBug := nofun
  frameTick := show 0 < 70224 by decide

end Sys2Proof.Machine
end

section
/-! SUPPORT. Proofs of the state family (10_state.md), third part: no operation reads the frame (R351). A lemma `f_withFrame`
says that `f` does the same to everything else with other rows in the frame; only drawing a line makes new rows. -/

namespace Sys2Proof.Machine

/-! ## The bus and the registers -/

/-- The rows of a frame, by line (R48). -/
abbrev Rows := List (Nat × List (BitVec 2))

/-- The display with other rows in the frame. -/
def Ppu.withFrame (p : Ppu) (rows : Rows) : Ppu := { p with frame := rows }

/-- The bus with other rows in the frame: the bus of `State.withFrame`. -/
def Bus.withFrame (b : Bus) (rows : Rows) : Bus := { b with ppu := b.ppu.withFrame rows }

theorem Bus.dmaFold_withFrame (p : Params) (rows : Rows) (v : Byte) (ks : List Nat) (b : Bus) :
    ks.foldl (Bus.dmaStep p v) (b.withFrame rows) = (ks.foldl (Bus.dmaStep p v) b).withFrame rows := by
  induction ks generalizing b with
  | nil => rfl
  | cons k ks ih => exact ih (b.dmaStep p v k)

theorem Ppu.writeReg_withFrame (p : Ppu) (rows : Rows) (a : Nat) (v : Byte) :
    (p.withFrame rows).writeReg a v = (p.writeReg a v).withFrame rows := by
  unfold Ppu.writeReg
  iterate 11
    rw [apply_ite (Ppu.withFrame · rows)]
    refine ite_congr rfl (fun _ => rfl) fun _ => ?_
  rfl

theorem Bus.writeDisplay_withFrame (p : Params) (b : Bus) (rows : Rows) (a : Nat) (v : Byte) :
    (b.withFrame rows).writeDisplay p a v = (b.writeDisplay p a v).withFrame rows := by
  unfold Bus.writeDisplay Bus.withFrame
  dsimp only
  rw [Ppu.writeReg_withFrame]
  split
  · exact Bus.dmaFold_withFrame p rows v _ { b with ppu := b.ppu.writeReg a v }
  · rfl

theorem Bus.write_withFrame (p : Params) (b : Bus) (rows : Rows) (a : Word) (v : Byte) :
    (b.withFrame rows).write p a v = (b.write p a v).withFrame rows := by
  unfold Bus.write
  dsimp only
  split
  case h_10 => exact b.writeDisplay_withFrame p rows _ v
  case h_1 | h_3 | h_5 => rw [apply_ite (Bus.withFrame · rows)]; rfl
  all_goals rfl

@[simp] theorem State.withFrame_regs (s : State) (rows : Rows) : (s.withFrame rows).regs = s.regs := rfl

theorem State.write_withFrame (s : State) (rows : Rows) (a : Word) (v : Byte) :
    (s.withFrame rows).write a v = (s.write a v).withFrame rows := by
  unfold State.write
  exact congrArg (fun b => { s with bus := b }) (Bus.write_withFrame ..)

@[simp] theorem State.withFrame_bus (s : State) (rows : Rows) : (s.withFrame rows).bus = s.bus.withFrame rows := rfl

theorem State.writeHlF_withFrame (s : State) (rows : Rows) (res : ByteResult) :
    (s.withFrame rows).writeHlF res = (s.writeHlF res).withFrame rows :=
  congrArg (State.setFlags · res.2) (s.write_withFrame rows s.regs.hl res.1)

theorem State.write16_withFrame (s : State) (rows : Rows) (a v : Word) :
    (s.withFrame rows).write16 a v = (s.write16 a v).withFrame rows := by
  unfold State.write16
  rw [State.write_withFrame, State.write_withFrame]

theorem State.setSp_withFrame (s : State) (rows : Rows) (v : Word) :
    (s.withFrame rows).setSp v = (s.setSp v).withFrame rows := rfl

theorem State.push16_withFrame (s : State) (rows : Rows) (v : Word) :
    (s.withFrame rows).push16 v = (s.push16 v).withFrame rows := by
  unfold State.push16
  simp only [State.setSp_withFrame, State.write_withFrame, State.withFrame_regs]

/-! ## Instructions and the CPU's step -/

/-- An answer with other rows in its state's frame. -/
def withFrameResult (rows : Rows) : Result → Result
  | .next t => .next (t.withFrame rows)
  | .fault r => .fault r
  | .refused r => .refused r

theorem done_withFrame {i : Instr} {u u' : State} {rows : Rows} (h : u' = u.withFrame rows) :
    done i u' = withFrameResult rows (done i u) := by rw [h]; rfl

theorem doneTaken_withFrame {i : Instr} {u u' : State} {rows : Rows} (h : u' = u.withFrame rows) :
    doneTaken i u' = withFrameResult rows (doneTaken i u) := by rw [h]; rfl

theorem ite_withFrameResult {c : Prop} [Decidable c] {x x' y y' : Result} {rows : Rows} (hx : x' = withFrameResult rows x)
    (hy : y' = withFrameResult rows y) : (if c then x' else y') = withFrameResult rows (if c then x else y) := by
  rw [hx, hy, apply_ite (withFrameResult rows)]

theorem execExtendedEntry_withFrame (op : Byte) (s : State) (rows : Rows) :
    execExtendedEntry op (s.withFrame rows) = withFrameResult rows (execExtendedEntry op s) := by
  unfold execExtendedEntry
  dsimp only
  split
  case h_1 => split <;> rfl
  case h_2 => split <;> exact done_withFrame (State.writeHlF_withFrame ..)
  case h_6 | h_8 => exact done_withFrame (State.write_withFrame ..)
  all_goals rfl

/-- Every instruction does the same with other rows in the frame: what it computes and whether it branches is read from elsewhere,
and what it stores goes elsewhere. -/
theorem exec_withFrame (i : Instr) (s : State) (rows : Rows) :
    exec i (s.withFrame rows) = withFrameResult rows (exec i s) := by
  cases i
  case prefixCb => exact execExtendedEntry_withFrame _ s.imm8 rows
  case jpCcNn cc _ | jrCcE cc _ | retCc cc =>
    exact ite_withFrameResult (c := s.regs.flags.holds cc = true) rfl rfl
  case callCcNn cc nn =>
    refine ite_withFrameResult (c := s.regs.flags.holds cc = true) ?_ rfl
    exact doneTaken_withFrame (congrArg (State.setPc · nn) (s.imm16.push16_withFrame ..))
  case ldHlR | ldBcA | ldDeA | ldhCA | resBHl | setBHl => exact done_withFrame (s.write_withFrame ..)
  case ldHlN | ldhNA => exact done_withFrame (s.imm8.write_withFrame ..)
  case ldNnA => exact done_withFrame (s.imm16.write_withFrame ..)
  case ldHlIncA | ldHlDecA => exact done_withFrame (congrArg (State.set16 · .hl _) (s.write_withFrame ..))
  case incHl | decHl | rlcHl | rrcHl | rlHl | rrHl | slaHl | sraHl | swapHl | srlHl =>
    exact done_withFrame (s.writeHlF_withFrame ..)
  case ldNnSp => exact done_withFrame (s.imm16.write16_withFrame ..)
  case pushRr => exact done_withFrame (s.push16_withFrame ..)
  case callNn nn => exact done_withFrame (congrArg (State.setPc · nn) (s.imm16.push16_withFrame ..))
  case rstT => exact done_withFrame (congrArg (State.setPc · _) (s.push16_withFrame ..))
  all_goals rfl

theorem State.passOpcode_withFrame (s : State) (rows : Rows) :
    (s.withFrame rows).passOpcode = s.passOpcode.withFrame rows := by
  unfold State.passOpcode
  rw [apply_ite (State.withFrame · rows)]
  rfl

theorem State.passOpcodes_withFrame (s : State) (rows : Rows) (i : Instr) :
    (s.withFrame rows).passOpcodes i = (s.passOpcodes i).withFrame rows := by
  unfold State.passOpcodes
  rw [State.passOpcode_withFrame, apply_ite (State.withFrame · rows)]
  rfl

theorem State.fetched_withFrame (s : State) (rows : Rows) : (s.withFrame rows).fetched = s.fetched := by
  unfold State.fetched
  rw [State.passOpcode_withFrame]
  rfl

theorem State.commitIme_withFrame (s : State) (rows : Rows) :
    (s.withFrame rows).commitIme = s.commitIme.withFrame rows := by
  unfold State.commitIme
  rw [apply_ite (State.withFrame · rows)]
  rfl

theorem State.runFetched_withFrame (s : State) (rows : Rows) :
    (s.withFrame rows).runFetched = withFrameResult rows s.runFetched := by
  unfold State.runFetched
  rw [State.fetched_withFrame, State.passOpcodes_withFrame, State.passOpcode_withFrame, exec_withFrame]
  exact ite_withFrameResult rfl rfl

theorem State.dispatch_withFrame (s : State) (rows : Rows) (i : Nat) :
    (s.withFrame rows).dispatch i = (s.dispatch i).withFrame rows := by
  have key := State.push16_withFrame
    { s with
      ime := false, imePending := false, halted := false
      bus := { s.bus with ifReg := s.bus.ifReg &&& ~~~BitVec.twoPow 5 i } } rows s.regs.pc
  exact congrArg
    (fun u => { u.setPc (vectorOf u.params i) with ticksRemaining := u.params.intDispatchTicks - 1 }) key

theorem cpuStep_withFrame (s : State) (rows : Rows) :
    cpuStep (s.withFrame rows) = withFrameResult rows (cpuStep s) := by
  have hime : (s.withFrame rows).ime = s.ime := rfl
  have hpending : (s.withFrame rows).pending = s.pending := rfl
  unfold cpuStep
  refine ite_withFrameResult rfl ?_
  rw [hime, hpending]
  split
  · exact congrArg Host.Outcome.next (s.dispatch_withFrame rows _)
  · refine ite_withFrameResult rfl ?_
    rw [← State.runFetched_withFrame, ← State.commitIme_withFrame]
    rfl

/-! ## The display engine's step -/

theorem Bus.request_withFrame (b : Bus) (rows : Rows) (i : Nat) :
    (b.withFrame rows).request i = (b.request i).withFrame rows := rfl

theorem Bus.scannedObjs_withFrame (b : Bus) (rows : Rows) : (b.withFrame rows).scannedObjs = b.scannedObjs := rfl

theorem Bus.pixel_withFrame (b : Bus) (rows : Rows) : (b.withFrame rows).pixel = b.pixel := rfl

/-- Drawing a line writes it into whatever rows there are. -/
theorem Bus.renderLine_withFrame (b : Bus) (rows : Rows) :
    ∃ rows', (b.withFrame rows).renderLine = b.renderLine.withFrame rows' := by
  refine ⟨writeRow rows b.ppu.ly.toNat ((List.range 160).map b.pixel), ?_⟩
  rw [Bus.renderLine, Bus.pixel_withFrame]
  rfl

/-- Only the entry effect of mode 3 changes the rows. -/
theorem Bus.entryEffect_withFrame (b : Bus) (rows : Rows) (m : Mode) :
    ∃ rows', (b.withFrame rows).entryEffect m = (b.entryEffect m).withFrame rows' := by
  cases m
  case draw => exact b.renderLine_withFrame rows
  case oamScan =>
    refine ⟨rows, ?_⟩
    unfold Bus.entryEffect Bus.objectScan
    rw [Bus.scannedObjs_withFrame]
    generalize b.scannedObjs = objs
    rfl
  case hblank | vblank => exact ⟨rows, rfl⟩

theorem Bus.enterMode_withFrame (b : Bus) (rows : Rows) (m : Mode) :
    ∃ rows', (b.withFrame rows).enterMode m = (b.enterMode m).withFrame rows' := by
  obtain ⟨rows', heffect⟩ := Bus.entryEffect_withFrame { b with ppu := { b.ppu with mode := m, modeTicks := 0 } } rows m
  refine ⟨rows', ?_⟩
  have hraise (c : Bus) :
      (if (c.withFrame rows').ppu.selects m then (c.withFrame rows').request 1 else c.withFrame rows') =
        (if c.ppu.selects m then c.request 1 else c).withFrame rows' := by
    rw [apply_ite (Bus.withFrame · rows')]
    rfl
  unfold Bus.enterMode
  rw [← hraise, ← heffect]
  rfl

theorem Bus.setLy_withFrame (b : Bus) (rows : Rows) (v : Byte) :
    (b.withFrame rows).setLy v = (b.setLy v).withFrame rows := rfl

theorem Bus.transition_withFrame (b : Bus) (rows : Rows) :
    ∃ rows', (b.withFrame rows).transition = b.transition.withFrame rows' := by
  have hmode : (b.withFrame rows).ppu.mode = b.ppu.mode := rfl
  have hticks : (b.withFrame rows).ppu.modeTicks = b.ppu.modeTicks := rfl
  have hly : (b.withFrame rows).ppu.ly = b.ppu.ly := rfl
  unfold Bus.transition
  rw [hmode, hticks, hly, Bus.setLy_withFrame, Bus.setLy_withFrame]
  split
  case h_1 | h_2 =>
    split
    · exact b.enterMode_withFrame rows _
    · exact ⟨rows, rfl⟩
  case h_3 =>
    split
    · have hnext : ((b.setLy (b.ppu.ly + 1)).withFrame rows).ppu.ly = (b.setLy (b.ppu.ly + 1)).ppu.ly := rfl
      dsimp only
      rw [hnext]
      split <;> exact (b.setLy _).enterMode_withFrame rows _
    · exact ⟨rows, rfl⟩
  case h_4 =>
    split
    · split
      · exact (b.setLy 0).enterMode_withFrame rows _
      · exact ⟨rows, rfl⟩
    · exact ⟨rows, rfl⟩

theorem Bus.modeMachine_withFrame (b : Bus) (rows : Rows) :
    ∃ rows', (b.withFrame rows).modeMachine = b.modeMachine.withFrame rows' := by
  have henabled : (b.withFrame rows).ppu.enabled = b.ppu.enabled := rfl
  unfold Bus.modeMachine
  rw [henabled]
  split
  · exact Bus.transition_withFrame { b with ppu := { b.ppu with modeTicks := b.ppu.modeTicks + 1 } } rows
  · exact ⟨rows, rfl⟩

theorem Bus.compareLyc_withFrame (b : Bus) (rows : Rows) :
    (b.withFrame rows).compareLyc = b.compareLyc.withFrame rows := by
  have hly : (b.withFrame rows).ppu.ly = b.ppu.ly := rfl
  have hlyc : (b.withFrame rows).ppu.lyc = b.ppu.lyc := rfl
  have heq : (b.withFrame rows).ppu.lycEqual = b.ppu.lycEqual := rfl
  have hsel : (b.withFrame rows).ppu.statSelect = b.ppu.statSelect := rfl
  unfold Bus.compareLyc
  dsimp only
  rw [hly, hlyc, heq, hsel]
  split <;> rfl

theorem Bus.ppuStep_withFrame (b : Bus) (rows : Rows) :
    ∃ rows', (b.withFrame rows).ppuStep = b.ppuStep.withFrame rows' := by
  obtain ⟨rows', hrows⟩ := b.modeMachine_withFrame rows
  refine ⟨rows', ?_⟩
  rw [Bus.ppuStep, hrows, Bus.compareLyc_withFrame]
  rfl

theorem State.afterCpu_withFrame (s : State) (rows : Rows) :
    ∃ rows', (s.withFrame rows).afterCpu = s.afterCpu.withFrame rows' := by
  obtain ⟨rows', hrows⟩ := s.bus.ppuStep_withFrame rows
  refine ⟨rows', ?_⟩
  rw [State.afterCpu, State.withFrame_bus, hrows]
  rfl

end Sys2Proof.Machine
end

section
/-! SUPPORT. Proofs of the state family (10_state.md), last part: the statements. -/

namespace Sys2Proof.Machine

/-- Settles O56: the CPU's step does the same with other rows and keeps them; the phases after it may draw a line into
them. -/
theorem nothingReadsTheFrame : Obligations.NothingReadsTheFrame := by
  intro s t rows h
  obtain ⟨u, hu, rfl⟩ := step_cases h
  obtain ⟨rows', hrows⟩ := u.afterCpu_withFrame rows
  refine ⟨rows', ?_⟩
  have hcpu : cpuStep (s.withFrame rows) = .next (u.withFrame rows) := by rw [cpuStep_withFrame, hu]; rfl
  rw [step_of_cpuStep hcpu, hrows]

/-- Settles O59: the CPU's step keeps the memory's form, the display's hidden state and the halt bug's condition; the phases
after it keep these and establish the rest. -/
theorem everyStepKeepsTheInvariant : Obligations.EveryStepKeepsTheInvariant := by
  intro s t hs h
  obtain ⟨u, hu, rfl⟩ := step_cases h
  exact State.afterCpu_inv (cpuStep_wf hu hs.memWf) (cpuStep_inStorage hu hs.memStorage)
    ((cpuStep_kept hu).hidden.ok hs.ppu) (cpuStep_haltBugOk hu hs.haltBug)

/-- Settles O10: each pair's halves are the bytes pushed, and `F` is the flags above a zero nibble. -/
theorem pushStoresHighThenLow : Obligations.PushStoresHighThenLow := by
  intro s r
  have hbc := pushRr_leavesStores .bc s
  have hde := pushRr_leavesStores .de s
  have hhl := pushRr_leavesStores .hl s
  have haf := pushRr_leavesStores .af s
  simp only [Regs.getStack, Regs.bc, Regs.de, Regs.hl, Regs.af, hiByte_wordOf, loByte_wordOf] at hbc hde hhl haf
  exact ⟨hbc, hde, hhl, haf, s.regs.flags.toByte_low, s.regs.flags.getLsbD_toByte⟩

/-- Settles O35: a halt-bug fetch reads its operands where the opcode stands, and the decoder makes the same of these
bytes. -/
theorem haltBugReadsTheOpcodeTwice : Obligations.HaltBugReadsTheOpcodeTwice := by
  intro s i rest hf hbug hdecode hinv
  have hi : s.fetched = i := (State.fetched_of_haltBug hbug).trans (decodeFetched_of_decodeWith hdecode)
  obtain ⟨t, ht⟩ := exec_next i (s.atExecute (if i.isExtended then 1 else 0))
  refine ⟨t, ht, step_of_fetches hf (hi ▸ hinv) ?_⟩
  simpa [hi, hbug] using ht

/-- Settles O41: of what a CPU step can do only a fetch raises `IME`, by the enable it commits or by `RETI`. -/
theorem imeRisesOnlyByEiOrReti : Obligations.ImeRisesOnlyByEiOrReti := by
  intro s t h hs ht
  obtain ⟨u, hu, rfl⟩ := step_cases h
  rw [State.afterCpu_ime] at ht
  rcases cpuStep_cases hu with ⟨-, rfl⟩ | ⟨-, hime, -⟩ | ⟨-, -, -, rfl⟩ | ⟨hticks, hime, hhalted, hrun⟩
  · exact absurd (hs.symm.trans ht) (by decide)
  · exact absurd (hs.symm.trans hime) (by decide)
  · exact absurd (hs.symm.trans ht) (by decide)
  · refine ⟨State.fetches_iff.2 ⟨hticks, hime, hhalted⟩, Decidable.or_iff_not_imp_left.2 fun hpend => ?_⟩
    have hoff : (State.commitIme { s with halted := false }).ime = false := by simp [hs, hpend]
    rcases runFetched_cases hrun with ⟨-, rfl⟩ | ⟨hvalid, hexec⟩
    · simp [hs, hpend] at ht
    · rw [State.invalidAt_commitIme] at hvalid
      rw [← State.fetched_commitIme]
      exact ⟨reti_of_ime_rises hexec (by simpa using hoff) ht, hvalid⟩

/-- Settles O43: bus writes keep the images and the parameters, and the display engine's step reaches neither. -/
theorem stepsKeepParametersAndImages : Obligations.StepsKeepParametersAndImages := by
  intro s t h
  obtain ⟨u, hu, rfl⟩ := step_cases h
  have hrest := u.bus.ppuStep_rest
  obtain ⟨hparams, -⟩ := cpuStep_stores hu
  obtain ⟨-, hboot, hmapped, hrom⟩ := cpuStep_kept hu
  exact ⟨(State.afterCpu_params u).trans hparams, hrest.boot.trans hboot,
    fun m hm => hrest.cart.trans (hrom m hm), fun hm => hrest.bootMapped.trans (hmapped hm)⟩

/-- Settles O47: each address has its own branch of the map, the read and the write; what is left is which bits a write
takes. -/
theorem registersAtTheirAddresses : Obligations.RegistersAtTheirAddresses := by
  intro p b v
  have hlow : v.extractLsb' 0 5 = v.setWidth 5 := by revert v; decide
  have hselect : v.extractLsb' 3 4 = (v >>> 3).setWidth 4 := by revert v; decide
  rw [← hlow, ← hselect]
  exact ⟨⟨rfl, rfl⟩, ⟨rfl, rfl⟩, ⟨rfl, rfl⟩, ⟨rfl, rfl⟩, ⟨rfl, rfl⟩, ⟨rfl, rfl⟩, ⟨rfl, rfl⟩, ⟨rfl, rfl⟩, rfl, ⟨rfl, rfl⟩,
    ⟨rfl, rfl⟩, ⟨rfl, rfl⟩, ⟨rfl, rfl⟩, ⟨rfl, rfl⟩⟩

/-- Settles O57: the table's values of the registers and the display in each profile; the rest is the launch's arguments. -/
theorem resetValuesOfBothProfiles : Obligations.ResetValuesOfBothProfiles := by
  intro pr p mem boot cart tm se jo ext
  obtain ⟨hselect, heq, hticks, hly, hlyc, hscy, hscx, hwy, hwx, hobjs, hframe⟩ := resetPpu_both pr
  refine ⟨rfl, rfl, rfl, rfl, rfl, rfl, rfl, rfl, rfl, rfl, rfl, rfl, rfl, rfl, rfl, hselect, heq, hticks, hly, hlyc, hscy,
    hscx, hwy, hwx, hobjs, hframe, ?_, ?_⟩
  · rintro rfl
    obtain ⟨haf, hbc, hde, hhl, hsp, hpc⟩ := resetRegs_powerOn
    exact ⟨haf, hbc, hde, hhl, hsp, hpc, rfl, rfl, rfl, rfl, rfl, rfl, rfl, rfl⟩
  · rintro rfl
    obtain ⟨haf, hbc, hde, hhl, hsp, hpc⟩ := resetRegs_postBoot
    exact ⟨haf, hbc, hde, hhl, hsp, hpc, rfl, rfl, rfl, rfl, rfl, rfl, rfl, rfl⟩

/-- Settles O60: the reset state is a launch, and every launch on such a memory meets the invariant. -/
theorem launchMeetsTheInvariant : Obligations.LaunchMeetsTheInvariant :=
  ⟨State.launch_inv .powerOn defaultParams [] (.romOnly []) .null .null .null [] rfl rfl,
    fun pr p _ boot cart tm se jo ext hwf hin => State.launch_inv pr p boot cart tm se jo ext hwf hin⟩

end Sys2Proof.Machine
end

section
/-! SUPPORT. Proofs of the memory family (20_memory.md): one rule for the read and the write at each owner's addresses, the
gates and the DMA copy; then the statements. -/

namespace Sys2Proof.Machine

/-! ## One byte over the bus, by the owner of its address (R60 to R70) -/

theorem Bus.access_bootOverlay (p : Params) (b : Bus) {a : Word} (v : Byte) (h : ownerOf a.toNat = .overlay)
    (hmap : b.bootMapped = true) : b.read p a = bootByte b.boot a.toNat ∧ b.write p a v = b := by
  simp only [Bus.read, Bus.write, h, hmap, if_true, and_self]

theorem Bus.access_cart (p : Params) (b : Bus) {a : Word} (v : Byte)
    (h : (ownerOf a.toNat = .overlay ∧ b.bootMapped = false) ∨ ownerOf a.toNat = .cart) :
    b.read p a = b.cart.read a.toNat ∧ b.write p a v = { b with cart := b.cart.write a.toNat v } := by
  rcases h with ⟨hown, hmap⟩ | hown
  · simp only [Bus.read, Bus.write, hown, hmap, Bool.false_eq_true, if_false, and_self]
  · simp only [Bus.read, Bus.write, hown, and_self]

theorem Bus.access_joypad (p : Params) (b : Bus) {a : Word} (v : Byte) (h : ownerOf a.toNat = .joypad) :
    b.read p a = b.joypad.read .joypad a.toNat ∧
      b.write p a v = { b with joypad := b.joypad.write .joypad a.toNat v } := by
  simp only [Bus.read, Bus.write, h, and_self]

theorem Bus.access_serial (p : Params) (b : Bus) {a : Word} (v : Byte) (h : ownerOf a.toNat = .serial) :
    b.read p a = b.serial.read .serial a.toNat ∧
      b.write p a v = { b with serial := b.serial.write .serial a.toNat v } := by
  simp only [Bus.read, Bus.write, h, and_self]

theorem Bus.access_timer (p : Params) (b : Bus) {a : Word} (v : Byte) (h : ownerOf a.toNat = .timer) :
    b.read p a = b.timer.read .timer a.toNat ∧ b.write p a v = { b with timer := b.timer.write .timer a.toNat v } := by
  simp only [Bus.read, Bus.write, h, and_self]

theorem Bus.access_bootUnmap (p : Params) (b : Bus) {a : Word} (v : Byte) (h : ownerOf a.toNat = .bootUnmap) :
    b.read p a = 0xFF ∧ b.write p a v = { b with bootMapped := false } := by
  simp only [Bus.read, Bus.write, h, and_self]

theorem Bus.access_unmapped (p : Params) (b : Bus) {a : Word} (v : Byte) (h : ownerOf a.toNat = .unmapped) :
    b.read p a = p.unmappedRead ∧ b.write p a v = b := by
  simp only [Bus.read, Bus.write, h, and_self]

/-! ## Plain storage and its gates (R71, R72) -/

/-- The owners whose bytes are plain storage. -/
def Owner.isStorage (o : Owner) : Prop := o = .vram ∨ o = .wram ∨ o = .oam ∨ o = .hram

/-- The gate of `a`'s memory is closed to the bus. -/
def Bus.ShutAt (b : Bus) (a : Nat) : Prop :=
  (ownerOf a = .vram ∧ b.ppu.vramBlocked = true) ∨ (ownerOf a = .oam ∧ b.ppu.oamBlocked = true)

theorem Ppu.vramBlocked_iff (p : Ppu) : p.vramBlocked = true ↔ p.lcdc.getLsbD 7 = true ∧ p.mode = .draw := by
  simp [Ppu.vramBlocked, Ppu.enabled]

theorem Ppu.oamBlocked_iff (p : Ppu) :
    p.oamBlocked = true ↔ p.lcdc.getLsbD 7 = true ∧ (p.mode = .oamScan ∨ p.mode = .draw) := by
  simp [Ppu.oamBlocked, Ppu.enabled]

theorem Bus.shutAt_iff (b : Bus) (n : Nat) :
    b.ShutAt n ↔ b.ppu.lcdc.getLsbD 7 = true ∧
      ((0x8000 ≤ n ∧ n ≤ 0x9FFF ∧ b.ppu.mode = .draw) ∨
        (0xFE00 ≤ n ∧ n ≤ 0xFE9F ∧ (b.ppu.mode = .oamScan ∨ b.ppu.mode = .draw))) := by
  rw [Bus.ShutAt, ownerOf_vram_iff, ownerOf_oam_iff, Ppu.vramBlocked_iff, Ppu.oamBlocked_iff,
    Nat.lt_succ_iff (n := 0x9FFF), Nat.lt_succ_iff (n := 0xFE9F)]
  constructor
  · rintro (⟨⟨hlo, hhi⟩, hon, hmode⟩ | ⟨⟨hlo, hhi⟩, hon, hmode⟩)
    · exact ⟨hon, .inl ⟨hlo, hhi, hmode⟩⟩
    · exact ⟨hon, .inr ⟨hlo, hhi, hmode⟩⟩
  · rintro ⟨hon, ⟨hlo, hhi, hmode⟩ | ⟨hlo, hhi, hmode⟩⟩
    · exact .inl ⟨⟨hlo, hhi⟩, hon, hmode⟩
    · exact .inr ⟨⟨hlo, hhi⟩, hon, hmode⟩

theorem Bus.not_shutAt_of_wram_hram (b : Bus) {a : Nat} (h : ownerOf a = .wram ∨ ownerOf a = .hram) : ¬b.ShutAt a := by
  rcases h with h | h <;> simp [Bus.ShutAt, h]

theorem Bus.access_shut (p : Params) (b : Bus) {a : Word} (v : Byte) (h : b.ShutAt a.toNat) :
    b.read p a = 0xFF ∧ b.write p a v = b := by
  rcases h with ⟨hown, hgate⟩ | ⟨hown, hgate⟩ <;> simp only [Bus.read, Bus.write, hown, hgate, if_true, and_self]

section
variable {b : Bus} {a : Word} (hown : (ownerOf a.toNat).isStorage) (hopen : ¬b.ShutAt a.toNat)
include hown hopen

theorem Bus.read_write_of_open (p : Params) (v : Byte) :
    b.read p a = storedByte b.mem a.toNat ∧ b.write p a v = b.store a.toNat v := by
  rcases hown with hown | hown | hown | hown
  case inl =>
    have hgate : b.ppu.vramBlocked = false := by simpa [Bus.ShutAt, hown] using hopen
    simp only [Bus.read, Bus.write, hown, hgate, Bool.false_eq_true, if_false, and_self]
  case inr.inr.inl =>
    have hgate : b.ppu.oamBlocked = false := by simpa [Bus.ShutAt, hown] using hopen
    simp only [Bus.read, Bus.write, hown, hgate, Bool.false_eq_true, if_false, and_self]
  case inr.inl | inr.inr.inr => simp only [Bus.read, Bus.write, hown, and_self]

/-- An open byte of plain storage reads as it is stored and takes the byte written; no other byte changes. -/
theorem Bus.access_open (p : Params) (v : Byte) :
    b.read p a = storedByte b.mem a.toNat ∧ (b.write p a v).read p a = v ∧
      b.write p a v = { b with mem := (b.write p a v).mem } ∧
      ∀ m, m ≠ a.toNat → storedByte (b.write p a v).mem m = storedByte b.mem m := by
  have hopen' : ¬(b.store a.toNat v).ShutAt a.toNat := hopen
  obtain ⟨hread, hwrite⟩ := Bus.read_write_of_open hown hopen p v
  obtain ⟨hback, -⟩ := Bus.read_write_of_open hown hopen' p v
  rw [hwrite]
  exact ⟨hread, hback.trans (storedByte_writeCell_same b.mem a.toNat v), rfl,
    fun m hm => storedByte_writeCell_other b.mem v hm⟩

end

/-! ## The DMA copy (R73) -/

/-- The first `n` stores of the copy. -/
def Bus.dmaFirst (p : Params) (v : Byte) (b : Bus) (n : Nat) : Bus := (List.range n).foldl (Bus.dmaStep p v) b

theorem Bus.write_dma (p : Params) (b : Bus) (v : Byte) :
    b.write p 0xFF46 v = Bus.dmaFirst p v { b with ppu := { b.ppu with dma := v } } 160 := rfl

theorem Bus.dmaFirst_shape (p : Params) (v : Byte) (b : Bus) (n : Nat) : ∃ m, b.dmaFirst p v n = { b with mem := m } :=
  Bus.dmaFold_shape p v _ b

theorem Bus.dmaFirst_succ (p : Params) (v : Byte) (b : Bus) (n : Nat) :
    b.dmaFirst p v (n + 1) = (b.dmaFirst p v n).dmaStep p v n := by
  simp [Bus.dmaFirst, List.range_succ]

theorem Bus.dmaFirst_stored_other (p : Params) (v : Byte) (b : Bus) {n x : Nat} (h : x < 0xFE00 ∨ 0xFE00 + n ≤ x) :
    storedByte (b.dmaFirst p v n).mem x = storedByte b.mem x := by
  induction n with
  | zero => rfl
  | succ n ih =>
    rw [Bus.dmaFirst_succ]
    exact (storedByte_writeCell_other _ _ (by omega)).trans (ih (by omega))

/-- The copy never reads a byte it has stored: only the source page FE meets OAM, and there each byte is copied to its own
place. -/
theorem Bus.dmaFirst_read_source (p : Params) (v : Byte) (b : Bus) {n : Nat} (hn : n < 160) :
    (b.dmaFirst p v n).read p (BitVec.ofNat 16 (v.toNat * 0x100 + n)) =
      b.read p (BitVec.ofNat 16 (v.toNat * 0x100 + n)) := by
  have hv := v.isLt
  have hother : storedByte (b.dmaFirst p v n).mem (BitVec.ofNat 16 (v.toNat * 0x100 + n)).toNat =
      storedByte b.mem (BitVec.ofNat 16 (v.toNat * 0x100 + n)).toNat :=
    b.dmaFirst_stored_other p v (by rw [BitVec.toNat_ofNat]; omega)
  obtain ⟨m, hm⟩ := b.dmaFirst_shape p v n
  rw [hm] at hother ⊢
  exact Bus.AgreesAt.read { stored := hother } p

theorem Bus.dmaFirst_stored_copied (p : Params) (v : Byte) (b : Bus) {n k : Nat} (hn : n ≤ 160) (hk : k < n) :
    storedByte (b.dmaFirst p v n).mem (0xFE00 + k) = b.read p (BitVec.ofNat 16 (v.toNat * 0x100 + k)) := by
  induction n with
  | zero => omega
  | succ n ih =>
    rw [Bus.dmaFirst_succ]
    rcases Nat.lt_succ_iff_lt_or_eq.1 hk with hlt | rfl
    · exact (storedByte_writeCell_other _ _ (by omega)).trans (ih (by omega) hlt)
    · exact (storedByte_writeCell_same ..).trans (b.dmaFirst_read_source p v hn)

/-! ## The statements -/

/-- Settles O44: each range is an owner's, and the owner's rule says what its reads and writes do. -/
theorem mapRoutesReadsAndWrites : Obligations.MapRoutesReadsAndWrites := by
  intro p b a v n
  refine ⟨fun h hmap => ?overlay, fun h => ?cart, fun h => ?ram, fun h => ?joypad, fun h => ?serial, fun h => ?timer,
    fun h => ?bootUnmap, fun h => ?unmapped⟩
  case overlay => exact b.access_bootOverlay p v (ownerOf_overlay_iff.2 (by omega)) hmap
  case cart =>
    refine b.access_cart p v (h.imp (fun ⟨hn, hmap⟩ => ⟨ownerOf_overlay_iff.2 (by omega), hmap⟩) fun hn => ?_)
    exact ownerOf_cart_iff.2 (by omega)
  case ram =>
    have hown : ownerOf n = .wram ∨ ownerOf n = .hram := h.imp ownerOf_wram_iff.2 ownerOf_hram_iff.2
    have hstorage : (ownerOf n).isStorage :=
      hown.elim (fun hwram => .inr (.inl hwram)) fun hhram => .inr (.inr (.inr hhram))
    obtain ⟨hread, hback, hmem, -⟩ := Bus.access_open hstorage (b.not_shutAt_of_wram_hram hown) p v
    exact ⟨hread, hback, hmem⟩
  case joypad => exact b.access_joypad p v (ownerOf_joypad_iff.2 h)
  case serial => exact b.access_serial p v (ownerOf_serial_iff.2 h)
  case timer => exact b.access_timer p v (ownerOf_timer_iff.2 h)
  case bootUnmap => exact b.access_bootUnmap p v (ownerOf_bootUnmap_iff.2 h)
  case unmapped => exact b.access_unmapped p v (ownerOf_unmapped_of (by simp only [Owner.range]; omega))

/-- Settles O45: the statement's condition is the gate's, and a byte of storage behind no closed gate is open. -/
theorem videoMemoryIsGatedByMode : Obligations.VideoMemoryIsGatedByMode := by
  intro p b a v n shut hrange
  have hown : ownerOf n = .vram ∨ ownerOf n = .oam :=
    hrange.imp (fun hn => ownerOf_vram_iff.2 (by omega)) fun hn => ownerOf_oam_iff.2 (by omega)
  refine ⟨fun h => b.access_shut p v ((b.shutAt_iff n).2 h), fun h => Bus.access_open ?_ (fun hshut => ?_) p v⟩
  · exact hown.elim .inl fun hoam => .inr (.inr (.inl hoam))
  · obtain ⟨hon, hmode⟩ := (b.shutAt_iff n).1 hshut
    exact h.elim (fun hoff => absurd (hon.symm.trans hoff) (by decide)) fun hno => hno hmode

/-- Settles O46: the write is the register's, then the copy's 160 stores, each into OAM at its own place. -/
theorem dmaCopiesTheObjectTable : Obligations.DmaCopiesTheObjectTable := by
  intro p b v src c
  have hc : c = src.dmaFirst p v 160 := b.write_dma p v
  obtain ⟨m, hm⟩ := src.dmaFirst_shape p v 160
  refine ⟨?_, fun k hk => ?_, fun x hx => ?_⟩
  · rw [hc, hm]
  · rw [hc, src.dmaFirst_stored_copied p v (Nat.le_refl 160) hk]
  · rw [hc, src.dmaFirst_stored_other p v (by omega)]

/-- Settles O48: at an address `mayChange` does not list the two buses answer from equal contents. -/
theorem writeChangesOnlyItsReach : Obligations.WriteChangesOnlyItsReach :=
  fun p b _ _ v h => b.write_read_of_mayChange p v h

end Sys2Proof.Machine
end

section
/-! SUPPORT. Proofs of the encoding family (30_encoding.md): the decoder's tables against the encoder, entry by entry, what the
decoder can answer, and the instructions whose statements go with it (`PREFIX CB`, the conditional jumps); then the statements. -/

namespace Sys2Proof

open Sys2Proof.Machine

/-! ## The operand bytes of an instruction (R100, R107 to R109) -/

theorem Instr.length_operands (i : Instr) : i.operands.length = i.operandBytes := by cases i <;> rfl

theorem Instr.operandBytes_le_two (i : Instr) : i.operandBytes ≤ 2 := by cases i <;> simp [Instr.operandBytes]

theorem Instr.operandBytes_of_isExtended {i : Instr} (h : i.isExtended = true) : i.operandBytes = 0 := by
  cases i <;> simp_all [Instr.isExtended, Instr.operandBytes]

theorem Instr.operands_of_isExtended {i : Instr} (h : i.isExtended = true) : i.operands = [] :=
  List.eq_nil_of_length_eq_zero (i.length_operands.trans (Instr.operandBytes_of_isExtended h))

theorem Instr.wf_of_operandBytes {i : Instr} (h : i.operandBytes ≠ 0) : i.wf = true := by
  cases i
  case popRr => exact absurd rfl h
  all_goals rfl

theorem Instr.wf_of_isExtended {i : Instr} (h : i.isExtended = true) : i.wf = true := by
  cases i
  case popRr => cases h
  all_goals rfl

theorem length_encodeWith (pre : Byte) (i : Instr) :
    (encodeWith pre i).length = (if i.isExtended then 2 else 1) + i.operandBytes := by
  rw [encodeWith, List.length_append, i.length_operands]
  split <;> rfl

/-! ## The primary table, by opcode byte (R111, R112) -/

theorem operands_decodeX0 (y z p q : Nat) (b1 b2 : Byte) :
    (decodeX0 y z p q b1 (wordOf b2 b1)).operands = [b1, b2].take (decodeX0 y z p q 0 0).operandBytes := by
  unfold decodeX0
  split <;> split <;> simp [Instr.operands, Instr.operandBytes]

theorem operands_decodeAluImm (y : Nat) (n : Byte) : (decodeAluImm y n).operands = [n] := by
  unfold decodeAluImm
  split <;> rfl

theorem operands_decodeX3 (y z p q : Nat) (b1 b2 : Byte) :
    (decodeX3 y z p q b1 (wordOf b2 b1)).operands = [b1, b2].take (decodeX3 y z p q 0 0).operandBytes := by
  unfold decodeX3
  split
  case h_7 => rw [operands_decodeAluImm, decodeAluImm_operandBytes]; rfl
  case h_8 => rfl
  case h_1 | h_2 | h_3 | h_4 | h_5 | h_6 => split <;> simp [Instr.operands, Instr.operandBytes]

theorem operands_decodeX1 (y z : Nat) : (decodeX1 y z).operands = [] := by
  unfold decodeX1
  split <;> rfl

theorem operands_decodeAlu (y z : Nat) : (decodeAlu y z).operands = [] := by
  unfold decodeAlu
  split <;> rfl

/-- A primary entry's operand bytes are the bytes that follow its opcode byte, as many as the opcode byte says (R100). -/
@[simp] theorem operands_decodePrimary (op b1 b2 : Byte) :
    (decodePrimary op b1 b2).operands = [b1, b2].take (decodePrimary op 0 0).operandBytes := by
  unfold decodePrimary
  split
  · exact operands_decodeX0 ..
  · simp [← Instr.length_operands, operands_decodeX1]
  · simp [← Instr.length_operands, operands_decodeAlu]
  · exact operands_decodeX3 ..

theorem operandBytes_decodePrimary (op b1 b2 : Byte) :
    (decodePrimary op b1 b2).operandBytes = (decodePrimary op 0 0).operandBytes := by
  rw [← Instr.length_operands, operands_decodePrimary, List.length_take]
  exact Nat.min_eq_left (Instr.operandBytes_le_two _)

/-- A primary entry is a fixed instruction of its opcode byte or one with operand bytes. -/
theorem decodePrimary_fixed_or (op b1 b2 : Byte) :
    decodePrimary op b1 b2 = decodePrimary op 0 0 ∨ (decodePrimary op b1 b2).operandBytes ≠ 0 := by
  rw [operandBytes_decodePrimary]
  by_cases h : (decodePrimary op 0 0).operandBytes = 0
  · exact .inl (decodePrimary_congr (by omega) (by omega))
  · exact .inr h

@[simp] theorem isExtended_decodePrimary (op b1 b2 : Byte) : (decodePrimary op b1 b2).isExtended = false := by
  have key : ∀ op : Byte, (decodePrimary op 0 0).isExtended = false := by decide +kernel
  rcases decodePrimary_fixed_or op b1 b2 with h | h
  · rw [h, key]
  · exact Bool.eq_false_iff.2 fun hext => h (Instr.operandBytes_of_isExtended hext)

@[simp] theorem wf_decodePrimary (op b1 b2 : Byte) : (decodePrimary op b1 b2).wf = true := by
  have key : ∀ op : Byte, (decodePrimary op 0 0).wf = true := by decide +kernel
  rcases decodePrimary_fixed_or op b1 b2 with h | h
  · rw [h, key]
  · exact Instr.wf_of_operandBytes h

/-! ## The tables read by an instruction's own bytes (R104 to R113) -/

/-- The primary table has every well-formed primary instruction at its own opcode byte, its operands in the bytes after it. -/
theorem decodePrimary_opcode {i : Instr} (hwf : i.wf = true) (hext : i.isExtended = false) :
    decodePrimary i.opcode (i.operands.getD 0 0) (i.operands.getD 1 0) = i := by
  cases i <;> dsimp only [Instr.opcode, Instr.operands]
  case ldRR rd rs => cases rd <;> cases rs <;> rfl
  case incR r | decR r | ldRN r _ | ldRHl r | ldHlR r | addAR r | adcAR r | subR r | sbcAR r | andR r | xorR r | orR r
      | cpR r => cases r <;> rfl
  case popRr p =>
    cases p
    case af => cases hwf
    all_goals rfl
  case incRr p | decRr p | addHlRr p | pushRr p => cases p <;> rfl
  case ldRrNn p nn => cases p <;> exact congrArg _ (wordOf_hi_lo nn)
  case jpCcNn cc nn | callCcNn cc nn => cases cc <;> exact congrArg _ (wordOf_hi_lo nn)
  case ldNnSp nn | jpNn nn | callNn nn | ldNnA nn | ldANn nn => exact congrArg _ (wordOf_hi_lo nn)
  case jrCcE cc _ | retCc cc => cases cc <;> rfl
  case rstT t => revert t; decide
  case rlcR | rlcHl | rrcR | rrcHl | rlR | rlHl | rrR | rrHl | slaR | slaHl | sraR | sraHl | swapR | swapHl | srlR | srlHl
      | bitBR | bitBHl | resBR | resBHl | setBR | setBHl => cases hext
  all_goals rfl

/-- The extended table has every extended instruction at its own second opcode byte. -/
theorem decodeExtended_opcode {i : Instr} (h : i.isExtended = true) : decodeExtended i.opcode = i := by
  cases i
  case rlcR r | rrcR r | rlR r | rrR r | slaR r | sraR r | swapR r | srlR r => cases r <;> rfl
  case rlcHl | rrcHl | rlHl | rrHl | slaHl | sraHl | swapHl | srlHl => rfl
  case bitBR b r | resBR b r | setBR b r => revert b; cases r <;> decide
  case bitBHl b | resBHl b | setBHl b => revert b; decide
  all_goals cases h

/-- The extended table is read by the second opcode byte: its entry has that byte back. -/
@[simp] theorem opcode_decodeExtended : ∀ op2 : Byte, (decodeExtended op2).opcode = op2 := by decide +kernel

/-! ## What the decoder can answer (R100, R101, R103) -/

/-- The ways a list of bytes decodes where `pre` is `PREFIX_CODE`, one per branch of R101 and R103: `pre` alone, `pre` and a second
opcode byte, another opcode byte and as many of the bytes `b1`, `b2` as its entry reads. -/
inductive DecodesTo (pre : Byte) : List Byte → Instr → List Byte → Prop
  | prefixAlone (h : pre = defaultPrefixCode) : DecodesTo pre [pre] .prefixCb []
  | extended (op2 : Byte) (rest : List Byte) : DecodesTo pre (pre :: op2 :: rest) (decodeExtended op2) rest
  | primary {op : Byte} (h : op ≠ pre) (b1 b2 : Byte) (rest : List Byte) :
    DecodesTo pre (op :: ([b1, b2].take (decodePrimary op 0 0).operandBytes ++ rest)) (decodePrimary op b1 b2) rest

theorem decodeWith_of_decodesTo {pre : Byte} {bs rest : List Byte} {i : Instr} (h : DecodesTo pre bs i rest) :
    decodeWith pre bs = .ok (i, rest) := by
  cases h with
  | prefixAlone h => simp [decodeWith, h]
  | extended op2 => simp [decodeWith]
  | @primary op h b1 b2 =>
    have hcongr {b1' b2'} := decodePrimary_congr (op := op) (b1 := b1) (b2 := b2) (b1' := b1') (b2' := b2')
    have hle := Instr.operandBytes_le_two (decodePrimary op 0 0)
    unfold decodeWith
    dsimp only
    rw [if_neg h]
    generalize (decodePrimary op 0 0).operandBytes = k at hcongr hle
    match k with
    | 0 => rw [hcongr (by omega) (by omega)]; rfl
    | 1 => rw [hcongr (fun _ => rfl) (by omega)]; rfl
    | 2 => rfl

theorem decodesTo_of_decodeWith {pre : Byte} {bs rest : List Byte} {i : Instr} (h : decodeWith pre bs = .ok (i, rest)) :
    DecodesTo pre bs i rest := by
  unfold decodeWith at h
  split at h
  case h_1 => cases h
  case h_2 op rest0 =>
    split at h
    case isTrue hop =>
      subst hop
      split at h
      case h_1 =>
        split at h
        case isTrue hdef => cases h; exact .prefixAlone hdef
        case isFalse => cases h
      case h_2 => cases h; exact .extended ..
    case isFalse hop =>
      have hdec := DecodesTo.primary hop
      split at h
      case h_1 hk => cases h; rw [hk] at hdec; exact hdec 0 0 rest
      case h_2 n _ hk => cases h; rw [hk] at hdec; exact hdec n 0 rest
      case h_3 lo hi _ hk => cases h; rw [hk] at hdec; exact hdec lo hi rest
      case h_4 => cases h

/-- A well-formed instruction's bytes decode to it, unless its opcode byte is taken for `PREFIX_CODE` (R101). -/
theorem decodesTo_encodeWith {pre : Byte} {i : Instr} (rest : List Byte) (hwf : i.wf = true)
    (h : i.isExtended = true ∨ i.opcode ≠ pre) : DecodesTo pre (encodeWith pre i ++ rest) i rest := by
  cases hext : i.isExtended
  case true =>
    have hdec := DecodesTo.extended (pre := pre) i.opcode rest
    rw [decodeExtended_opcode hext] at hdec
    rw [encodeWith, if_pos hext, Instr.operands_of_isExtended hext]
    exact hdec
  case false =>
    have hop : i.opcode ≠ pre := h.resolve_left (by simp [hext])
    have hdec := DecodesTo.primary hop (i.operands.getD 0 0) (i.operands.getD 1 0) rest
    rw [← operands_decodePrimary, decodePrimary_opcode hwf hext] at hdec
    rw [encodeWith, if_neg (by simp [hext])]
    exact hdec

/-- Bytes that decode are the encoding of a well-formed instruction, then the bytes left over (R116). -/
theorem encodeWith_of_decodesTo {pre : Byte} {bs rest : List Byte} {i : Instr} (h : DecodesTo pre bs i rest) :
    encodeWith pre i ++ rest = bs ∧ i.wf = true := by
  cases h with
  | prefixAlone h => rw [h]; exact ⟨rfl, rfl⟩
  | extended op2 =>
    have hext := isExtended_decodeExtended op2
    rw [encodeWith, if_pos hext, opcode_decodeExtended, Instr.operands_of_isExtended hext]
    exact ⟨rfl, Instr.wf_of_isExtended hext⟩
  | primary h b1 b2 =>
    rw [encodeWith, isExtended_decodePrimary, opcode_decodePrimary, operands_decodePrimary]
    exact ⟨rfl, wf_decodePrimary ..⟩

/-- Only `PREFIX CB` has the code that is the default of `PREFIX_CODE`. -/
theorem eq_prefixCb_of_opcode {i : Instr} (hwf : i.wf = true) (hext : i.isExtended = false)
    (h : i.opcode = defaultPrefixCode) : i = .prefixCb := by
  rw [← decodePrimary_opcode hwf hext, h]
  rfl

/-! ## Lengths (R103) -/

theorem length_encode_decodeFetched (op b1 b2 : Byte) :
    (encode (decodeFetched defaultPrefixCode op b1 b2)).length = lengthTable.getD op.toNat 0 := by
  have key : ∀ op : Byte, op ≠ defaultPrefixCode →
      1 + (decodePrimary op 0 0).operandBytes = lengthTable.getD op.toNat 0 := by decide +kernel
  rw [encode, length_encodeWith]
  unfold decodeFetched
  split
  case isTrue h =>
    have hext := isExtended_decodeExtended b1
    rw [if_pos hext, Instr.operandBytes_of_isExtended hext, h]
    rfl
  case isFalse h =>
    rw [isExtended_decodePrimary, operandBytes_decodePrimary]
    exact key op h

end Sys2Proof

namespace Sys2Proof.Machine

/-! ## `PREFIX CB` (R101, R265) -/

theorem exec_decodeExtended (op2 : Byte) (s : State) : exec (decodeExtended op2) s = execExtendedEntry op2 s := by
  unfold decodeExtended execExtendedEntry decodeShift
  dsimp only
  generalize fieldX op2 = x, fieldY op2 = y, reg8Of (fieldZ op2) = operand
  match x, operand with
  | 0, some _ | 0, none =>
    match y with
    | 0 | 1 | 2 | 3 | 4 | 5 | 6 | _ + 7 => rfl
  | 1, some _ | 1, none | 2, some _ | 2, none | _ + 3, some _ | _ + 3, none => rfl

/-! ## Relative targets (R109, R243) -/

theorem toNat_sext16 (e : Byte) : (sext16 e).toNat = if e.toNat < 128 then e.toNat else e.toNat + 0xFF00 := by
  have he := e.isLt
  unfold sext16
  split <;> bv_omega

/-- A signed offset is added modulo `2 ^ 16`. -/
theorem toNat_add_sext16 (w : Word) (e : Byte) :
    ((w + sext16 e).toNat : Int) = ((w.toNat : Int) + e.toInt) % 65536 := by
  rw [BitVec.toNat_add, toNat_sext16, BitVec.toInt_eq_toNat_cond]
  split <;> split <;> omega

/-- The base of a relative jump is `PC` after its operand byte. -/
theorem toNat_relativeTarget (pc : Word) (e : Byte) :
    ((pc + 1 + sext16 e).toNat : Int) = ((pc.toNat : Int) + 1 + e.toInt) % 65536 := by
  rw [toNat_add_sext16, BitVec.toNat_add]
  simp

/-! ## Conditional jumps (R241, R244) -/

theorem leavesRegs_of_exec {i : Instr} {s : State} {r : Regs} (h : exec i s = .next (s.withRegs r (chargeOf s i))) :
    LeavesRegs i s r :=
  ⟨h, State.withRegs_read s r _⟩

theorem leavesRegsTaken_of_exec {i : Instr} {s : State} {r : Regs}
    (h : exec i s = .next (s.withRegs r (chargeTaken s i))) : LeavesRegsTaken i s r :=
  ⟨h, State.withRegs_read s r _⟩

theorem jpCcNn_taken {s : State} {cc : Cond} (h : s.regs.flags.holds cc = true) (nn : Word) :
    LeavesRegsTaken (.jpCcNn cc nn) s { s.regs with pc := nn } :=
  leavesRegsTaken_of_exec (if_pos h)

theorem jpCcNn_notTaken {s : State} {cc : Cond} (h : s.regs.flags.holds cc = false) (nn : Word) :
    LeavesRegs (.jpCcNn cc nn) s { s.regs with pc := s.regs.pc + 2 } := by
  have hpc : s.regs.pc + 1 + 1 = s.regs.pc + 2 := BitVec.add_assoc ..
  apply leavesRegs_of_exec
  rw [← hpc]
  exact if_neg (by simp [h])

theorem jrCcE_taken {s : State} {cc : Cond} (h : s.regs.flags.holds cc = true) (e : Byte) :
    LeavesRegsTaken (.jrCcE cc e) s { s.regs with pc := s.regs.pc + 1 + sext16 e } :=
  leavesRegsTaken_of_exec (if_pos h)

theorem jrCcE_notTaken {s : State} {cc : Cond} (h : s.regs.flags.holds cc = false) (e : Byte) :
    LeavesRegs (.jrCcE cc e) s { s.regs with pc := s.regs.pc + 1 } :=
  leavesRegs_of_exec (if_neg (by simp [h]))

/-! ## The statements -/

/-- Settles O1: an instruction's own bytes are one of the decoder's cases; only `PREFIX CB` needs a look of its own. -/
theorem decodeOfEncodeIsTheInstruction : Obligations.DecodeOfEncodeIsTheInstruction := by
  intro i hwf
  have hany (pre : Byte) (rest : List Byte) (h : i.isExtended = true ∨ i.opcode ≠ pre) :
      decodeWith pre (encodeWith pre i ++ rest) = .ok (i, rest) :=
    decodeWith_of_decodesTo (decodesTo_encodeWith rest hwf h)
  have hdefault (hne : i ≠ .prefixCb) (rest : List Byte) : decode (encode i ++ rest) = .ok (i, rest) := by
    apply hany
    cases hext : i.isExtended
    case true => exact .inl rfl
    case false => exact .inr fun hop => hne (eq_prefixCb_of_opcode hwf hext hop)
  refine ⟨?_, hdefault, hany⟩
  by_cases hne : i = .prefixCb
  · rw [hne]; rfl
  · simpa using hdefault hne []

/-- Settles O2: each of the decoder's cases leaves the bytes it took in the instruction. -/
theorem encodeOfDecodeIsTheBytes : Obligations.EncodeOfDecodeIsTheBytes :=
  ⟨fun _ _ _ _ h => encodeWith_of_decodesTo (decodesTo_of_decodeWith h), fun _ _ => ⟨rfl, rfl⟩⟩

/-- Settles O3: an entry has as many operand bytes as its opcode byte says, which are the table's lengths. -/
theorem firstByteDecidesLength : Obligations.FirstByteDecidesLength :=
  length_encode_decodeFetched

/-- Settles O26: the four forms, each with its own cost. -/
theorem conditionalJumps : Obligations.ConditionalJumps :=
  ⟨fun _ => ⟨rfl, rfl, rfl, rfl⟩, fun _ _ =>
    ⟨fun h => ⟨jpCcNn_taken h, fun e => ⟨_, toNat_relativeTarget _ e, jrCcE_taken h e⟩⟩,
      fun h => ⟨jpCcNn_notTaken h, jrCcE_notTaken h⟩⟩⟩

/-- Settles O32: the extended table and the handler it selects agree entry by entry. -/
theorem prefixRunsTheExtendedEntry : Obligations.PrefixRunsTheExtendedEntry :=
  fun s => ⟨(exec_decodeExtended (s.read s.regs.pc) s.imm8).symm, isExtended_decodeExtended _, exec_next ..⟩

end Sys2Proof.Machine
end

section
/-! SUPPORT. Proofs of the 8-bit load family (40_load8.md): what a write of a register or a pair leaves of the register file, the
addresses of the `LDH` forms, and the statements. -/

namespace Sys2Proof.Machine

/-! ## A register file after a write (R20 to R24) -/

/-- `PC` may have moved on first, past the operand bytes. -/
theorem Regs.set8_writesReg (r : Regs) (rd : Reg8) (v : Byte) (pc : Word) :
    WritesReg rd v r.flags pc r ({ r with pc := pc }.set8 rd v) where
  value := Regs.get8_set8_same ..
  others q hq := (Regs.get8_set8_other _ v hq).trans (by cases q <;> rfl)
  flags := Regs.set8_flags ..
  sp := Regs.set8_sp ..
  pc := Regs.set8_pc ..

theorem Regs.set16_writesPair (r : Regs) (p : Reg16) (v : Word) (pc : Word) :
    WritesPair p v r.flags pc r ({ r with pc := pc }.set16 p v) where
  value := Regs.get16_set16_same ..
  others q hq := (Regs.get16_set16_other _ v hq).trans (by cases q <;> rfl)
  acc := Regs.set16_a ..
  flags := Regs.set16_flags ..
  pc := Regs.set16_pc ..

/-- An instruction whose whole effect is to pass its operand bytes and write one register. -/
theorem leavesReg_of_exec {i : Instr} {s : State} {rd : Reg8} {v : Byte} {pc : Word}
    (h : exec i s = .next (s.withRegs ({ s.regs with pc := pc }.set8 rd v) (chargeOf s i))) :
    LeavesReg i s rd v s.regs.flags pc :=
  ⟨_, s.regs.set8_writesReg rd v pc, leavesRegs_of_exec h⟩

/-! ## Operand addresses (R108, R141 to R144) -/

/-- `PC` past the two operand bytes of a 16-bit operand. -/
theorem State.imm16_pc (s : State) : s.imm16.regs.pc = s.regs.pc + 2 := BitVec.add_assoc ..

theorem highPage_eq_add (n : Byte) : highPage n = 0xFF00 + n.setWidth 16 := by
  revert n
  decide

/-! ## The statements -/

/-- Settles O7: each makes one store; the `LDH` forms' address is in the high page. -/
theorem storesOfAByte : Obligations.StoresOfAByte := by
  intro s
  simp only [← highPage_eq_add, ← State.imm16_pc]
  exact ⟨fun _ => leavesStores_of_exec rfl, fun _ => leavesStores_of_exec rfl, leavesStores_of_exec rfl,
    leavesStores_of_exec rfl, fun _ => leavesStores_of_exec rfl, fun _ => leavesStores_of_exec rfl,
    leavesStores_of_exec rfl⟩

/-- Settles O8: the byte moves at the old `HL`, then the pair is written as a whole. -/
theorem loadsAndStoresThatStepHl : Obligations.LoadsAndStoresThatStepHl := fun s =>
  have hstep (r : Regs) (v : Word) : WritesPair .hl v r.flags r.pc r (r.set16 .hl v) := r.set16_writesPair .hl v r.pc
  ⟨⟨_, hstep s.regs _, leavesStores_of_exec rfl⟩, ⟨_, hstep s.regs _, leavesStores_of_exec rfl⟩,
    ⟨_, hstep { s.regs with a := s.read s.regs.hl } _, leavesRegs_of_exec rfl⟩,
    ⟨_, hstep { s.regs with a := s.read s.regs.hl } _, leavesRegs_of_exec rfl⟩⟩

/-- Settles O4: the decoder's tables evaluated on each word. -/
theorem writtenOutWordsDecode : Obligations.WrittenOutWordsDecode :=
  ⟨rfl, rfl, rfl, rfl, rfl, rfl, rfl⟩

/-- Settles O6: each passes its operand bytes and writes one register. -/
theorem loadsIntoARegister : Obligations.LoadsIntoARegister := by
  intro s
  simp only [← highPage_eq_add, ← State.imm16_pc]
  exact ⟨fun _ _ => leavesReg_of_exec rfl, fun _ _ => leavesReg_of_exec rfl, fun _ => leavesReg_of_exec rfl,
    leavesReg_of_exec rfl, leavesReg_of_exec rfl, fun _ => leavesReg_of_exec rfl, fun _ => leavesReg_of_exec rfl,
    leavesReg_of_exec rfl⟩

end Sys2Proof.Machine
end

section
/-! SUPPORT. Proofs of the 16-bit load family (41_load16_stack.md): a byte of RAM read back after a store, `POP` for every
pair, the word popped after a push, and the statements. -/

namespace Sys2Proof.Machine

/-! ## Work and high RAM (R63, R68) -/

theorem inRam_iff {a : Word} : inRam a ↔ ownerOf a.toNat = .wram ∨ ownerOf a.toNat = .hram :=
  or_congr ownerOf_wram_iff.symm ownerOf_hram_iff.symm

theorem Bus.write_read_of_inRam (p : Params) (b : Bus) {a : Word} (v : Byte) (h : inRam a) :
    (b.write p a v).read p a = v := by
  have hown := inRam_iff.1 h
  have hstorage : (ownerOf a.toNat).isStorage :=
    hown.elim (fun hwram => .inr (.inl hwram)) fun hhram => .inr (.inr (.inr hhram))
  obtain ⟨-, hback, -⟩ := Bus.access_open hstorage (b.not_shutAt_of_wram_hram hown) p v
  exact hback

/-- A store into RAM reaches its own address only. -/
theorem mayChange_of_inRam {a x : Word} (h : inRam a) (hx : x ≠ a) : mayChange a x = false := by
  rcases inRam_iff.1 h with hown | hown <;> simp [mayChange, hown, hx]

/-! ## The stack (R164 to R166) -/

/-- One rule for the pop of every pair, `POP AF` being an instruction of its own. -/
theorem popOf_leavesRegs (p : StackPair) (s : State) :
    LeavesRegs (popOf p) s (s.popped.regs.setStack p s.popValue) :=
  leavesRegs_of_exec (by cases p <;> rfl)

theorem State.push16_popped_regs (s : State) (v : Word) : (s.push16 v).popped.regs = s.regs := by
  rw [State.popped_regs, State.push16_regs, BitVec.sub_add_cancel, BitVec.sub_add_cancel]

/-- Both bytes of the word lie in RAM, so they are read back as they were pushed. -/
theorem State.push16_popValue (s : State) (v : Word) (hhi : inRam (s.regs.sp - 1)) (hlo : inRam (s.regs.sp - 2)) :
    (s.push16 v).popValue = v := by
  have hsp : s.regs.sp - 1 - 1 = s.regs.sp - 2 := BitVec.sub_sub ..
  rw [← hsp] at hlo
  have hne : s.regs.sp - 1 ≠ s.regs.sp - 1 - 1 := by bv_omega
  have hhigh : (s.push16 v).read (s.regs.sp - 1) = hiByte v :=
    (Bus.write_read_of_mayChange s.params _ _ (mayChange_of_inRam hlo hne)).trans
      (s.bus.write_read_of_inRam s.params _ hhi)
  have hlow : (s.push16 v).read (s.regs.sp - 1 - 1) = loByte v := Bus.write_read_of_inRam s.params _ _ hlo
  rw [State.popValue, State.push16_regs, BitVec.sub_add_cancel, hhigh, hlow, wordOf_hi_lo]

/-- For `AF` the flags survive the byte `F`, whose low nibble is zero. -/
theorem Regs.setStack_getStack (r : Regs) (p : StackPair) : r.setStack p (r.getStack p) = r := by
  cases p <;> simp [Regs.setStack, Regs.getStack, Regs.set16, Regs.bc, Regs.de, Regs.hl, Regs.af, Regs.f]

/-! ## Writes of a pair (R160, R162, R163) -/

/-- An instruction whose whole effect is to pass its operand bytes, write one pair and leave the flags `f`. -/
theorem leavesPair_of_exec {i : Instr} {s : State} {p : Reg16} {v : Word} {f : Flags} {pc : Word}
    (h : exec i s = .next (s.withRegs ({ s.regs with flags := f, pc := pc }.set16 p v) (chargeOf s i))) :
    LeavesPair i s p v f pc := by
  obtain ⟨hvalue, hothers, hacc, hflags, hpc⟩ := Regs.set16_writesPair { s.regs with flags := f } p v pc
  refine ⟨_, ⟨hvalue, fun q hq => (hothers q hq).trans ?_, hacc, hflags, hpc⟩, leavesRegs_of_exec h⟩
  cases q <;> rfl

/-! ## The statements -/

/-- Settles O12: the pop finds the pair's value where the push left it, and `SP` comes back. -/
theorem pushThenPopRestoresTheRegisters : Obligations.PushThenPopRestoresTheRegisters := by
  intro s p hhi hlo
  let t := s.push16 (s.regs.getStack p)
  obtain ⟨hpop, -⟩ := popOf_leavesRegs p (t.charge (baseTicks s.params (.pushRr p)))
  refine ⟨_, _, rfl, hpop, ?_⟩
  calc t.popped.regs.setStack p t.popValue
      = s.regs.setStack p (s.regs.getStack p) := by rw [s.push16_popped_regs, s.push16_popValue _ hhi hlo]
    _ = s.regs := s.regs.setStack_getStack p

/-- Settles O9: a pair is written as a whole; the two stored bytes are `SP`'s low and high half, by
definition. -/
theorem loadsOf16Bits : Obligations.LoadsOf16Bits := by
  intro s
  simp only [← State.imm16_pc]
  exact ⟨fun _ _ => leavesPair_of_exec rfl, leavesPair_of_exec rfl, fun _ => leavesStores_of_exec rfl⟩

/-- Settles O21: the sum and its flags are one for both; only the pair written differs. -/
theorem signedOffsetsFromSp : Obligations.SignedOffsetsFromSp :=
  fun s e => ⟨_, _, toNat_add_sext16 s.regs.sp e, rfl, leavesPair_of_exec rfl, leavesPair_of_exec rfl⟩

/-- Settles O11: each pair's halves are the bytes of the popped word. -/
theorem popReadsLowThenHigh : Obligations.PopReadsLowThenHigh := by
  intro s hi lo
  have hsp : s.regs.sp + 1 + 1 = s.regs.sp + 2 := BitVec.add_assoc ..
  have hbc := popOf_leavesRegs .bc s
  have hde := popOf_leavesRegs .de s
  have hhl := popOf_leavesRegs .hl s
  have haf := popOf_leavesRegs .af s
  simp only [State.popped_regs, hsp, State.popValue, Regs.setStack, Regs.set16, Flags.ofByte, hiByte_wordOf,
    loByte_wordOf] at hbc hde hhl haf
  exact ⟨hbc, hde, hhl, haf⟩

end Sys2Proof.Machine
end

section
/-! SUPPORT. Proofs of the 8-bit arithmetic family (42_alu8.md): the laws of R185 for sum and difference, the bitwise operations,
`INC` and `DEC`, what `DAA` corrects, its effect on packed decimal digits, and the statements. -/

namespace Sys2Proof.Machine

/-! ## A register and the flags written together (R22, R25) -/

/-- An instruction whose whole effect is to pass its operand bytes, write one register and leave the flags `f`. -/
theorem leavesReg_of_exec_withFlags {i : Instr} {s : State} {rd : Reg8} {v : Byte} {f : Flags} {pc : Word}
    (h : exec i s = .next (s.withRegs { { s.regs with pc := pc }.set8 rd v with flags := f } (chargeOf s i))) :
    LeavesReg i s rd v f pc := by
  obtain ⟨hvalue, hothers, -, hsp, hpc⟩ := s.regs.set8_writesReg rd v pc
  refine ⟨_, ?_, leavesRegs_of_exec h⟩
  exact ⟨hvalue, hothers, rfl, hsp, hpc⟩

/-! ## Sum and difference (R171 to R174, R178, R185) -/

/-- The half-carry law of R185: bit 4 of the sum is the operands' bits and the carry out of the low nibbles. -/
theorem xor_bit4_of_sum {x y r : Byte} {c : Bool} (h : r.toNat = (x.toNat + y.toNat + c.toNat) % 256) :
    (x ^^^ y ^^^ r).getLsbD 4 = decide (loNibble x + loNibble y + c.toNat > 0xF) := by
  have hr : r = x + y + (BitVec.ofBool c).setWidth 8 := by
    apply BitVec.eq_of_toNat_eq
    cases c <;> simp [h]
  have hbit := BitVec.getLsbD_add_add_bool (i := 4) (by decide) x y c
  rw [← hr] at hbit
  rw [BitVec.getLsbD_xor, BitVec.getLsbD_xor, hbit, ← Bool.xor_assoc (x.getLsbD 4), ← Bool.xor_assoc, Bool.xor_self,
    Bool.false_xor]
  rfl

theorem toNat_decide (p : Prop) [Decidable p] : (decide p).toNat = if p then 1 else 0 := Bool.cond_decide ..

theorem add8_sum (a x : Byte) (c : Bool) :
    (add8 a x c).1.toNat + 256 * (add8 a x c).2.c.toNat = a.toNat + x.toNat + c.toNat := by
  have hc := c.toNat_le
  simp only [add8, BitVec.toNat_ofNat, toNat_decide]
  split <;> omega

theorem add8_z (a x : Byte) (c : Bool) : (add8 a x c).2.z = ((add8 a x c).1 == 0) := by
  rw [Bool.eq_iff_iff, beq_iff_eq, ← BitVec.toNat_inj]
  simp only [add8, beq_iff_eq]
  rfl

theorem add8_h (a x : Byte) (c : Bool) : (add8 a x c).2.h = (a ^^^ x ^^^ (add8 a x c).1).getLsbD 4 :=
  (xor_bit4_of_sum (BitVec.toNat_ofNat ..)).symm

theorem sub8_difference (a x : Byte) (c : Bool) :
    (sub8 a x c).1.toNat + x.toNat + c.toNat = a.toNat + 256 * (sub8 a x c).2.c.toNat := by
  have hc := c.toNat_le
  simp only [sub8, BitVec.toNat_ofInt, toNat_decide]
  split <;> omega

theorem sub8_z (a x : Byte) (c : Bool) : (sub8 a x c).2.z = ((sub8 a x c).1 == 0) := by
  rw [Bool.eq_iff_iff, beq_iff_eq, ← BitVec.toNat_inj]
  simp only [sub8, beq_iff_eq, BitVec.toNat_ofInt]
  change _ ↔ _ = 0
  omega

/-- `A` is the sum of result, operand and borrow, and the borrow into bit 4 its half-carry. -/
theorem sub8_h (a x : Byte) (c : Bool) : (sub8 a x c).2.h = (a ^^^ x ^^^ (sub8 a x c).1).getLsbD 4 := by
  have hdiff := sub8_difference a x c
  have hsum : a.toNat = ((sub8 a x c).1.toNat + x.toNat + c.toNat) % 256 := by omega
  have hxor : a ^^^ x ^^^ (sub8 a x c).1 = (sub8 a x c).1 ^^^ x ^^^ a := by
    rw [BitVec.xor_comm, BitVec.xor_comm a, BitVec.xor_assoc]
  rw [hxor, xor_bit4_of_sum hsum]
  refine decide_eq_decide.2 ?_
  simp only [loNibble]
  omega

theorem addsToA_of_exec {i : Instr} {s : State} {x : Byte} {c : Bool} {pc : Word}
    (h : exec i s = done i ((s.setPc pc).setAcc (add8 s.regs.a x c))) : AddsToA i s x c pc :=
  ⟨_, _, leavesReg_of_exec_withFlags h, add8_sum .., add8_z .., rfl, add8_h ..⟩

theorem subtractsFromA_of_exec {i : Instr} {s : State} {x : Byte} {c : Bool} {pc : Word}
    (h : exec i s = done i ((s.setPc pc).setAcc (sub8 s.regs.a x c))) : SubtractsFromA i s x c pc :=
  ⟨_, _, leavesReg_of_exec_withFlags h, sub8_difference .., sub8_z .., rfl, sub8_h ..⟩

theorem sub8_z_eq_beq (a x : Byte) : (sub8 a x false).2.z = (a == x) := by
  rw [Bool.eq_iff_iff, beq_iff_eq, ← BitVec.toNat_inj]
  simp only [sub8, beq_iff_eq, Bool.toNat_false]
  omega

theorem comparesA_of_exec {i : Instr} {s : State} {x : Byte} {pc : Word}
    (h : exec i s = done i ((s.setPc pc).setFlags (sub8 s.regs.a x false).2)) : ComparesA i s x pc :=
  ⟨_, leavesRegs_of_exec h, sub8_z_eq_beq .., rfl, rfl, rfl⟩

/-! ## Bitwise operations (R175 to R177) -/

theorem andsA_of_exec {i : Instr} {s : State} {x : Byte} {pc : Word}
    (h : exec i s = done i ((s.setPc pc).setAcc (and8 s.regs.a x))) : CombinesA i s (· && ·) x true pc :=
  ⟨_, leavesReg_of_exec_withFlags h, fun _ _ => BitVec.getLsbD_and⟩

theorem xorsA_of_exec {i : Instr} {s : State} {x : Byte} {pc : Word}
    (h : exec i s = done i ((s.setPc pc).setAcc (xor8 s.regs.a x))) : CombinesA i s (· ^^ ·) x false pc :=
  ⟨_, leavesReg_of_exec_withFlags h, fun _ _ => BitVec.getLsbD_xor⟩

theorem orsA_of_exec {i : Instr} {s : State} {x : Byte} {pc : Word}
    (h : exec i s = done i ((s.setPc pc).setAcc (or8 s.regs.a x))) : CombinesA i s (· || ·) x false pc :=
  ⟨_, leavesReg_of_exec_withFlags h, fun _ _ => BitVec.getLsbD_or⟩

/-! ## `INC` and `DEC` (R179, R180) -/

theorem inc8_eq (v : Byte) (f : Flags) : inc8 v f = (v + 1, ⟨v == 0xFF, false, v.toNat % 16 == 15, f.c⟩) := by
  have hz : (v + 1 == 0) = (v == 0xFF) := by
    rw [Bool.eq_iff_iff, beq_iff_eq, beq_iff_eq]
    bv_omega
  rw [inc8, hz]
  rfl

theorem dec8_eq (v : Byte) (f : Flags) : dec8 v f = (v - 1, ⟨v == 0x01, true, v.toNat % 16 == 0, f.c⟩) := by
  have hz : (v - 1 == 0) = (v == 0x01) := by
    rw [Bool.eq_iff_iff, beq_iff_eq, beq_iff_eq]
    bv_omega
  rw [dec8, hz]
  rfl

theorem toNat_byte_sub_one (v : Byte) : (v - 1).toNat = (v.toNat + 255) % 256 := by
  rw [BitVec.toNat_sub, Nat.add_comm]
  rfl

/-- An instruction whose whole effect is a register's new value and the flags. -/
theorem leavesReg_of_exec_set8F {i : Instr} {s : State} {rd : Reg8} {res : ByteResult} {v : Byte} {f : Flags}
    (hres : res = (v, f)) (h : exec i s = done i (s.set8F rd res)) : LeavesReg i s rd v f s.regs.pc := by
  subst hres
  exact leavesReg_of_exec_withFlags h

/-- An instruction whose whole effect is the new value of the byte at `HL` and the flags. -/
theorem leavesStores_of_exec_writeHlF {i : Instr} {s : State} {res : ByteResult} {v : Byte} {f : Flags}
    (hres : res = (v, f)) (h : exec i s = done i (s.writeHlF res)) :
    LeavesStores i s { s.regs with flags := f } [(s.regs.hl, v)] := by
  subst hres
  exact leavesStores_of_exec h

/-! ## `CPL` (R182) -/

/-- `CPL` is written with an exclusive or. -/
theorem cpl8_fst (a : Byte) (f : Flags) : (cpl8 a f).1 = ~~~a := BitVec.xor_allOnes

/-! ## `DAA` (R181) -/

/-- `DAA` corrects the high digit. -/
def daaHigh (a : Byte) (f : Flags) : Bool := f.c || (!f.n && decide (a.toNat > 0x99))

/-- `DAA` corrects the low digit. -/
def daaLow (a : Byte) (f : Flags) : Bool := f.h || (!f.n && decide (a.toNat % 16 > 9))

/-- What `DAA` adds or subtracts. -/
def daaCorrection (high low : Bool) : Nat := (if high then 0x60 else 0) + (if low then 0x06 else 0)

/-- The first correction leaves the low digit, so both tests may look at `A`. -/
theorem daaAfterAdd_eq (a : Nat) (h c : Bool) :
    daaAfterAdd a h c =
      (((a + daaCorrection (c || decide (a > 0x99)) (h || decide (a % 16 > 9)) : Nat) : Int), c || decide (a > 0x99)) := by
  have hdigit (high : Bool) : (if high then a + 0x60 else a) % 16 = a % 16 := by split <;> omega
  simp only [daaAfterAdd, hdigit, ← Bool.or_assoc, Bool.or_self]
  generalize (c || decide (a > 0x99)) = high
  generalize (h || decide (a % 16 > 9)) = low
  cases high <;> cases low <;> rfl

theorem daaAfterSub_eq (a : Nat) (h c : Bool) : daaAfterSub a h c = ((a : Int) - daaCorrection c h, c) := by
  cases c <;> cases h <;> simp [daaAfterSub, daaCorrection, Int.sub_sub]

theorem daa8_of_add (a : Byte) {f : Flags} (hn : f.n = false) :
    (daa8 a f).1.toNat = (a.toNat + daaCorrection (daaHigh a f) (daaLow a f)) % 256 ∧
      (daa8 a f).2.c = daaHigh a f := by
  simp only [daa8, hn, daaAfterAdd_eq, daaHigh, daaLow, Bool.false_eq_true, if_false, Bool.not_false, Bool.true_and,
    BitVec.toNat_ofInt, and_true]
  omega

theorem daa8_of_sub (a : Byte) {f : Flags} (hn : f.n = true) :
    (daa8 a f).1.toNat = (a.toNat + 256 - daaCorrection (daaHigh a f) (daaLow a f)) % 256 ∧
      (daa8 a f).2.c = daaHigh a f := by
  have hle : daaCorrection f.c f.h ≤ 256 := by unfold daaCorrection; split <;> split <;> decide
  simp only [daa8, hn, daaAfterSub_eq, daaHigh, daaLow, if_true, Bool.not_true, Bool.false_and, Bool.or_false,
    BitVec.toNat_ofInt, and_true]
  omega

/-! ## Packed decimal (R172, R174, R181) -/

theorem digits_of_packedDecimal {x : Nat} {v : Byte} (hx : x < 100)
    (hv : v = BitVec.ofNat 8 (16 * (x / 10) + x % 10)) : v.toNat = 16 * (x / 10) + x % 10 ∧ loNibble v = x % 10 := by
  have hvalue : v.toNat = 16 * (x / 10) + x % 10 := by
    rw [hv, BitVec.toNat_ofNat]
    omega
  exact ⟨hvalue, by rw [loNibble, hvalue]; omega⟩

/-- The operands' digits add up to `tens` and `units`: `DAA` corrects the low digit when `units` carry, the high one when
the decimal sum does. -/
theorem daa8_add8_of_digits {a x : Byte} {c : Bool} {tens units : Nat} (htens : tens ≤ 18) (hunits : units ≤ 19)
    (hlow : loNibble a + loNibble x + c.toNat = units) (hsum : a.toNat + x.toNat + c.toNat = 16 * tens + units) :
    let sum := add8 a x c
    (daa8 sum.1 sum.2).1.toNat = 16 * ((10 * tens + units) / 10 % 10) + (10 * tens + units) % 10 ∧
      (daa8 sum.1 sum.2).2.c = decide (10 * tens + units ≥ 100) := by
  intro sum
  have hbyte : sum.1.toNat = (16 * tens + units) % 256 := by rw [← hsum]; exact BitVec.toNat_ofNat ..
  have hcarry : sum.2.c = decide (16 * tens + units > 0xFF) := by rw [← hsum]; rfl
  have hhalf : sum.2.h = decide (units > 0xF) := by rw [← hlow]; rfl
  have hn : sum.2.n = false := rfl
  have hcorrectHigh : daaHigh sum.1 sum.2 = decide (10 * tens + units ≥ 100) := by
    rw [daaHigh, hbyte, hcarry, hn, Bool.eq_iff_iff]
    simp only [Bool.not_false, Bool.true_and, Bool.or_eq_true, decide_eq_true_eq]
    omega
  have hcorrectLow : daaLow sum.1 sum.2 = decide (units > 9) := by
    rw [daaLow, hbyte, hhalf, hn, Bool.eq_iff_iff]
    simp only [Bool.not_false, Bool.true_and, Bool.or_eq_true, decide_eq_true_eq]
    omega
  obtain ⟨hvalue, hcy⟩ := daa8_of_add sum.1 hn
  rw [hcorrectHigh] at hvalue hcy
  rw [hcorrectLow, hbyte] at hvalue
  refine ⟨hvalue.trans ?_, hcy⟩
  simp only [daaCorrection, decide_eq_true_eq]
  split <;> split <;> omega

/-- The digits' differences are `tens` and `units`: `DAA` corrects the low digit when `units` borrow, the high one when the
decimal difference does. -/
theorem daa8_sub8_of_digits {a x : Byte} {c : Bool} {tens units : Int} (htens : -9 ≤ tens ∧ tens ≤ 9)
    (hunits : -10 ≤ units ∧ units ≤ 9) (hlow : (loNibble a : Int) - loNibble x - c.toNat = units)
    (hdiff : (a.toNat : Int) - x.toNat - c.toNat = 16 * tens + units) :
    let diff := sub8 a x c
    ((daa8 diff.1 diff.2).1.toNat : Int) = 16 * ((10 * tens + units) / 10 % 10) + (10 * tens + units) % 10 ∧
      (daa8 diff.1 diff.2).2.c = decide (10 * tens + units < 0) := by
  intro diff
  have hbyte : (diff.1.toNat : Int) = (16 * tens + units) % 256 := by
    rw [← hdiff]
    exact (congrArg Int.ofNat (BitVec.toNat_ofInt ..)).trans (Int.toNat_of_nonneg (Int.emod_nonneg _ (by decide)))
  have hn : diff.2.n = true := rfl
  have hcorrectHigh : daaHigh diff.1 diff.2 = decide (10 * tens + units < 0) := by
    rw [daaHigh, hn, Bool.not_true, Bool.false_and, Bool.or_false]
    exact decide_eq_decide.2 (by omega)
  have hcorrectLow : daaLow diff.1 diff.2 = decide (units < 0) := by
    rw [daaLow, hn, Bool.not_true, Bool.false_and, Bool.or_false]
    exact decide_eq_decide.2 (by omega)
  obtain ⟨hvalue, hcy⟩ := daa8_of_sub diff.1 hn
  rw [hcorrectHigh] at hvalue hcy
  rw [hcorrectLow] at hvalue
  refine ⟨?_, hcy⟩
  rw [hvalue]
  simp only [daaCorrection, decide_eq_true_eq]
  split <;> split <;> omega

/-! ## The statements -/

/-- Settles O13: the three forms differ in where the operand comes from and in `PC` only. -/
theorem addAndAdcMakeTheSum : Obligations.AddAndAdcMakeTheSum := fun _ =>
  ⟨fun _ => addsToA_of_exec rfl, addsToA_of_exec rfl, fun _ => addsToA_of_exec rfl,
    fun _ => addsToA_of_exec rfl, addsToA_of_exec rfl, fun _ => addsToA_of_exec rfl⟩

/-- Settles O14: the forms differ in where the operand comes from and in `PC` only; `CP` writes only the flags. -/
theorem subSbcAndCpMakeTheDifference : Obligations.SubSbcAndCpMakeTheDifference := fun _ =>
  ⟨fun _ => subtractsFromA_of_exec rfl, subtractsFromA_of_exec rfl, fun _ => subtractsFromA_of_exec rfl,
    fun _ => subtractsFromA_of_exec rfl, subtractsFromA_of_exec rfl, fun _ => subtractsFromA_of_exec rfl,
    fun _ => comparesA_of_exec rfl, comparesA_of_exec rfl, fun _ => comparesA_of_exec rfl⟩

/-- Settles O15: each bit of the result is the operation on the operands' bits. -/
theorem logicWorksBitByBit : Obligations.LogicWorksBitByBit := fun _ =>
  ⟨fun _ => andsA_of_exec rfl, andsA_of_exec rfl, fun _ => andsA_of_exec rfl,
    fun _ => xorsA_of_exec rfl, xorsA_of_exec rfl, fun _ => xorsA_of_exec rfl,
    fun _ => orsA_of_exec rfl, orsA_of_exec rfl, fun _ => orsA_of_exec rfl⟩

/-- Settles O16: the register and the memory form write back the same byte and flags. -/
theorem incAndDecOfAByte : Obligations.IncAndDecOfAByte := fun _ =>
  ⟨fun _ => ⟨_, BitVec.toNat_add .., leavesReg_of_exec_set8F (inc8_eq ..) rfl⟩,
    fun _ => ⟨_, toNat_byte_sub_one _, leavesReg_of_exec_set8F (dec8_eq ..) rfl⟩,
    ⟨_, BitVec.toNat_add .., leavesStores_of_exec_writeHlF (inc8_eq ..) rfl⟩,
    ⟨_, toNat_byte_sub_one _, leavesStores_of_exec_writeHlF (dec8_eq ..) rfl⟩⟩

/-- Settles O17: the statement's tests and correction are those of the branch that `N` selects. -/
theorem daaAppliesTheCorrection : Obligations.DaaAppliesTheCorrection := by
  intro s a f high low corr
  have hdaa : (daa8 s.regs.a f).1.toNat = (if f.n then a + 256 - corr else a + corr) % 256 ∧
      (daa8 s.regs.a f).2.c = high := by
    cases hn : f.n
    case false => exact daa8_of_add s.regs.a hn
    case true => exact daa8_of_sub s.regs.a hn
  obtain ⟨hvalue, hcarry⟩ := hdaa
  refine ⟨_, hvalue, leavesReg_of_exec_withFlags ?_⟩
  rw [← hcarry]
  rfl

/-- Settles O18: the operands' digits are their nibbles, so `DAA` sees the sum or difference digit by digit. -/
theorem daaMakesPackedDecimal : Obligations.DaaMakesPackedDecimal := by
  intro s r x y hx hy ha hr
  have hc := s.regs.flags.c.toNat_le
  obtain ⟨hbyteX, hunitsX⟩ := digits_of_packedDecimal hx ha
  obtain ⟨hbyteY, hunitsY⟩ := digits_of_packedDecimal hy hr
  constructor
  · obtain ⟨hvalue, hcarry⟩ := daa8_add8_of_digits (a := s.regs.a) (x := s.get8 r) (c := s.regs.flags.c)
      (tens := x / 10 + y / 10) (units := x % 10 + y % 10 + s.regs.flags.c.toNat)
      (by omega) (by omega) (by omega) (by omega)
    have hdecimal : 10 * (x / 10 + y / 10) + (x % 10 + y % 10 + s.regs.flags.c.toNat) =
        x + y + s.regs.flags.c.toNat := by omega
    rw [hdecimal] at hvalue hcarry
    exact ⟨_, _, rfl, rfl, hvalue, hcarry⟩
  · obtain ⟨hvalue, hborrow⟩ := daa8_sub8_of_digits (a := s.regs.a) (x := s.get8 r) (c := s.regs.flags.c)
      (tens := (x / 10 : Nat) - (y / 10 : Nat)) (units := (x % 10 : Nat) - (y % 10 : Nat) - s.regs.flags.c.toNat)
      (by omega) (by omega) (by omega) (by omega)
    refine ⟨_, _, rfl, rfl, Int.ofNat_inj.1 (hvalue.trans ?_), hborrow.trans (decide_eq_decide.2 ?_)⟩
    · omega
    · omega

/-- Settles O19: each writes what its rule says; only `CPL`'s complement is computed another way. -/
theorem complementAndCarryFlags : Obligations.ComplementAndCarryFlags := by
  intro s f
  refine ⟨leavesRegs_of_exec ?_, leavesRegs_of_exec rfl, leavesRegs_of_exec rfl⟩
  rw [← cpl8_fst s.regs.a f]
  rfl

end Sys2Proof.Machine
end

section
/-! SUPPORT. Proofs of the 16-bit arithmetic family (43_alu16.md): the carries out of bits 11 and 15 of a sum of words, and the
statement. -/

namespace Sys2Proof.Machine

/-! ## The sum of two words (R200) -/

theorem add16_sum (hl b : Word) (f : Flags) :
    (add16 hl b f).1.toNat + 0x10000 * (add16 hl b f).2.c.toNat = hl.toNat + b.toNat := by
  simp only [add16, BitVec.toNat_ofNat, toNat_decide]
  split <;> omega

/-- Bit 12 of the sum is the operands' bits and the carry out of bit 11. -/
theorem add16_h (hl b : Word) (f : Flags) : (add16 hl b f).2.h = (hl ^^^ b ^^^ (add16 hl b f).1).getLsbD 12 := by
  have hcarry : (add16 hl b f).2.h = BitVec.carry 12 hl b false := rfl
  have hbit : (add16 hl b f).1.getLsbD 12 = (hl.getLsbD 12 ^^ (b.getLsbD 12 ^^ BitVec.carry 12 hl b false)) :=
    BitVec.getLsbD_add (by decide) hl b
  rw [hcarry, BitVec.getLsbD_xor, BitVec.getLsbD_xor, hbit, ← Bool.xor_assoc (hl.getLsbD 12), ← Bool.xor_assoc,
    Bool.xor_self, Bool.false_xor]

/-! ## The statement -/

/-- Settles O20: each writes one pair as a whole; only the sum writes flags, `Z` passed through. -/
theorem arithmeticOnPairs : Obligations.ArithmeticOnPairs := fun s p =>
  ⟨⟨_, _, _, add16_sum s.regs.hl (s.get16 p) s.regs.flags, add16_h s.regs.hl (s.get16 p) s.regs.flags,
    leavesPair_of_exec rfl⟩, leavesPair_of_exec rfl, leavesPair_of_exec rfl⟩

end Sys2Proof.Machine
end

section
/-! SUPPORT. Proofs of the rotate, shift and bit family (44_rotate_shift_bit.md): a byte moved by one place, as bits and as a
number, the eight operations in the statement's terms, the bits of `RES` and `SET`, and the statements. -/

namespace Sys2Proof.Machine

/-! ## A byte moved by one place -/

theorem shiftIn0_eq_concat (v : Byte) (low : Bool) : shiftIn0 v low = (v.extractLsb' 0 7).concat low := rfl

theorem shiftIn7_eq_cons (v : Byte) (high : Bool) : shiftIn7 v high = (v.extractLsb' 1 7).cons high := rfl

theorem toNat_shiftIn0 (v : Byte) (low : Bool) : (shiftIn0 v low).toNat = 2 * (v.toNat % 128) + low.toNat := by
  rw [shiftIn0_eq_concat, BitVec.toNat_concat, BitVec.extractLsb'_toNat, Nat.shiftRight_zero, Nat.mul_comm]

theorem toNat_shiftIn7 (v : Byte) (high : Bool) : (shiftIn7 v high).toNat = v.toNat / 2 + 128 * high.toNat := by
  have hv := v.isLt
  rw [shiftIn7_eq_cons, BitVec.toNat_cons', BitVec.extractLsb'_toNat, Nat.shiftLeft_eq, Nat.shiftRight_eq_div_pow]
  omega

theorem getLsbD_seven_eq_decide (v : Byte) : v.getLsbD 7 = decide (v.toNat ≥ 128) := BitVec.msb_eq_decide v

theorem getLsbD_zero_eq_beq (v : Byte) : v.getLsbD 0 = (v.toNat % 2 == 1) := by
  rw [BitVec.getLsbD, Nat.testBit_zero]
  rfl

/-- The nine bits of carry and byte, read as a number, move one place left. -/
theorem shiftIn0_nineBits (v : Byte) (low : Bool) :
    (shiftIn0 v low).toNat + 256 * (v.getLsbD 7).toNat = 2 * v.toNat + low.toNat := by
  have hv := v.isLt
  have hbit : (v.getLsbD 7).toNat = v.toNat / 128 % 2 := Nat.toNat_testBit ..
  rw [toNat_shiftIn0, hbit]
  omega

/-- The nine bits of carry and byte, read as a number, move one place right. -/
theorem shiftIn7_nineBits (v : Byte) (high : Bool) :
    2 * (shiftIn7 v high).toNat + (v.getLsbD 0).toNat = v.toNat + 256 * high.toNat := by
  have hbit : (v.getLsbD 0).toNat = v.toNat / 1 % 2 := Nat.toNat_testBit ..
  rw [toNat_shiftIn7, hbit]
  omega

/-! ## The eight operations (R214 to R221) -/

theorem shiftIn0_getLsbD_seven (v : Byte) : shiftIn0 v (v.getLsbD 7) = v.rotateLeft 1 := by
  rw [shiftIn0_eq_concat]
  ext k hk
  cases k with
  | zero => simp [BitVec.getLsbD_eq_getElem]
  | succ k => simpa using BitVec.getLsbD_eq_getElem _

theorem shiftIn7_getLsbD_zero (v : Byte) : shiftIn7 v (v.getLsbD 0) = v.rotateRight 1 := by
  rw [shiftIn7_eq_cons]
  ext k hk
  rw [BitVec.getElem_cons, BitVec.getElem_rotateRight]
  by_cases h7 : k = 7
  · simp [h7, BitVec.getLsbD_eq_getElem]
  · have hlt : k < 7 := by omega
    simpa [h7, hlt] using BitVec.getLsbD_eq_getElem _

theorem shiftIn7_getLsbD_seven (v : Byte) : shiftIn7 v (v.getLsbD 7) = v.sshiftRight 1 := by
  rw [shiftIn7_eq_cons]
  ext k hk
  rw [BitVec.getElem_cons, BitVec.getElem_sshiftRight]
  by_cases h7 : k = 7
  · simp [h7, BitVec.msb_eq_getLsbD_last]
  · have hlt : 1 + k < 8 := by omega
    simp [h7, hlt]

theorem rlc8_eq (v : Byte) : rlc8 v = shiftResult (v.rotateLeft 1) (v.getLsbD 7) := by
  rw [rlc8, shiftIn0_getLsbD_seven]

theorem rrc8_eq (v : Byte) : rrc8 v = shiftResult (v.rotateRight 1) (v.getLsbD 0) := by
  rw [rrc8, shiftIn7_getLsbD_zero]

theorem rl8_eq (v : Byte) (cy : Bool) :
    rl8 v cy = shiftResult (BitVec.ofNat 8 (2 * v.toNat + cy.toNat)) (decide (v.toNat ≥ 128)) := by
  have hvalue : shiftIn0 v cy = BitVec.ofNat 8 (2 * v.toNat + cy.toNat) := by
    apply BitVec.eq_of_toNat_eq
    rw [BitVec.toNat_ofNat, ← shiftIn0_nineBits, Nat.add_mul_mod_self_left, Nat.mod_eq_of_lt (BitVec.isLt _)]
  rw [rl8, hvalue, getLsbD_seven_eq_decide]

theorem rr8_eq (v : Byte) (cy : Bool) :
    rr8 v cy = shiftResult (BitVec.ofNat 8 ((v.toNat + 256 * cy.toNat) / 2)) (v.toNat % 2 == 1) := by
  have hvalue : shiftIn7 v cy = BitVec.ofNat 8 ((v.toNat + 256 * cy.toNat) / 2) := by
    have hlt := (shiftIn7 v cy).isLt
    have hbit := (v.getLsbD 0).toNat_le
    apply BitVec.eq_of_toNat_eq
    rw [BitVec.toNat_ofNat, ← shiftIn7_nineBits]
    omega
  rw [rr8, hvalue, getLsbD_zero_eq_beq]

theorem sla8_eq (v : Byte) : sla8 v = shiftResult (v <<< 1) (decide (v.toNat ≥ 128)) := by
  have hvalue : v <<< 1 = shiftIn0 v false := BitVec.shiftLeft_eq_concat_of_lt (by decide)
  rw [sla8, hvalue, getLsbD_seven_eq_decide]

theorem sra8_eq (v : Byte) : sra8 v = shiftResult (v.sshiftRight 1) (v.toNat % 2 == 1) := by
  rw [sra8, shiftIn7_getLsbD_seven, getLsbD_zero_eq_beq]

theorem swap8_eq (v : Byte) : swap8 v = shiftResult (v.rotateLeft 4) false := by
  have hvalue : v.extractLsb' 0 4 ++ v.extractLsb' 4 4 = v.rotateLeft 4 := by
    ext k hk
    rw [BitVec.getElem_append, BitVec.getElem_rotateLeft]
    by_cases hlow : k < 4 <;> simpa [hlow] using BitVec.getLsbD_eq_getElem _
  rw [swap8, hvalue]

theorem srl8_eq (v : Byte) : srl8 v = shiftResult (v >>> 1) (v.toNat % 2 == 1) := by
  have hvalue : v >>> 1 = shiftIn7 v false := BitVec.ushiftRight_eq_extractLsb'_of_lt (by decide)
  rw [srl8, hvalue, getLsbD_zero_eq_beq]

/-- The two forms of one operation `op` write back its result. -/
theorem shifts_of_exec {ir : Reg8 → Instr} {im : Instr} {s : State} {op : Byte → ByteResult} {v : Byte → Byte}
    {c : Byte → Bool} (hop : ∀ x, op x = shiftResult (v x) (c x))
    (hreg : ∀ r, exec (ir r) s = done (ir r) (s.set8F r (op (s.get8 r))))
    (hmem : exec im s = done im (s.writeHlF (op s.readHl))) : Shifts ir im s v c :=
  ⟨fun r => leavesReg_of_exec_set8F (hop _) (hreg r), leavesStores_of_exec_writeHlF (hop _) hmem⟩

/-! ## One bit of a byte (R223, R224) -/

theorem getLsbD_one_shiftLeft (b : BitVec 3) (k : Nat) : (1#8 <<< b.toNat).getLsbD k = (k == b.toNat) := by
  have hb : b.toNat < 8 := b.isLt
  rw [← BitVec.twoPow_eq, BitVec.getLsbD_twoPow, decide_eq_true hb, Bool.true_and, Bool.eq_iff_iff, decide_eq_true_eq,
    beq_iff_eq, eq_comm]

theorem getLsbD_resBit (b : BitVec 3) (v : Byte) {k : Nat} (hk : k < 8) :
    (resBit b v).getLsbD k = (v.getLsbD k && k != b.toNat) := by
  rw [resBit, BitVec.getLsbD_and, BitVec.getLsbD_not, getLsbD_one_shiftLeft, decide_eq_true hk, Bool.true_and]
  rfl

theorem getLsbD_setBit (b : BitVec 3) (v : Byte) (k : Nat) :
    (setBit b v).getLsbD k = (v.getLsbD k || k == b.toNat) := by
  rw [setBit, BitVec.getLsbD_or, getLsbD_one_shiftLeft]

/-! ## The statements -/

/-- Settles O22: `RLCA` and `RRCA` feed back the bit shifted out, `RLA` and `RRA` the carry; `Z` is cleared in all four. -/
theorem accumulatorRotates : Obligations.AccumulatorRotates := by
  intro s a
  refine ⟨leavesReg_of_exec_withFlags ?_, leavesReg_of_exec_withFlags ?_,
    ⟨_, _, shiftIn0_nineBits a s.regs.flags.c, leavesReg_of_exec_withFlags rfl⟩,
    ⟨_, _, shiftIn7_nineBits a s.regs.flags.c, leavesReg_of_exec_withFlags rfl⟩⟩
  · rw [← shiftIn0_getLsbD_seven]
    rfl
  · rw [← shiftIn7_getLsbD_zero]
    rfl

/-- Settles O23: the two forms of each operation write back one result, which its equation gives in the statement's terms. -/
theorem extendedRotatesAndShifts : Obligations.ExtendedRotatesAndShifts := fun s =>
  ⟨shifts_of_exec rlc8_eq (fun _ => rfl) rfl, shifts_of_exec rrc8_eq (fun _ => rfl) rfl,
    shifts_of_exec (rl8_eq · s.regs.flags.c) (fun _ => rfl) rfl,
    shifts_of_exec (rr8_eq · s.regs.flags.c) (fun _ => rfl) rfl,
    shifts_of_exec sla8_eq (fun _ => rfl) rfl, shifts_of_exec sra8_eq (fun _ => rfl) rfl,
    shifts_of_exec swap8_eq (fun _ => rfl) rfl, shifts_of_exec srl8_eq (fun _ => rfl) rfl⟩

/-- Settles O24: `BIT` writes only the flags, `RES` and `SET` only the byte, whatever its bit was. -/
theorem bitResAndSetWorkOnOneBit : Obligations.BitResAndSetWorkOnOneBit := fun _ b =>
  ⟨fun _ => leavesRegs_of_exec rfl, leavesRegs_of_exec rfl,
    fun _ => ⟨_, fun _ hk => getLsbD_resBit b _ hk, leavesReg_of_exec rfl⟩,
    fun _ => ⟨_, fun k _ => getLsbD_setBit b _ k, leavesReg_of_exec rfl⟩,
    ⟨_, fun _ hk => getLsbD_resBit b _ hk, leavesStores_of_exec rfl⟩,
    ⟨_, fun k _ => getLsbD_setBit b _ k, leavesStores_of_exec rfl⟩⟩

end Sys2Proof.Machine
end

section
/-! SUPPORT. Proofs of the control transfer family (45_control_transfer.md): the two bytes of a word in the statements' terms,
the two stores of a call, the word a return pops, and the statements. -/

namespace Sys2Proof.Machine

/-! ## The bytes of a word and the target of `RST` -/

theorem setWidth_ushiftRight_eq_hiByte (w : Word) : (w >>> 8).setWidth 8 = hiByte w :=
  BitVec.setWidth_ushiftRight_eq_extractLsb

theorem setWidth_eq_loByte (w : Word) : w.setWidth 8 = loByte w := BitVec.setWidth_eq_extractLsb' (by decide)

theorem rstTarget_eq_mul (t : BitVec 3) : BitVec.ofNat 16 (8 * t.toNat) = 8 * t.setWidth 16 := by
  revert t
  decide

/-! ## Calls (R164, R245, R246, R252) -/

theorem leavesStoresTaken_of_exec {i : Instr} {s : State} {r : Regs} {sts : List (Word × Byte)}
    (h : exec i s = .next (s.withStores r (chargeTaken s i) sts)) : LeavesStoresTaken i s r sts :=
  ⟨h, fun _ hx => Bus.stores_read_of_mayChange s.params sts s.bus hx⟩

/-- Once the operand bytes are passed, a call pushes a word and jumps: one register file, two byte stores, one charge. -/
theorem State.push16_jump_eq_withStores (s : State) (pc v target : Word) (cost : Nat) :
    (((s.setPc pc).push16 v).setPc target).charge cost =
      s.withStores { s.regs with sp := s.regs.sp - 2, pc := target } (max cost 1 - 1)
        [(s.regs.sp - 1, (v >>> 8).setWidth 8), (s.regs.sp - 2, v.setWidth 8)] := by
  have hsp : s.regs.sp - 1 - 1 = s.regs.sp - 2 := BitVec.sub_sub ..
  rw [← hsp, setWidth_ushiftRight_eq_hiByte, setWidth_eq_loByte]
  rfl

theorem leavesStores_of_exec_push16 {i : Instr} {s : State} {pc v target : Word}
    (h : exec i s = done i (((s.setPc pc).push16 v).setPc target)) :
    LeavesStores i s { s.regs with sp := s.regs.sp - 2, pc := target }
      [(s.regs.sp - 1, (v >>> 8).setWidth 8), (s.regs.sp - 2, v.setWidth 8)] :=
  leavesStores_of_exec (h.trans (congrArg Host.Outcome.next (s.push16_jump_eq_withStores ..)))

theorem leavesStoresTaken_of_exec_push16 {i : Instr} {s : State} {pc v target : Word}
    (h : exec i s = doneTaken i (((s.setPc pc).push16 v).setPc target)) :
    LeavesStoresTaken i s { s.regs with sp := s.regs.sp - 2, pc := target }
      [(s.regs.sp - 1, (v >>> 8).setWidth 8), (s.regs.sp - 2, v.setWidth 8)] :=
  leavesStoresTaken_of_exec (h.trans (congrArg Host.Outcome.next (s.push16_jump_eq_withStores ..)))

theorem callCcNn_taken {s : State} {cc : Cond} (h : s.regs.flags.holds cc = true) (nn : Word) :
    LeavesStoresTaken (.callCcNn cc nn) s { s.regs with sp := s.regs.sp - 2, pc := nn }
      [(s.regs.sp - 1, ((s.regs.pc + 2) >>> 8).setWidth 8), (s.regs.sp - 2, (s.regs.pc + 2).setWidth 8)] := by
  rw [← State.imm16_pc]
  exact leavesStoresTaken_of_exec_push16 (if_pos h)

theorem callCcNn_notTaken {s : State} {cc : Cond} (h : s.regs.flags.holds cc = false) (nn : Word) :
    LeavesRegs (.callCcNn cc nn) s { s.regs with pc := s.regs.pc + 2 } := by
  rw [← State.imm16_pc]
  exact leavesRegs_of_exec (if_neg (by simp [h]))

/-! ## Returns (R165, R247 to R249) -/

theorem State.popped_sp (s : State) : s.popped.regs.sp = s.regs.sp + 2 := BitVec.add_assoc ..

theorem retCc_taken {s : State} {cc : Cond} (h : s.regs.flags.holds cc = true) :
    LeavesRegsTaken (.retCc cc) s
      { s.regs with pc := s.read (s.regs.sp + 1) ++ s.read s.regs.sp, sp := s.regs.sp + 2 } := by
  rw [← State.popped_sp]
  exact leavesRegsTaken_of_exec (if_pos h)

theorem retCc_notTaken {s : State} {cc : Cond} (h : s.regs.flags.holds cc = false) :
    LeavesRegs (.retCc cc) s s.regs :=
  leavesRegs_of_exec (if_neg (by simp [h]))

/-- An instruction that pushes `v` into RAM and jumps is undone by a return: `PC` goes to `v` and `SP` comes back. -/
theorem exec_ret_of_exec_push16 {i : Instr} {s s' : State} {v target : Word}
    (h : exec i s = done i ((s'.push16 v).setPc target)) (hhi : inRam (s'.regs.sp - 1)) (hlo : inRam (s'.regs.sp - 2)) :
    ∃ t u, exec i s = .next t ∧ exec .ret t = .next u ∧ u.regs = { s'.regs with pc := v } := by
  refine ⟨_, _, h, rfl, ?_⟩
  change ({ (s'.push16 v).popped.regs with pc := (s'.push16 v).popValue } : Regs) = _
  rw [s'.push16_popped_regs, s'.push16_popValue v hhi hlo]

/-! ## The statements -/

/-- Settles O25: each writes `PC` only; the relative target is a sum modulo `2 ^ 16`. -/
theorem unconditionalJumps : Obligations.UnconditionalJumps := fun _ =>
  ⟨fun _ => leavesRegs_of_exec rfl, leavesRegs_of_exec rfl,
    fun e => ⟨_, toNat_relativeTarget _ e, leavesRegs_of_exec rfl⟩⟩

/-- Settles O27: `CALL` pushes `PC` past its operand bytes, `RST`, which has none, `PC` itself. -/
theorem callsPushTheReturnAddress : Obligations.CallsPushTheReturnAddress := by
  intro s
  simp only [← State.imm16_pc, ← rstTarget_eq_mul]
  exact ⟨fun _ => leavesStores_of_exec_push16 rfl, fun _ => leavesStores_of_exec_push16 (pc := s.regs.pc) rfl⟩

/-- Settles O28: the word popped is the two bytes at `SP`, the high one above the low one. -/
theorem returnsPopThePc : Obligations.ReturnsPopThePc := by
  intro s
  rw [← State.popped_sp]
  exact ⟨leavesRegs_of_exec rfl, rfl⟩

/-- Settles O29: taken, each is the unconditional form at its own cost; not taken, only operand bytes are passed. -/
theorem conditionalCallsAndReturns : Obligations.ConditionalCallsAndReturns := fun _ _ =>
  ⟨fun h => ⟨callCcNn_taken h, retCc_taken h⟩, fun h => ⟨callCcNn_notTaken h, retCc_notTaken h⟩⟩

/-- Settles O30: the return pops what the call pushed, which for `RST` is `PC` as it was. -/
theorem returnComesBackFromTheCall : Obligations.ReturnComesBackFromTheCall := by
  intro s hhi hlo
  rw [← State.imm16_pc]
  exact ⟨fun _ => exec_ret_of_exec_push16 (s' := s.imm16) rfl hhi hlo, fun _ => exec_ret_of_exec_push16 rfl hhi hlo⟩

end Sys2Proof.Machine
end

section
/-! SUPPORT. Proofs of the system instruction family (46_system.md): the bytes an ordinary fetch reads, what an instruction leaves
of the interrupt enable and of a pending one, and the statements. -/

namespace Sys2Proof.Machine

/-! ## The fetch of consecutive bytes (R305) -/

theorem State.fetched_of_not_haltBug {s : State} (h : s.haltBug = false) :
    s.fetched =
      decodeFetched s.params.prefixCode (s.read s.regs.pc) (s.read (s.regs.pc + 1)) (s.read (s.regs.pc + 2)) := by
  simp [State.fetched, State.opcodeAt, State.read, h, BitVec.add_assoc]

/-- Without the halt bug a tick that fetches executes what the three bytes at `PC` decode to. -/
theorem step_of_fetches_decoded {s t : State} {i : Instr} {rest : List Byte} (hf : s.fetches) (hbug : s.haltBug = false)
    (hdecode : decodeWith s.params.prefixCode
      [s.read s.regs.pc, s.read (s.regs.pc + 1), s.read (s.regs.pc + 2)] = .ok (i, rest))
    (hinv : s.invalidAt = true → i ∈ invalidInstrs)
    (ht : exec i (s.atExecute (if i.isExtended then 2 else 1)) = .next t) : step s = .next t.afterCpu := by
  have hi : s.fetched = i := (State.fetched_of_not_haltBug hbug).trans (decodeFetched_of_decodeWith hdecode)
  have hlength : (1 : Word) + (if i.isExtended then 1 else 0) = if i.isExtended then 2 else 1 := by split <;> rfl
  apply step_of_fetches hf (hi ▸ hinv)
  rw [hi, hbug, if_neg Bool.false_ne_true, hlength]
  exact ht

/-! ## The interrupt enable after an instruction (R263, R264) -/

/-- Only `DI` clears `IME`. -/
theorem ime_of_exec_of_ne_di {i : Instr} {s t : State} (h : exec i s = .next t) (hs : s.ime = true) (hi : i ≠ .di) :
    t.ime = true := by
  have hcontrol : (controlAfter i s).1 = true := by
    cases i
    case di => exact absurd rfl hi
    case reti => rfl
    all_goals exact hs
  exact (exec_moves h).ime.trans hcontrol

/-- Only `EI` notes an enable. -/
theorem imePending_of_exec_of_ne_ei {i : Instr} {s t : State} (h : exec i s = .next t) (hs : s.imePending = false)
    (hi : i ≠ .ei) : t.imePending = false := by
  have hcontrol : (controlAfter i s).2.1 = false := by
    cases i
    case ei => exact absurd rfl hi
    case di => rfl
    all_goals exact hs
  exact (exec_moves h).imePending.trans hcontrol

/-! ## The halt bug (R261) -/

/-- The flag after `HALT`: its condition in the handler's form and as a boolean. -/
theorem haltBug_ite_eq_or (s : State) :
    (if s.ime = false ∧ s.pending ≠ 0 then true else s.haltBug) =
      (s.haltBug || (!s.ime && s.bus.ieReg &&& s.bus.ifReg != 0)) := by
  change _ = (s.haltBug || (!s.ime && s.pending != 0))
  have hcond : decide (s.ime = false ∧ s.pending ≠ 0) = (!s.ime && s.pending != 0) := by
    rw [Bool.eq_iff_iff, decide_eq_true_iff, Bool.and_eq_true, Bool.not_eq_true', bne_iff_ne]
  rw [Bool.if_true_left, hcond, Bool.or_comm]

/-! ## The statements -/

/-- Settles O40: with `IME` off nothing is dispatched, so the tick fetches; the fetch commits the enable, which only `DI` takes
back, and only another `EI` notes a new one. -/
theorem eiWaitsForOneInstruction : Obligations.EiWaitsForOneInstruction := by
  intro s i rest hticks hhalted hbug hime hpend hdecode hinv
  have hf : s.fetches := ⟨hticks, .inl hime, .inl hhalted⟩
  obtain ⟨t, ht⟩ := exec_next i (s.atExecute (if i.isExtended then 2 else 1))
  have henabled : (s.atExecute (if i.isExtended then 2 else 1)).ime = true := by simp [State.atExecute, hpend]
  exact ⟨t, ht, step_of_fetches_decoded hf hbug hdecode hinv ht, henabled,
    ime_of_exec_of_ne_di ht henabled, imePending_of_exec_of_ne_ei ht rfl⟩

/-- Settles O31: each handler is its record update; `HALT` decides the bug from what is pending. -/
theorem systemInstructions : Obligations.SystemInstructions := by
  intro s
  rw [← haltBug_ite_eq_or]
  exact ⟨leavesRegs_of_exec rfl, fun _ => leavesRegs_of_exec rfl, rfl, rfl, rfl⟩

end Sys2Proof.Machine
end

section
/-! SUPPORT. Proofs of the exceptions family (60_exceptions.md), first part: the CPU's step, the interrupt dispatch and the
tick, each case of the step as an equation; then the statements. -/

namespace Sys2Proof.Machine

/-! ## The cases of the CPU's step (R300, R301, R303, R304) -/

theorem cpuStep_of_ticksRemaining {s : State} (h : s.ticksRemaining ≠ 0) :
    cpuStep s = .next { s with ticksRemaining := s.ticksRemaining - 1 } := if_pos h

theorem cpuStep_of_dispatch {s : State} {i : Nat} (hticks : s.ticksRemaining = 0) (hime : s.ime = true)
    (hsrc : lowestSource s.pending = some i) : cpuStep s = .next (s.dispatch i) := by
  unfold cpuStep
  rw [if_neg (fun hne => hne hticks), hime, hsrc]

theorem cpuStep_of_idle {s : State} (hticks : s.ticksRemaining = 0) (hhalted : s.halted = true) (hpend : s.pending = 0) :
    cpuStep s = .next s := by
  have hsrc : lowestSource s.pending = none := lowestSource_eq_none.2 hpend
  unfold cpuStep
  rw [if_neg (fun hne => hne hticks), hsrc, if_pos ⟨hhalted, hpend⟩]
  cases s.ime <;> rfl

theorem State.runFetched_next (s : State) : ∃ t, s.runFetched = .next t := by
  unfold State.runFetched
  split
  · exact ⟨_, rfl⟩
  · exact exec_next ..

/-- Every step of the CPU completes (R320). -/
theorem cpuStep_next (s : State) : ∃ t, cpuStep s = .next t := by
  unfold cpuStep
  split
  · exact ⟨_, rfl⟩
  · split
    · exact ⟨_, rfl⟩
    · split
      · exact ⟨_, rfl⟩
      · exact State.runFetched_next _

/-! ## The dispatch (R303, R311, R312) -/

/-- With a request pending there is a source to dispatch, the least one pending. -/
theorem exists_lowestSource {p : BitVec 5} (h : p ≠ 0) :
    ∃ i, lowestSource p = some i ∧ i < 5 ∧ p.getLsbD i = true ∧ ∀ j < i, p.getLsbD j = false := by
  cases hsrc : lowestSource p with
  | none => exact absurd (lowestSource_eq_none.1 hsrc) h
  | some i => exact ⟨i, rfl, lowestSource_eq_some hsrc⟩

theorem sub_one_sub_one (w : Word) : w - 1 - 1 = w - 2 := BitVec.sub_sub ..

/-- The dispatch as one record update, its bytes and addresses as R303 has them. -/
theorem State.dispatch_eq (s : State) (i : Nat) :
    s.dispatch i =
      { s with
        regs := { s.regs with sp := s.regs.sp - 2, pc := s.params.vectors.getD i 0 }
        ime := false, imePending := false, halted := false
        bus :=
          (({ s.bus with ifReg := s.bus.ifReg &&& ~~~(1#5 <<< i) } : Bus).write s.params (s.regs.sp - 1)
            ((s.regs.pc >>> 8).setWidth 8)).write s.params (s.regs.sp - 2) (s.regs.pc.setWidth 8)
        ticksRemaining := s.params.intDispatchTicks - 1 } := by
  rw [← sub_one_sub_one, setWidth_ushiftRight_eq_hiByte, setWidth_eq_loByte, ← BitVec.twoPow_eq]
  rfl

/-- A store into RAM reaches neither a gate nor a register: it is the store of that byte. -/
theorem Bus.write_of_inRam (p : Params) (b : Bus) {a : Word} (v : Byte) (h : inRam a) :
    b.write p a v = b.store a.toNat v := by
  have hown := inRam_iff.1 h
  have hstorage : (ownerOf a.toNat).isStorage :=
    hown.elim (fun hwram => .inr (.inl hwram)) fun hhram => .inr (.inr (.inr hhram))
  exact (Bus.read_write_of_open hstorage (b.not_shutAt_of_wram_hram hown) p v).2

theorem Bus.read_withIfReg (p : Params) (b : Bus) (f : BitVec 5) {x : Word} (h : x ≠ 0xFF0F) :
    Bus.read p { b with ifReg := f } x = b.read p x := by
  have hne : ownerOf x.toNat ≠ .ifReg := fun hown => h (BitVec.eq_of_toNat_eq (ownerOf_ifReg_iff.1 hown))
  exact Bus.AgreesAt.read { ifReg := fun hown => absurd hown hne } p

section
variable {s : State} (i : Nat) (hhi : inRam (s.regs.sp - 1)) (hlo : inRam (s.regs.sp - 2))
include hhi hlo

/-- With the stack in RAM a dispatch changes memory and the one request bit, and nothing else of the bus. -/
theorem State.dispatch_bus_of_inRam :
    (s.dispatch i).bus =
      { s.bus with mem := (s.dispatch i).bus.mem, ifReg := s.bus.ifReg &&& ~~~BitVec.twoPow 5 i } := by
  simp only [State.dispatch_bus, Bus.stores, List.foldl_cons, List.foldl_nil, sub_one_sub_one, Bus.write_of_inRam _ _ _ hhi,
    Bus.write_of_inRam _ _ _ hlo]
  rfl

/-- The return address is the word a pop would read. -/
theorem State.dispatch_saved_pc :
    (s.dispatch i).read (s.regs.sp - 1) ++ (s.dispatch i).read (s.regs.sp - 2) = s.regs.pc := by
  have hpop : (s.dispatch i).popValue = s.regs.pc := State.push16_popValue
    { s with
      ime := false, imePending := false, halted := false
      bus := { s.bus with ifReg := s.bus.ifReg &&& ~~~BitVec.twoPow 5 i } } s.regs.pc hhi hlo
  simp only [State.popValue, State.dispatch_regs, BitVec.sub_add_cancel] at hpop
  rwa [sub_one_sub_one] at hpop

theorem State.dispatch_read_other {x : Word} (hx1 : x ≠ s.regs.sp - 1) (hx2 : x ≠ s.regs.sp - 2) (hx : x ≠ 0xFF0F) :
    (s.dispatch i).read x = s.read x := by
  have hstores (st) (hst : st ∈ [(s.regs.sp - 1, hiByte s.regs.pc), (s.regs.sp - 1 - 1, loByte s.regs.pc)]) :
      mayChange st.1 x = false := by
    rw [sub_one_sub_one] at hst
    rcases List.mem_pair.1 hst with rfl | rfl
    · exact mayChange_of_inRam hhi hx1
    · exact mayChange_of_inRam hlo hx2
  calc (s.dispatch i).read x
      = Bus.read s.params { s.bus with ifReg := s.bus.ifReg &&& ~~~BitVec.twoPow 5 i } x :=
        Bus.stores_read_of_mayChange s.params _ _ hstores
    _ = s.read x := s.bus.read_withIfReg s.params _ hx

end

/-! ## The statements -/

/-- Settles O38: the source is the least one pending, and the dispatch is its record update. -/
theorem dispatchEntersTheHandler : Obligations.DispatchEntersTheHandler := by
  refine ⟨fun s hticks hime hpend => ?_, by decide, rfl⟩
  obtain ⟨i, hsrc, hi, hbit, hleast⟩ := exists_lowestSource hpend
  refine ⟨i, hi, hbit, hleast, ?_⟩
  rw [cpuStep_of_dispatch hticks hime hsrc, State.dispatch_eq]

/-- Settles O39: two stores into RAM and one request bit are all a dispatch changes on the bus. -/
theorem dispatchSavesThePcAndKeepsTheRest : Obligations.DispatchSavesThePcAndKeepsTheRest := by
  intro s t hticks hime hpend hhi hlo hstep
  obtain ⟨i, hsrc, hi, hbit, hleast⟩ := exists_lowestSource hpend
  rw [cpuStep_of_dispatch hticks hime hsrc] at hstep
  injection hstep with ht
  subst ht
  have hbus := State.dispatch_bus_of_inRam i hhi hlo
  have hifReg : (s.dispatch i).bus.ifReg = s.bus.ifReg &&& ~~~BitVec.twoPow 5 i := congrArg Bus.ifReg hbus
  refine ⟨State.dispatch_saved_pc i hhi hlo, ⟨i, hi, hbit, hleast, fun j hj => ?_⟩, ?_,
    fun x => State.dispatch_read_other i hhi hlo⟩
  · rw [hifReg, BitVec.getLsbD_and, BitVec.getLsbD_not, BitVec.getLsbD_twoPow]
    simp [hi, hj, bne, beq_eq_decide, eq_comm (a := i)]
  · rw [hifReg]
    exact hbus

/-- Settles O42: of the CPU's step only the instruction could stop, and each completes; the phases after it cannot. -/
theorem everyStepCompletes : Obligations.EveryStepCompletes := by
  refine ⟨fun s => ?_, exec_next⟩
  obtain ⟨u, hu⟩ := cpuStep_next s
  exact ⟨_, step_of_cpuStep hu⟩

/-- Settles O34: the fetch runs what the decoder makes of the three bytes at `PC`. -/
theorem stepRunsTheDecodedInstruction : Obligations.StepRunsTheDecodedInstruction := by
  intro s i rest hf hbug hdecode hinv
  obtain ⟨t, ht⟩ := exec_next i (s.atExecute (if i.isExtended then 2 else 1))
  exact ⟨t, ht, step_of_fetches_decoded hf hbug hdecode hinv ht⟩

/-- Settles O36: the phases after the CPU's step as one record; the display engine leaves the timer as it was. -/
theorem tickRunsItsPhasesInOrder : Obligations.TickRunsItsPhasesInOrder := by
  intro s u hu
  rw [← u.bus.ppuStep_rest.timer]
  exact step_of_cpuStep hu

/-- Settles O37: counting down and idling are cases of the step; a woken CPU fetches, as it would had it not been halted. -/
theorem countDownIdleAndWake : Obligations.CountDownIdleAndWake := by
  intro s
  refine ⟨cpuStep_of_ticksRemaining, cpuStep_of_idle, fun hticks _ hpend hime => ⟨?_, cpuStep_next s⟩⟩
  have hfetch : s.fetches := ⟨hticks, .inl hime, .inr hpend⟩
  have hawake : State.fetches { s with halted := false } := ⟨hticks, .inl hime, .inl rfl⟩
  rw [cpuStep_of_fetches hfetch, cpuStep_of_fetches hawake]

end Sys2Proof.Machine
end

section
/-! SUPPORT. Proofs of the exceptions family (60_exceptions.md), second part: the display engine's step by mode and by field,
the object scan, the objects of a column and the rendered row; then the statements. -/

namespace Sys2Proof.Machine

/-! ## The step, field by field (R340, R347) -/

theorem Bus.compareLyc_eq (b : Bus) :
    b.compareLyc =
      { b with
        ppu := { b.ppu with lycEqual := b.ppu.ly == b.ppu.lyc }
        ifReg :=
          if b.ppu.ly = b.ppu.lyc ∧ b.ppu.lycEqual = false ∧ b.ppu.statSelect.getLsbD 3 = true then b.ifReg ||| 0b00010
          else b.ifReg } := by
  have hcond : (b.ppu.ly == b.ppu.lyc && !b.ppu.lycEqual && b.ppu.statSelect.getLsbD 3) = true ↔
      b.ppu.ly = b.ppu.lyc ∧ b.ppu.lycEqual = false ∧ b.ppu.statSelect.getLsbD 3 = true := by
    simp [and_assoc]
  unfold Bus.compareLyc
  dsimp only
  rw [← if_congr hcond rfl rfl]
  split <;> rfl

@[simp] theorem Bus.ppuStep_mode (b : Bus) : b.ppuStep.ppu.mode = b.modeMachine.ppu.mode := by
  rw [Bus.ppuStep, Bus.compareLyc_hidden]
@[simp] theorem Bus.ppuStep_modeTicks (b : Bus) : b.ppuStep.ppu.modeTicks = b.modeMachine.ppu.modeTicks := by
  rw [Bus.ppuStep, Bus.compareLyc_hidden]
@[simp] theorem Bus.ppuStep_ly (b : Bus) : b.ppuStep.ppu.ly = b.modeMachine.ppu.ly := by
  rw [Bus.ppuStep, Bus.compareLyc_hidden]
@[simp] theorem Bus.ppuStep_lineObjs (b : Bus) : b.ppuStep.ppu.lineObjs = b.modeMachine.ppu.lineObjs := by
  rw [Bus.ppuStep, Bus.compareLyc_hidden]
@[simp] theorem Bus.ppuStep_frame (b : Bus) : b.ppuStep.ppu.frame = b.modeMachine.ppu.frame := by
  rw [Bus.ppuStep, Bus.compareLyc_hidden]

/-- The mode machine leaves the comparison of the step before (R347). -/
@[simp] theorem Bus.modeMachine_lycEqual (b : Bus) : b.modeMachine.ppu.lycEqual = b.ppu.lycEqual := by
  rcases b.modeMachine_cases with ⟨v, m, n, -, h⟩ | ⟨v, m, n, -, -, h⟩
  · rw [h]
  · rw [h, Bus.enterMode_lycEqual]

/-! ## The transitions of the enabled display (R342 to R345) -/

/-- The bus with the mode's counter advanced. -/
def Bus.countTick (b : Bus) : Bus := { b with ppu := { b.ppu with modeTicks := b.ppu.modeTicks + 1 } }

@[simp] theorem Bus.countTick_mode (b : Bus) : b.countTick.ppu.mode = b.ppu.mode := rfl
@[simp] theorem Bus.countTick_modeTicks (b : Bus) : b.countTick.ppu.modeTicks = b.ppu.modeTicks + 1 := rfl
@[simp] theorem Bus.countTick_ly (b : Bus) : b.countTick.ppu.ly = b.ppu.ly := rfl
@[simp] theorem Bus.setLy_ly (b : Bus) (v : Byte) : (b.setLy v).ppu.ly = v := rfl

theorem Bus.modeMachine_of_enabled {b : Bus} (hon : b.ppu.lcdc.getLsbD 7 = true) :
    b.modeMachine = b.countTick.transition := if_pos hon

theorem Bus.transition_of_oamScan {b : Bus} (hm : b.ppu.mode = .oamScan) :
    b.transition = if b.ppu.modeTicks = 80 then b.enterMode .draw else b := by
  unfold Bus.transition
  rw [hm]
  rfl

theorem Bus.transition_of_draw {b : Bus} (hm : b.ppu.mode = .draw) :
    b.transition = if b.ppu.modeTicks = 172 then b.enterMode .hblank else b := by
  unfold Bus.transition
  rw [hm]
  rfl

theorem Bus.transition_of_hblank {b : Bus} (hm : b.ppu.mode = .hblank) :
    b.transition =
      if b.ppu.modeTicks = 204 then
        (b.setLy (b.ppu.ly + 1)).enterMode (if b.ppu.ly + 1 = 144 then .vblank else .oamScan)
      else b := by
  unfold Bus.transition
  rw [hm, apply_ite (Bus.enterMode _)]
  rfl

theorem Bus.transition_of_vblank {b : Bus} (hm : b.ppu.mode = .vblank) :
    b.transition =
      if b.ppu.modeTicks = 456 then
        if b.ppu.ly = 153 then (b.setLy 0).enterMode .oamScan
        else { b with ppu := { b.ppu with ly := b.ppu.ly + 1, modeTicks := 0 } }
      else b := by
  unfold Bus.transition
  rw [hm]
  rfl

/-! ## Requests (R344, R346, R347) -/

/-- What the mode machine of an enabled display does to a bus: move the line and the count within a mode, or enter another
mode, the line moved first. -/
theorem Bus.modeMachine_cases_of_enabled {b : Bus} (hon : b.ppu.lcdc.getLsbD 7 = true) :
    (∃ v n, b.modeMachine = { b with ppu := { b.ppu with ly := v, modeTicks := n } }) ∨
    (∃ v m, m ≠ b.ppu.mode ∧ b.modeMachine = (b.countTick.setLy v).enterMode m) := by
  rw [Bus.modeMachine_of_enabled hon]
  cases hm : b.ppu.mode
  case oamScan =>
    rw [Bus.transition_of_oamScan (b := b.countTick) hm]
    split
    · exact .inr ⟨b.ppu.ly, .draw, by decide, rfl⟩
    · exact .inl ⟨b.ppu.ly, _, rfl⟩
  case draw =>
    rw [Bus.transition_of_draw (b := b.countTick) hm]
    split
    · exact .inr ⟨b.ppu.ly, .hblank, by decide, rfl⟩
    · exact .inl ⟨b.ppu.ly, _, rfl⟩
  case hblank =>
    rw [Bus.transition_of_hblank (b := b.countTick) hm]
    split
    · exact .inr ⟨_, _, by split <;> decide, rfl⟩
    · exact .inl ⟨b.ppu.ly, _, rfl⟩
  case vblank =>
    rw [Bus.transition_of_vblank (b := b.countTick) hm]
    split
    · split
      · exact .inr ⟨0, .oamScan, by decide, rfl⟩
      · exact .inl ⟨_, 0, rfl⟩
    · exact .inl ⟨b.ppu.ly, _, rfl⟩

theorem Bus.enterMode_ifReg (b : Bus) (m : Mode) :
    (b.enterMode m).ifReg =
      b.ifReg ||| (if m = .vblank then 0b00001 else 0) ||| (if b.ppu.selects m = true then 0b00010 else 0) := by
  let c : Bus := { b with ppu := { b.ppu with mode := m, modeTicks := 0 } }
  have hselects : (c.entryEffect m).ppu.selects m = b.ppu.selects m := by cases m <;> rfl
  have hentry : (c.entryEffect m).ifReg = b.ifReg ||| (if m = .vblank then 0b00001 else 0) := by
    cases m
    case vblank => rfl
    all_goals exact (BitVec.or_zero).symm
  have henter : b.enterMode m =
      if (c.entryEffect m).ppu.selects m = true then (c.entryEffect m).request 1 else c.entryEffect m := rfl
  rw [henter, hselects, ← hentry]
  split
  · rfl
  · exact (BitVec.or_zero).symm

theorem Ppu.selects_iff (p : Ppu) (m : Mode) :
    p.selects m = true ↔
      (m = .hblank ∧ p.statSelect.getLsbD 0 = true) ∨ (m = .vblank ∧ p.statSelect.getLsbD 1 = true) ∨
        (m = .oamScan ∧ p.statSelect.getLsbD 2 = true) := by
  cases m <;> simp [Ppu.selects]

/-- The requests of the mode machine are those of entering a mode. -/
theorem Bus.modeMachine_ifReg {b : Bus} (hon : b.ppu.lcdc.getLsbD 7 = true) :
    b.modeMachine.ifReg =
      b.ifReg
        ||| (if b.modeMachine.ppu.mode ≠ b.ppu.mode ∧ b.modeMachine.ppu.mode = .vblank then 0b00001 else 0)
        ||| (if b.modeMachine.ppu.mode ≠ b.ppu.mode ∧ b.ppu.selects b.modeMachine.ppu.mode = true then 0b00010
          else 0) := by
  rcases Bus.modeMachine_cases_of_enabled hon with ⟨v, n, h⟩ | ⟨v, m, hm, h⟩
  · simp [h]
  · have hentered : b.modeMachine.ppu.mode = m := by rw [h, Bus.enterMode_mode]
    simp only [hentered, ne_eq, hm, not_false_eq_true, true_and]
    rw [h, Bus.enterMode_ifReg]
    rfl

/-- A request made for either of two reasons is made once. -/
theorem ite_or_ite {c d : Prop} [Decidable c] [Decidable d] (r : BitVec 5) :
    (if c then r else 0) ||| (if d then r else 0) = if c ∨ d then r else 0 := by
  by_cases hc : c <;> by_cases hd : d <;> simp [hc, hd]

/-! ## The object scan (R350) -/

theorem foldl_scanStep (b : Bus) (ks found : List Nat) (h : found.length ≤ 10) :
    ks.foldl (scanStep b) found = (found ++ ks.filter b.objCovers).take 10 := by
  induction ks generalizing found with
  | nil => simp [List.take_of_length_le h]
  | cons k ks ih =>
    rw [List.foldl_cons, scanStep]
    by_cases hk : b.objCovers k = true
    · rw [List.filter_cons_of_pos hk]
      split
      case isTrue hroom => rw [ih _ (by simp; omega), List.append_assoc]; rfl
      case isFalse hfull =>
        have hten : 10 = found.length := by simp [hk] at hfull; omega
        rw [ih _ h, hten, List.take_left, List.take_left]
    · rw [List.filter_cons_of_neg hk, if_neg (fun hc => hk hc.2), ih _ h]

theorem Bus.scannedObjs_eq (b : Bus) : b.scannedObjs = ((List.range 40).filter b.objCovers).take 10 :=
  foldl_scanStep b (List.range 40) [] (Nat.zero_le 10)

/-- The scan's test, with the height as an integer. -/
theorem Bus.objCovers_eq (b : Bus) (k : Nat) :
    b.objCovers k =
      decide (((storedByte b.mem (0xFE00 + 4 * k)).toNat : Int) - 16 ≤ b.ppu.ly.toNat ∧
        (b.ppu.ly.toNat : Int) < ((storedByte b.mem (0xFE00 + 4 * k)).toNat : Int) - 16 +
          if b.ppu.lcdc.getLsbD 2 then 16 else 8) := by
  have hheight : (b.ppu.objHeight : Int) = if b.ppu.lcdc.getLsbD 2 then 16 else 8 := by
    rw [Ppu.objHeight]
    split <;> rfl
  rw [← hheight]
  rfl

/-- A step that leaves mode `m` and did not find it has entered it, the disabled display's mode 0 apart. -/
theorem Bus.modeMachine_of_entered {b : Bus} {m : Mode} (hm : m ≠ .hblank) (hnow : b.modeMachine.ppu.mode = m)
    (hbefore : b.ppu.mode ≠ m) :
    ∃ v n, (m = .draw → v = b.ppu.ly) ∧
      b.modeMachine = Bus.enterMode { b with ppu := { b.ppu with ly := v, modeTicks := n } } m := by
  rcases b.modeMachine_cases with ⟨v, m', n, hm', e⟩ | ⟨v, m', n, -, hline, e⟩
  · obtain rfl : m' = m := by simpa [e] using hnow
    rcases hm' with rfl | rfl
    · exact absurd rfl hbefore
    · exact absurd rfl hm
  · obtain rfl : m' = m := by simpa [e] using hnow
    exact ⟨v, n, hline, e⟩

theorem Bus.ppuStep_lineObjs_of_scan {b : Bus} (h : b.ppuStep.ppu.mode = .oamScan ∧ b.ppu.mode ≠ .oamScan) :
    b.ppuStep.ppu.lineObjs = (b.setLy b.ppuStep.ppu.ly).scannedObjs := by
  obtain ⟨hnow, hbefore⟩ := h
  rw [Bus.ppuStep_mode] at hnow
  rw [Bus.ppuStep_lineObjs, Bus.ppuStep_ly]
  obtain ⟨v, n, -, e⟩ := Bus.modeMachine_of_entered (by decide) hnow hbefore
  rw [e, Bus.enterMode_lineObjs_scan, Bus.enterMode_ly]
  rfl

theorem Bus.ppuStep_lineObjs_of_not_scan {b : Bus} (h : ¬(b.ppuStep.ppu.mode = .oamScan ∧ b.ppu.mode ≠ .oamScan)) :
    b.ppuStep.ppu.lineObjs = b.ppu.lineObjs := by
  rw [Bus.ppuStep_mode] at h
  rw [Bus.ppuStep_lineObjs]
  rcases b.modeMachine_cases with ⟨v, m, n, -, e⟩ | ⟨v, m, n, hm, -, e⟩
  · rw [e]
  · have hother : m ≠ .oamScan := by
      rintro rfl
      exact h ⟨by rw [e, Bus.enterMode_mode], hm.symm⟩
    rw [e, Bus.enterMode_lineObjs_kept _ hother]

/-! ## The objects of a column (R356, R357) -/

theorem Bus.drawObj_transparent {b : Bus} {x k : Nat} (h : b.objIndex k x = 0) (cell : Bool × BitVec 2) :
    b.drawObj x cell k = cell := if_pos (.inl h)

theorem Bus.drawObj_taken (b : Bus) (x k : Nat) (shade : BitVec 2) : b.drawObj x (true, shade) k = (true, shade) :=
  if_pos (.inr rfl)

theorem Bus.drawObj_free {b : Bus} {x k : Nat} (h : b.objIndex k x ≠ 0) (shade : BitVec 2) :
    b.drawObj x (false, shade) k =
      (true,
        if (b.oamByte (4 * k + 3)).getLsbD 7 = true ∧ b.bgIndex x ≠ 0 then shade
        else shadeOf (if (b.oamByte (4 * k + 3)).getLsbD 4 then b.ppu.obp1 else b.ppu.obp0) (b.objIndex k x)) := by
  rw [Bus.drawObj, if_neg (by simpa using h), apply_ite (Prod.mk true)]

theorem Bus.foldl_drawObj_transparent {b : Bus} {x : Nat} {ks : List Nat} (h : ∀ k ∈ ks, b.objIndex k x = 0)
    (cell : Bool × BitVec 2) : ks.foldl (b.drawObj x) cell = cell := by
  induction ks with
  | nil => rfl
  | cons k ks ih =>
    obtain ⟨hk, hks⟩ := List.forall_mem_cons.1 h
    rw [List.foldl_cons, Bus.drawObj_transparent hk, ih hks]

/-! ## The rendered row (R351, R352) -/

theorem Bus.renderLine_framePixel_row (b : Bus) {x : Nat} (h : x < 160) :
    b.renderLine.ppu.framePixel b.ppu.ly.toNat x = b.pixel x := by
  simp [Bus.renderLine, Ppu.framePixel, readRow_writeRow_same, h]

theorem Bus.renderLine_framePixel_other (b : Bus) {y : Nat} (x : Nat) (h : y ≠ b.ppu.ly.toNat) :
    b.renderLine.ppu.framePixel y x = b.ppu.framePixel y x := by
  simp only [Bus.renderLine, Ppu.framePixel, readRow_writeRow_other _ _ h]

theorem Bus.ppuStep_frame_of_draw {b : Bus} (h : b.ppuStep.ppu.mode = .draw ∧ b.ppu.mode ≠ .draw) :
    b.ppuStep.ppu.frame = b.renderLine.ppu.frame := by
  obtain ⟨hnow, hbefore⟩ := h
  rw [Bus.ppuStep_mode] at hnow
  rw [Bus.ppuStep_frame]
  obtain ⟨v, n, hline, e⟩ := Bus.modeMachine_of_entered (by decide) hnow hbefore
  rw [e, Bus.enterMode_frame_draw, hline rfl]
  rfl

theorem Bus.ppuStep_frame_of_not_draw {b : Bus} (h : ¬(b.ppuStep.ppu.mode = .draw ∧ b.ppu.mode ≠ .draw)) :
    b.ppuStep.ppu.frame = b.ppu.frame := by
  rw [Bus.ppuStep_mode] at h
  rw [Bus.ppuStep_frame]
  rcases b.modeMachine_cases with ⟨v, m, n, -, e⟩ | ⟨v, m, n, hm, -, e⟩
  · rw [e]
  · have hother : m ≠ .draw := by
      rintro rfl
      exact h ⟨by rw [e, Bus.enterMode_mode], hm.symm⟩
    rw [e, Bus.enterMode_frame_kept _ hother]

theorem Ppu.framePixel_congr {p q : Ppu} (h : q.frame = p.frame) (y x : Nat) : q.framePixel y x = p.framePixel y x := by
  rw [Ppu.framePixel, Ppu.framePixel, h]

/-! ## The statements -/

/-- Settles O50: each mode's transition is one case; the ranges keep the line from wrapping. -/
theorem modesFollowTheirDurations : Obligations.ModesFollowTheirDurations := by
  intro b hon hr q n
  unfold Ppu.rangesOk at hr
  simp only [q, n, Bus.ppuStep_ly, Bus.ppuStep_mode, Bus.ppuStep_modeTicks, Bus.modeMachine_of_enabled hon]
  refine ⟨fun hm => ?_, fun hm => ?_, fun hm => ?_, fun hm => ?_⟩
  · rw [Bus.transition_of_oamScan (b := b.countTick) hm, Bus.countTick_modeTicks]
    split <;> simp [hm]
  · rw [Bus.transition_of_draw (b := b.countTick) hm, Bus.countTick_modeTicks]
    split <;> simp [hm]
  · simp only [hm] at hr
    have hwrap : b.ppu.ly.toNat + 1 < 256 := by omega
    rw [Bus.transition_of_hblank (b := b.countTick) hm, Bus.countTick_modeTicks, Bus.countTick_ly]
    split <;> simp [hm, hwrap]
  · simp only [hm] at hr
    have hwrap : b.ppu.ly.toNat + 1 < 256 := by omega
    rw [Bus.transition_of_vblank (b := b.countTick) hm, Bus.countTick_modeTicks, Bus.countTick_ly]
    split
    · split <;> simp [hm, hwrap]
    · simp [hm]

/-- Settles O51: entering a mode makes its requests, the comparison of the line then left makes its own. -/
theorem displayRaisesItsRequests : Obligations.DisplayRaisesItsRequests := by
  intro b hon _ q enters stat
  have hrest := b.modeMachine_rest
  refine ⟨by rw [b.ppuStep_lycEqual, b.ppuStep_rest.lyc], ?_⟩
  simp only [stat, enters, q, Bus.ppuStep_ly, Bus.ppuStep_mode, ← Ppu.selects_iff]
  rw [← ite_or_ite, ← BitVec.or_assoc, ← Bus.modeMachine_ifReg hon, Bus.ppuStep, Bus.compareLyc_eq,
    Bus.modeMachine_lycEqual, hrest.lyc, hrest.statSelect]
  dsimp only
  split
  · rfl
  · exact (BitVec.or_zero).symm

/-- Settles O52: the fold of the scan is the filter's first ten; only entering mode 2 scans. -/
theorem objectScanTakesTheFirstTen : Obligations.ObjectScanTakesTheFirstTen := by
  intro b height covers scan
  have hscan (v : Byte) : (b.setLy v).scannedObjs = scan v := by
    rw [Bus.scannedObjs_eq]
    exact congrArg (fun p => ((List.range 40).filter p).take 10) (funext fun k => Bus.objCovers_eq _ k)
  refine ⟨?_, ?_, fun p a v => (b.write_kept p a v).hidden.lineObjs⟩
  · rw [← hscan, Bus.objectScan]
    rfl
  · rw [← hscan]
    split
    · exact Bus.ppuStep_lineObjs_of_scan ‹_›
    · exact Bus.ppuStep_lineObjs_of_not_scan ‹_›

/-- Settles O53: the objects before it leave the column free, it takes the column, and those after it find it taken. -/
theorem earliestObjectWinsTheColumn : Obligations.EarliestObjectWinsTheColumn := by
  intro b x before after k hobjs hlist hbefore hk attr
  rw [Bus.pixel, if_pos hobjs, hlist, List.foldl_append, Bus.foldl_drawObj_transparent hbefore, List.foldl_cons,
    Bus.drawObj_free hk, List.foldl_fixed' (b.drawObj_taken x · _)]
  rfl

/-- Settles O54: drawing a line writes one row, and of the step's transitions only entering mode 3 draws. -/
theorem renderWritesOneRow : Obligations.RenderWritesOneRow := by
  intro b q
  refine ⟨rfl, fun _ => b.renderLine_framePixel_row, fun y x hy => b.renderLine_framePixel_other x hy, fun hdraw => ?_,
    Bus.ppuStep_frame_of_not_draw, fun p a v => (b.write_kept p a v).hidden.frame⟩
  have hframe := Ppu.framePixel_congr (Bus.ppuStep_frame_of_draw hdraw)
  exact ⟨fun x hx => (hframe ..).trans (b.renderLine_framePixel_row hx),
    fun y x hy => (hframe ..).trans (b.renderLine_framePixel_other x hy)⟩

/-- Settles O49: the mode machine forces the two, the comparison is with line 0. -/
theorem disabledDisplayStandsAtLineZero : Obligations.DisabledDisplayStandsAtLineZero := by
  intro b hoff
  have hforced : b.modeMachine = { b with ppu := { b.ppu with ly := 0, mode := .hblank, modeTicks := 0 } } :=
    if_neg (by rw [Ppu.enabled, hoff]; exact Bool.false_ne_true)
  rw [Bus.ppuStep, hforced, Bus.compareLyc_eq]
  simp only [eq_comm (a := (0 : Byte)), BEq.comm (a := (0 : Byte))]

end Sys2Proof.Machine
end

section
/-! SUPPORT. Proofs of the exceptions family (60_exceptions.md), last part: where the enabled display stands at each step of a
frame, one step at a time, and its VBlank request; then the statement. -/

namespace Sys2Proof.Machine

/-! ## The course of a frame (R340, R348) -/

/-- The display stands at tick `j` of line `n`: the four parts of a frame. -/
inductive Ppu.AtTick (p : Ppu) (n j : Nat) : Prop
  | oamScan (hly : p.ly.toNat = n) (hm : p.mode = .oamScan) (ht : p.modeTicks = j) (hn : n < 144) (hj : j < 80)
  | draw (hly : p.ly.toNat = n) (hm : p.mode = .draw) (ht : p.modeTicks + 80 = j) (hn : n < 144) (hj : j < 252)
  | hblank (hly : p.ly.toNat = n) (hm : p.mode = .hblank) (ht : p.modeTicks + 252 = j) (hn : n < 144) (hj : j < 456)
  | vblank (hly : p.ly.toNat = n) (hm : p.mode = .vblank) (ht : p.modeTicks = j) (hn : 144 ≤ n ∧ n ≤ 153) (hj : j < 456)

theorem Ppu.AtTick.ly_eq {p : Ppu} {n j : Nat} (h : p.AtTick n j) : p.ly.toNat = n := by
  cases h <;> assumption

theorem Ppu.AtTick.mode_of_lt {p : Ppu} {n j : Nat} (h : p.AtTick n j) (hn : n < 144) :
    p.mode = if j < 80 then .oamScan else if j < 252 then .draw else .hblank := by
  cases h with
  | oamScan hly hm ht _ hj => rw [hm, if_pos hj]
  | draw hly hm ht _ hj => rw [hm, if_neg (by omega), if_pos hj]
  | hblank hly hm ht _ hj => rw [hm, if_neg (by omega), if_neg (by omega)]
  | vblank hly hm ht hv => omega

theorem Ppu.AtTick.mode_eq_vblank_iff {p : Ppu} {n j : Nat} (h : p.AtTick n j) : p.mode = .vblank ↔ 144 ≤ n := by
  cases h with
  | oamScan _ hm _ hn | draw _ hm _ hn | hblank _ hm _ hn => simp [hm, hn]
  | vblank _ hm _ hn => simp [hm, hn]

theorem Ppu.AtTick.rangesOk {p : Ppu} {n j : Nat} (h : p.AtTick n j) : p.rangesOk := by
  unfold Ppu.rangesOk
  cases h with
  | oamScan hly hm ht hn hj | draw hly hm ht hn hj | hblank hly hm ht hn hj | vblank hly hm ht hn hj =>
    rw [hm]
    dsimp only
    omega

/-- A step moves the display to the next tick: along the line, to the next line, or from the last line to the start. -/
theorem Bus.ppuStep_atTick {b : Bus} (hon : b.ppu.lcdc.getLsbD 7 = true) {n j : Nat} (h : b.ppu.AtTick n j) :
    (j < 455 → b.ppuStep.ppu.AtTick n (j + 1)) ∧
    (j = 455 → n < 153 → b.ppuStep.ppu.AtTick (n + 1) 0) ∧
    (j = 455 → n = 153 → b.ppuStep.ppu.AtTick 0 0) := by
  obtain ⟨hscan, hdraw, hhblank, hvblank⟩ := modesFollowTheirDurations b hon h.rangesOk
  cases h with
  | oamScan hly hm ht hn hj =>
    obtain ⟨hly', hnext⟩ := hscan hm
    refine ⟨fun _ => ?_, by omega, by omega⟩
    split at hnext
    · exact .draw (by rw [hly', hly]) hnext.1 (by omega) hn (by omega)
    · exact .oamScan (by rw [hly', hly]) hnext.1 (by omega) hn (by omega)
  | draw hly hm ht hn hj =>
    obtain ⟨hly', hnext⟩ := hdraw hm
    refine ⟨fun _ => ?_, by omega, by omega⟩
    split at hnext
    · exact .hblank (by rw [hly', hly]) hnext.1 (by omega) hn (by omega)
    · exact .draw (by rw [hly', hly]) hnext.1 (by omega) hn (by omega)
  | hblank hly hm ht hn hj =>
    have hnext := hhblank hm
    split at hnext
    case isTrue hlast =>
      obtain ⟨hly', ht', hm'⟩ := hnext
      refine ⟨by omega, fun _ _ => ?_, by omega⟩
      split at hm'
      case isTrue h144 =>
        have hline : b.ppuStep.ppu.ly.toNat = 144 := congrArg BitVec.toNat h144
        exact .vblank (by omega) hm' ht' (by omega) (by omega)
      case isFalse h144 =>
        have hline : b.ppuStep.ppu.ly.toNat ≠ 144 := fun e => h144 (BitVec.eq_of_toNat_eq e)
        exact .oamScan (by omega) hm' ht' (by omega) (by omega)
    case isFalse hlast =>
      obtain ⟨hly', hm', ht'⟩ := hnext
      exact ⟨fun _ => .hblank (by rw [hly', hly]) hm' (by omega) hn (by omega), by omega, by omega⟩
  | vblank hly hm ht hn hj =>
    have hnext := hvblank hm
    split at hnext
    case isTrue hlast =>
      obtain ⟨ht', hnext⟩ := hnext
      split at hnext
      case isTrue h153 =>
        have hline : b.ppu.ly.toNat = 153 := congrArg BitVec.toNat h153
        exact ⟨by omega, by omega, fun _ _ => .oamScan (congrArg BitVec.toNat hnext.1) hnext.2 ht' (by omega) (by omega)⟩
      case isFalse h153 =>
        have hline : b.ppu.ly.toNat ≠ 153 := fun e => h153 (BitVec.eq_of_toNat_eq e)
        exact ⟨by omega, fun _ _ => .vblank (by omega) hnext.2 ht' (by omega) (by omega), by omega⟩
    case isFalse hlast =>
      obtain ⟨hly', hm', ht'⟩ := hnext
      exact ⟨fun _ => .vblank (by rw [hly', hly]) hm' (by omega) hn (by omega), by omega, by omega⟩

/-! ## Runs of the display engine (R348) -/

theorem Bus.ppuRun_succ (b : Bus) (n : Nat) : b.ppuRun (n + 1) = (b.ppuRun n).ppuStep := rfl

theorem Bus.ppuRun_lcdc (b : Bus) (n : Nat) : (b.ppuRun n).ppu.lcdc = b.ppu.lcdc := by
  induction n with
  | zero => rfl
  | succ n ih => rw [Bus.ppuRun_succ, (b.ppuRun n).ppuStep_rest.lcdc, ih]

/-- No step takes a request back (R310). -/
theorem Bus.ppuRun_requests_mono (b : Bus) {i m n : Nat} (hmn : m ≤ n) (h : (b.ppuRun m).ifReg.getLsbD i = true) :
    (b.ppuRun n).ifReg.getLsbD i = true := by
  induction n, hmn using Nat.le_induction with
  | base => exact h
  | succ n _ ih => exact (b.ppuRun n).ppuStep_rest.requests i ih

/-- The VBlank bit after a step: set on entry to mode 1, otherwise as it was (R344). -/
theorem Bus.ppuStep_vblankBit {b : Bus} (hon : b.ppu.lcdc.getLsbD 7 = true) (hr : b.ppu.rangesOk) :
    b.ppuStep.ifReg.getLsbD 0 =
      (b.ifReg.getLsbD 0 || decide (b.ppuStep.ppu.mode ≠ b.ppu.mode ∧ b.ppuStep.ppu.mode = .vblank)) := by
  have hbit (c : Prop) [Decidable c] : (if c then 0b00001 else 0 : BitVec 5).getLsbD 0 = decide c := by
    by_cases hc : c <;> simp [hc]
  have hstat (c : Prop) [Decidable c] : (if c then 0b00010 else 0 : BitVec 5).getLsbD 0 = false := by
    split <;> rfl
  obtain ⟨-, hreq⟩ := displayRaisesItsRequests b hon hr
  rw [hreq, BitVec.getLsbD_or, BitVec.getLsbD_or, hbit, hstat, Bool.or_false]

section
variable {b : Bus} (hon : b.ppu.lcdc.getLsbD 7 = true) (hmode : b.ppu.mode = .oamScan) (hticks : b.ppu.modeTicks = 0)
  (hly : b.ppu.ly = 0)
include hon hmode hticks hly

/-- From the start of a frame the display stands at tick `k` after `k` steps. -/
theorem Bus.ppuRun_atTick {k : Nat} (hk : k < 70224) : (b.ppuRun k).ppu.AtTick (k / 456) (k % 456) := by
  induction k with
  | zero => exact .oamScan (congrArg BitVec.toNat hly) hmode hticks (by decide) (by decide)
  | succ k ih =>
    have hon' : (b.ppuRun k).ppu.lcdc.getLsbD 7 = true := by rw [b.ppuRun_lcdc, hon]
    obtain ⟨hwithin, hline, -⟩ := Bus.ppuStep_atTick hon' (ih (by omega))
    rw [Bus.ppuRun_succ]
    by_cases hlast : k % 456 = 455
    · have hpos : (k + 1) / 456 = k / 456 + 1 ∧ (k + 1) % 456 = 0 := by omega
      rw [hpos.1, hpos.2]
      exact hline hlast (by omega)
    · have hpos : (k + 1) / 456 = k / 456 ∧ (k + 1) % 456 = k % 456 + 1 := by omega
      rw [hpos.1, hpos.2]
      exact hwithin (by omega)

theorem Bus.ppuRun_atTick_of_line {n j : Nat} (hn : n < 154) (hj : j < 456) : (b.ppuRun (456 * n + j)).ppu.AtTick n j := by
  have hpos : (456 * n + j) / 456 = n ∧ (456 * n + j) % 456 = j := by omega
  have hat := Bus.ppuRun_atTick hon hmode hticks hly (k := 456 * n + j) (by omega)
  rwa [hpos.1, hpos.2] at hat

theorem Bus.ppuRun_atTick_frameEnd : (b.ppuRun 70224).ppu.AtTick 0 0 := by
  have hon' : (b.ppuRun 70223).ppu.lcdc.getLsbD 7 = true := by rw [b.ppuRun_lcdc, hon]
  obtain ⟨-, -, hend⟩ := Bus.ppuStep_atTick hon' (Bus.ppuRun_atTick hon hmode hticks hly (k := 70223) (by decide))
  exact hend (by decide) (by decide)

/-- The VBlank bit of one step to the next: only the step that reaches line 144 sets it. -/
theorem Bus.ppuRun_succ_vblankBit {k : Nat} (hk : k + 1 < 70224) :
    (b.ppuRun (k + 1)).ifReg.getLsbD 0 = ((b.ppuRun k).ifReg.getLsbD 0 || k + 1 == 65664) := by
  have hon' : (b.ppuRun k).ppu.lcdc.getLsbD 7 = true := by rw [b.ppuRun_lcdc, hon]
  have hbefore := Bus.ppuRun_atTick hon hmode hticks hly (k := k) (by omega)
  have hafter := (Bus.ppuRun_atTick hon hmode hticks hly hk).mode_eq_vblank_iff
  rw [Bus.ppuRun_succ] at hafter ⊢
  rw [Bus.ppuStep_vblankBit hon' hbefore.rangesOk]
  congr 1
  rw [beq_eq_decide, decide_eq_decide]
  constructor
  · rintro ⟨hentered, hvblank⟩
    have hnot : ¬144 ≤ k / 456 := fun h => hentered (hvblank.trans (hbefore.mode_eq_vblank_iff.2 h).symm)
    have hnow := hafter.1 hvblank
    omega
  · intro hk144
    have hvblank := hafter.2 (by omega)
    refine ⟨fun hsame => ?_, hvblank⟩
    have hearly := hbefore.mode_eq_vblank_iff.1 (hsame.symm.trans hvblank)
    omega

theorem Bus.ppuRun_vblankBit_before {k : Nat} (hk : k < 65664) :
    (b.ppuRun k).ifReg.getLsbD 0 = b.ifReg.getLsbD 0 := by
  induction k with
  | zero => rfl
  | succ k ih =>
    have hother : (k + 1 == 65664) = false := beq_false_of_ne (by omega)
    rw [Bus.ppuRun_succ_vblankBit hon hmode hticks hly (by omega), hother, Bool.or_false, ih (by omega)]

theorem Bus.ppuRun_vblankBit_from {k : Nat} (hk : 65664 ≤ k) : (b.ppuRun k).ifReg.getLsbD 0 = true := by
  have hset := Bus.ppuRun_succ_vblankBit hon hmode hticks hly (k := 65663) (by decide)
  exact b.ppuRun_requests_mono hk (hset.trans (Bool.or_true _))

end

/-! ## The statement -/

/-- Settles O55: each step moves the display one tick on along its lines, and only the one that reaches line 144 enters
mode 1. -/
theorem frameTakes70224Ticks : Obligations.FrameTakes70224Ticks := by
  intro b hon hmode hticks hly
  have hline {n j : Nat} (hn : n < 154) (hj : j < 456) : (b.ppuRun (456 * n + j)).ppu.AtTick n j :=
    Bus.ppuRun_atTick_of_line hon hmode hticks hly hn hj
  refine ⟨fun n hn j hj => ?_, fun n hlo hhi j hj => ?_, fun k => Bus.ppuRun_vblankBit_before hon hmode hticks hly,
    fun k hk _ => Bus.ppuRun_vblankBit_from hon hmode hticks hly hk, ?_⟩
  · have hat := hline (n := n) (by omega) hj
    exact ⟨hat.ly_eq, hat.mode_of_lt hn⟩
  · have hat := hline (n := n) (by omega) hj
    exact ⟨hat.ly_eq, hat.mode_eq_vblank_iff.2 hlo⟩
  · have hend := Bus.ppuRun_atTick_frameEnd hon hmode hticks hly
    cases hend with
    | oamScan hly' hm ht => exact ⟨hm, ht, BitVec.eq_of_toNat_eq hly'⟩
    | draw | hblank | vblank => omega

end Sys2Proof.Machine
end
